-- ==== Sys2Proof/Word.lean ====
section
/-! DEFINITION. Bytes, register words, seven-bit checksums and parameter names (00_scope R8, 10_state R39). -/

namespace Sys2Proof

/-- A byte, an integer 0..255 (00_scope R8). -/
abbrev Byte := BitVec 8

/-- A register word, 32 bits (00_scope R8, 10_state R24). -/
abbrev Word := BitVec 32

/-- A seven-bit checksum value (42_checksum R142). -/
abbrev Ck := BitVec 7

/-- A parameter name: a non-empty list of Unicode scalar values (10_state R39), held as its first scalar
value and the rest, so that no name is empty. Lean's `Char` is a Unicode scalar value. -/
structure Name where
  first : Char
  rest  : List Char
  deriving DecidableEq, Repr

end Sys2Proof
end

