-- ==== Sys2Proof/Config.lean ====
section
/-! DEFINITION. The configuration record of one SXC (00_scope R5) and the schema entries it holds (10_state R40, R41).
Every field is an OPEN parameter of the spec; no value is fixed here. -/

namespace Sys2Proof

/-- P6 PACK_SCHEME. -/
inductive PackScheme
  | flag7
  | nibble
  deriving DecidableEq, Repr

/-- P7 FLAG_BIT_ORDER, used when PACK_SCHEME = FLAG7. -/
inductive FlagBitOrder
  | lsbFirst
  | msbFirst
  deriving DecidableEq, Repr

/-- P8 NIBBLE_ORDER, used when PACK_SCHEME = NIBBLE. -/
inductive NibbleOrder
  | highFirst
  | lowFirst
  deriving DecidableEq, Repr

/-- P10 CK_ALGO. -/
inductive CkAlgo
  | sumNeg7
  | sum7
  | xor7
  deriving DecidableEq, Repr

/-- P11 CK_DOMAIN. -/
inductive CkDomain
  | packed
  | unpacked
  deriving DecidableEq, Repr

/-- P14 RESERVED_POLICY. -/
inductive ReservedPolicy
  | check
  | ignore
  deriving DecidableEq, Repr

/-- The kind of a schema entry (10_state R40). -/
inductive EntryKind
  | scalar
  | array
  | reserved
  deriving DecidableEq, Repr

/-- The constraint of a schema entry (10_state R41). Bounds and members are naturals, which carries the
`0 <=` half of 10_state R42 condition 3. -/
inductive Constraint
  | range (lo hi : Nat)
  | enum (members : List Nat)
  | none
  deriving DecidableEq, Repr

/-- A schema entry (10_state R40): `off` is a bit offset into UNP, `width` the bits of one value, `count`
the number of values. -/
structure Entry where
  name  : Option Name
  kind  : EntryKind
  off   : Nat
  width : Nat
  count : Nat
  cons  : Constraint
  deriving DecidableEq, Repr

/-- The configuration record `cfg`, P1 to P15 (00_scope R5). P16 is the constant `fieldWidthMax`. -/
structure Config where
  startByte      : Byte
  endByte        : Byte
  mfrId          : List Byte
  devId          : List Byte
  modelId        : List Byte
  packScheme     : PackScheme
  flagBitOrder   : FlagBitOrder
  nibbleOrder    : NibbleOrder
  nGroups        : Nat
  ckAlgo         : CkAlgo
  ckDomain       : CkDomain
  ckLo           : Nat
  ckHi           : Nat
  schema         : List Entry
  reservedPolicy : ReservedPolicy
  bufMax         : Nat
  deriving DecidableEq, Repr

end Sys2Proof
end

