-- ==== Sys2Proof/Machine/Params.lean ====
section
/-! DEFINITION. What follows from the configuration: derived constants (00_scope R6), the constant registers
(10_state R34, R35), the separate checks of well-formedness (00_scope R7, 10_state R42) and the reference
configuration REF (00_scope R9). -/

namespace Sys2Proof

/-! ### Derived constants (00_scope R6) -/

/-- P16 FIELD_WIDTH_MAX, fixed at 32 (00_scope R5). -/
def fieldWidthMax : Nat := 32

/-- ID: the identifier bytes in frame order, manufacturer, device, model. -/
def Config.ident (c : Config) : List Byte := c.mfrId ++ c.devId ++ c.modelId

/-- ID_LEN. -/
def Config.idLen (c : Config) : Nat := c.ident.length

/-- GP: packed bytes per group. -/
def PackScheme.gp : PackScheme → Nat
  | .flag7 => 8
  | .nibble => 2

/-- GL: logical bytes per group. -/
def PackScheme.gl : PackScheme → Nat
  | .flag7 => 7
  | .nibble => 1

/-- GP of the configured scheme. -/
def Config.gp (c : Config) : Nat := c.packScheme.gp

/-- GL of the configured scheme. -/
def Config.gl (c : Config) : Nat := c.packScheme.gl

/-- PKD_LEN: the fixed packed data length, the checksum byte excluded. -/
def Config.pkdLen (c : Config) : Nat := c.nGroups * c.gp

/-- UNP_LEN: the fixed unpacked stream length. -/
def Config.unpLen (c : Config) : Nat := c.nGroups * c.gl

/-- PAYLOAD_LEN: data plus checksum byte. -/
def Config.payloadLen (c : Config) : Nat := c.pkdLen + 1

/-- MIN_FRAME_LEN. -/
def Config.minFrameLen (c : Config) : Nat := c.idLen + 3

/-- FRAME_LEN_FIXED. -/
def Config.frameLenFixed (c : Config) : Nat := c.idLen + c.pkdLen + 3

/-- CK_BUF_LEN: the length of the checksum's domain buffer. -/
def Config.ckBufLen (c : Config) : Nat :=
  match c.ckDomain with
  | .packed => c.pkdLen
  | .unpacked => c.unpLen

/-- SPAN_BITS: the bits the schema must cover. -/
def Config.spanBits (c : Config) : Nat := 8 * c.unpLen

/-! ### The constant registers (10_state R34, R35) -/

def PackScheme.bits : PackScheme → Nat
  | .flag7 => 0
  | .nibble => 1

def FlagBitOrder.bits : FlagBitOrder → Nat
  | .lsbFirst => 0
  | .msbFirst => 1

def NibbleOrder.bits : NibbleOrder → Nat
  | .highFirst => 0
  | .lowFirst => 1

def CkAlgo.bits : CkAlgo → Nat
  | .sumNeg7 => 0
  | .sum7 => 1
  | .xor7 => 2

def CkDomain.bits : CkDomain → Nat
  | .packed => 0
  | .unpacked => 1

def ReservedPolicy.bits : ReservedPolicy → Nat
  | .check => 0
  | .ignore => 1

/-- CONFIG, register 9: PACK_SCHEME in bit 0, FLAG_BIT_ORDER 1, NIBBLE_ORDER 2, CK_ALGO 4:3, CK_DOMAIN 5,
RESERVED_POLICY 6 (10_state R34). -/
def Config.configWord (c : Config) : Word :=
  BitVec.ofNat 32
    (c.packScheme.bits + 2 * c.flagBitOrder.bits + 4 * c.nibbleOrder.bits + 8 * c.ckAlgo.bits
      + 32 * c.ckDomain.bits + 64 * c.reservedPolicy.bits)

/-- SCHEMA_COUNT, register 10: bits 15:0 are len(SCHEMA), bits 31:16 read 0 (10_state R35). -/
def Config.schemaCountWord (c : Config) : Word := (BitVec.ofNat 16 c.schema.length).setWidth 32

/-! ### The checks of a configuration, one by one (00_scope R5, R7; 10_state R42) -/

/-- 00_scope R5 P3: MFR_ID has at least one byte (log 8: DEDUCED as a check). -/
def Config.mfrIdOk (c : Config) : Bool := decide (1 ≤ c.mfrId.length)

/-- 00_scope R7 condition 1. -/
def Config.bytesOk (c : Config) : Bool :=
  c.ident.all (fun b => decide (b.toNat ≤ 0x7F))
    && decide (0x80 ≤ c.startByte.toNat) && decide (0x80 ≤ c.endByte.toNat)

/-- 00_scope R7 condition 2. -/
def Config.groupsOk (c : Config) : Bool := decide (1 ≤ c.nGroups)

/-- 00_scope R7 condition 3. -/
def Config.regionOk (c : Config) : Bool := decide (c.ckLo ≤ c.ckHi) && decide (c.ckHi ≤ c.ckBufLen)

/-- 00_scope R7 condition 4. -/
def Config.bufMaxOk (c : Config) : Bool := decide (c.frameLenFixed ≤ c.bufMax)

/-- 10_state R42 condition 1, for one entry. -/
def Entry.sizeOk (e : Entry) : Bool :=
  decide (1 ≤ e.width) && decide (e.width ≤ fieldWidthMax) &&
    match e.kind with
    | .array => decide (1 ≤ e.count)
    | .scalar => decide (e.count = 1)
    | .reserved => decide (e.count = 1)

/-- 10_state R42 condition 2, for one entry: a name is present iff the kind is not RESERVED. -/
def Entry.nameOk (e : Entry) : Bool :=
  match e.kind with
  | .reserved => e.name.isNone
  | .scalar => e.name.isSome
  | .array => e.name.isSome

/-- 10_state R42 condition 3, for one entry. -/
def Entry.consOk (e : Entry) : Bool :=
  match e.kind, e.cons with
  | .reserved, .none => true
  | .reserved, .range _ _ => false
  | .reserved, .enum _ => false
  | _, .none => false
  | _, .range lo hi => decide (lo ≤ hi) && decide (hi ≤ 2 ^ e.width - 1)
  | _, .enum ms => (!ms.isEmpty) && ms.all (fun m => decide (m ≤ 2 ^ e.width - 1))

/-- The names of the schema's entries, in schema order. -/
def schemaNames (es : List Entry) : List Name := es.filterMap (fun e => e.name)

/-- 10_state R42 condition 2: the names are pairwise distinct. -/
def namesDistinct : List Name → Bool
  | [] => true
  | k :: ks => (!ks.contains k) && namesDistinct ks

/-- 10_state R42 condition 4: from bit `at`, the entries tile the stream in order and the last ends at `span`. -/
def tilesFrom (span : Nat) : Nat → List Entry → Bool
  | pos, [] => decide (pos = span)
  | pos, e :: es => decide (e.off = pos) && tilesFrom span (pos + e.width * e.count) es

/-- 10_state R42 condition 5. -/
def schemaLengthOk (es : List Entry) : Bool := decide (1 ≤ es.length) && decide (es.length ≤ 0xFFFE)

/-! ### The reference configuration -/

/-- The seven schema entries of REF (00_scope R9). -/
def refSchema : List Entry :=
  [ ⟨some ⟨'v', ['o', 'l', 'u', 'm', 'e']⟩, .scalar, 0, 7, 1, .range 0 127⟩,
    ⟨some ⟨'e', ['n', 'a', 'b', 'l', 'e']⟩, .scalar, 7, 1, 1, .range 0 1⟩,
    ⟨some ⟨'m', ['o', 'd', 'e']⟩, .scalar, 8, 4, 1, .enum [0, 1, 2, 5]⟩,
    ⟨none, .reserved, 12, 4, 1, .none⟩,
    ⟨some ⟨'l', ['e', 'v', 'e', 'l', 's']⟩, .array, 16, 8, 3, .range 0 200⟩,
    ⟨some ⟨'b', ['a', 'n', 'k']⟩, .scalar, 40, 12, 1, .range 0 2047⟩,
    ⟨none, .reserved, 52, 4, 1, .none⟩ ]

/-- The reference configuration REF (00_scope R9). DESIGN CHOICE (log 1) only in that `State.reset` uses it. -/
def Config.ref : Config where
  startByte := 0xF0#8
  endByte := 0xF7#8
  mfrId := [0x7D#8]
  devId := [0x00#8]
  modelId := [0x01#8]
  packScheme := .flag7
  flagBitOrder := .lsbFirst
  nibbleOrder := .highFirst
  nGroups := 1
  ckAlgo := .sumNeg7
  ckDomain := .packed
  ckLo := 0
  ckHi := 8
  schema := refSchema
  reservedPolicy := .check
  bufMax := 64

end Sys2Proof
end

