-- ==== Sys2Proof/Syntax.lean ====
section
/-! DEFINITION. The eleven commands of SXC (30_encoding R72). -/

namespace Sys2Proof

/-- One constructor per row of spec/opcode_table.json. No command has an immediate or a register field
(30_encoding R74), so no constructor has an argument. -/
inductive Instr
  /-- 0x01 FRAME_PARSE (40_framer R101). -/
  | frameParse
  /-- 0x02 FRAME_BUILD (40_framer R105). -/
  | frameBuild
  /-- 0x03 UNPACK (41_packer R124). -/
  | unpack
  /-- 0x04 PACK (41_packer R125). -/
  | pack
  /-- 0x05 CK_COMPUTE (42_checksum R144). -/
  | ckCompute
  /-- 0x06 CK_VERIFY (42_checksum R145). -/
  | ckVerify
  /-- 0x07 CK_APPEND (42_checksum R146). -/
  | ckAppend
  /-- 0x08 FIELD_DECODE (43_field_mapper R166). -/
  | fieldDecode
  /-- 0x09 FIELD_ENCODE (43_field_mapper R170). -/
  | fieldEncode
  /-- 0x0A DECODE (44_composite R190). -/
  | decode
  /-- 0x0B ENCODE (44_composite R192). -/
  | encode
  deriving DecidableEq, Repr

end Sys2Proof
end

