-- ==== Sys2Proof/WellFormed.lean ====
section
/-! DEFINITION. Well-formedness of the schema (10_state R42), of a configuration (00_scope R7) and of an instruction.
The separate checks stand in Machine/Params.lean. -/

namespace Sys2Proof

/-- 10_state R42: the schema `es` is well formed for a stream of `span` bits. -/
def schemaWellFormed (span : Nat) (es : List Entry) : Bool :=
  es.all Entry.sizeOk && es.all Entry.nameOk && namesDistinct (schemaNames es) && es.all Entry.consOk
    && tilesFrom span 0 es && schemaLengthOk es

/-- 00_scope R7 with the legal values of 00_scope R5: a configuration an SXC may be built with. -/
def Config.wellFormed (c : Config) : Bool :=
  c.mfrIdOk && c.bytesOk && c.groupsOk && c.regionOk && c.bufMaxOk && schemaWellFormed c.spanBits c.schema

/-- A configuration an SXC may be built with, as a proposition. -/
abbrev Config.WF (c : Config) : Prop := c.wellFormed = true

/-- Every command is well formed: it has no operand that could be out of range (30_encoding R74). -/
def Instr.wellFormed : Instr → Bool
  | .frameParse => true
  | .frameBuild => true
  | .unpack => true
  | .pack => true
  | .ckCompute => true
  | .ckVerify => true
  | .ckAppend => true
  | .fieldDecode => true
  | .fieldEncode => true
  | .decode => true
  | .encode => true

end Sys2Proof
end

