-- ==== Sys2Proof/Decode.lean ====
section
/-! DEFINITION. The command word format CMDW (30_encoding R70), the decoder (R71), the opcode map (R72) and the encoder. -/

namespace Sys2Proof

/-- OPCODE = CMD[7:0] (10_state R25, 30_encoding R70). -/
def opcodeField (w : Word) : Byte := w.extractLsb' 0 8

/-- MBZ = CMD[31:8] (10_state R25, 30_encoding R70). -/
def mbzField (w : Word) : BitVec 24 := w.extractLsb' 8 24

/-- The opcode map of 30_encoding R72; opcode 0x00 and opcodes 0x0C..0xFF select nothing (R73). -/
def instrOfOpcode (op : Byte) : Option Instr :=
  match op.toNat with
  | 0x01 => some .frameParse
  | 0x02 => some .frameBuild
  | 0x03 => some .unpack
  | 0x04 => some .pack
  | 0x05 => some .ckCompute
  | 0x06 => some .ckVerify
  | 0x07 => some .ckAppend
  | 0x08 => some .fieldDecode
  | 0x09 => some .fieldEncode
  | 0x0A => some .decode
  | 0x0B => some .encode
  | _ => none

/-- The decoder of 30_encoding R71, total on every 32-bit word; `none` is ILLEGAL. -/
def decode (w : Word) : Option Instr :=
  if mbzField w ≠ 0#24 then none else instrOfOpcode (opcodeField w)

/-- The opcode of a command (30_encoding R72). -/
def opcode : Instr → Byte
  | .frameParse => 0x01#8
  | .frameBuild => 0x02#8
  | .unpack => 0x03#8
  | .pack => 0x04#8
  | .ckCompute => 0x05#8
  | .ckVerify => 0x06#8
  | .ckAppend => 0x07#8
  | .fieldDecode => 0x08#8
  | .fieldEncode => 0x09#8
  | .decode => 0x0A#8
  | .encode => 0x0B#8

/-- The one command word of an instruction: MBZ zero above the opcode (30_encoding R70). -/
def encode (i : Instr) : Word := 0#24 ++ opcode i

/-- The instruction the decoder reads from the table's bits `w`, of which the lowest `nbits` are the row's.
A command word is a register write of 32 bits (20_memory R51), so there is no byte order to lay it out in. -/
def decodeTableWord (nbits w : Nat) : Option Instr :=
  if w % 2 ^ nbits < 2 ^ 32 then decode (BitVec.ofNat 32 (w % 2 ^ nbits)) else none

end Sys2Proof
end

