-- ==== Sys2Proof/Machine/Errors.lean ====
section
/-! DEFINITION. Error kinds, sub-causes and their numbers (60_exceptions R200, R201) and the record a `raise` carries
(00_scope R12). -/

namespace Sys2Proof.Machine

/-- The sub-causes of FORMAT (60_exceptions R201). -/
inductive FormatCause
  | shortFrame
  | badStart
  | badEnd
  | highBit
  | groupLength
  | nibbleRange
  | payloadLength
  | streamLength
  | ckLength
  | bufOverflow
  deriving DecidableEq, Repr

/-- The sub-causes of VALIDATION (60_exceptions R201). -/
inductive ValidationCause
  | range
  | enum
  | reserved
  | shape
  deriving DecidableEq, Repr

/-- The error kinds (60_exceptions R200); the two kinds that have sub-causes carry them. -/
inductive ErrorKind
  | format (cause : FormatCause)
  | deviceMismatch
  | checksum
  | validation (cause : ValidationCause)
  | missingField
  | unknownField
  | illegalCommand
  deriving DecidableEq, Repr

/-- ERR_CODE.CODE of a kind (60_exceptions R200). -/
def ErrorKind.code : ErrorKind → Nat
  | .format _ => 1
  | .deviceMismatch => 2
  | .checksum => 3
  | .validation _ => 4
  | .missingField => 5
  | .unknownField => 6
  | .illegalCommand => 7

/-- SUB of a FORMAT error (60_exceptions R201). -/
def FormatCause.sub : FormatCause → Nat
  | .shortFrame => 1
  | .badStart => 2
  | .badEnd => 3
  | .highBit => 4
  | .groupLength => 5
  | .nibbleRange => 6
  | .payloadLength => 7
  | .streamLength => 8
  | .ckLength => 9
  | .bufOverflow => 10

/-- SUB of a VALIDATION error (60_exceptions R201). -/
def ValidationCause.sub : ValidationCause → Nat
  | .range => 1
  | .enum => 2
  | .reserved => 3
  | .shape => 4

/-- ERR_CODE.SUB of a kind: 0 for every kind but FORMAT and VALIDATION (60_exceptions R201). -/
def ErrorKind.sub : ErrorKind → Nat
  | .format cause => cause.sub
  | .deviceMismatch => 0
  | .checksum => 0
  | .validation cause => cause.sub
  | .missingField => 0
  | .unknownField => 0
  | .illegalCommand => 0

/-- The arguments of `raise`, with the defaults of 00_scope R12. -/
structure ErrorRecord where
  kind     : ErrorKind
  index    : Nat := 0xFFFF
  elem     : Nat := 0
  offset   : Nat := 0
  expected : Nat := 0
  actual   : Nat := 0
  name     : Option Name := none
  deriving DecidableEq, Repr

/-- The outcome of a command's body before anything is written: an error to raise, or a value
(00_scope R13: "never both"). -/
abbrev Result (α : Type) := Except ErrorRecord α

/-- A FORMAT error with its information fields. -/
def formatError (cause : FormatCause) (offset expected actual : Nat) : ErrorRecord :=
  { kind := .format cause, offset := offset, expected := expected, actual := actual }

end Sys2Proof.Machine
end

