-- ==== Sys2Proof/Machine/Flags.lean ====
section
/-! DEFINITION. The flags of STATUS (10_state R26, R44) and the words of ERR_CODE and ERR_INDEX (10_state R27, R28). -/

namespace Sys2Proof.Machine

/-- STATUS.DONE, bit 0 (10_state R26). -/
def statusDone (w : Word) : Bool := w.getLsbD 0

/-- STATUS.ERR, bit 1 (10_state R26). -/
def statusErr (w : Word) : Bool := w.getLsbD 1

/-- STATUS.VERIFY_OK, bit 2 (10_state R26). -/
def statusVerifyOk (w : Word) : Bool := w.getLsbD 2

/-- The STATUS word with the three flags given; bits 31:3 read 0 (10_state R26). -/
def statusWord (done err verifyOk : Bool) : Word :=
  BitVec.ofNat 32 (done.toNat + 2 * err.toNat + 4 * verifyOk.toNat)

/-- STATUS after a `raise`: DONE 0, ERR 1, VERIFY_OK unchanged (60_exceptions R204). -/
def statusRaised (w : Word) : Word := statusWord false true (statusVerifyOk w)

/-- STATUS after a `result`: DONE 1, ERR 0, VERIFY_OK only as the updates say (60_exceptions R205). -/
def statusCompleted (w : Word) (verifyOk : Option Bool) : Word :=
  statusWord true false (verifyOk.getD (statusVerifyOk w))

/-- ERR_CODE as `raise` writes it: `(sub << 8) | code` (60_exceptions R204). -/
def errCodeWord (k : ErrorKind) : Word := BitVec.ofNat 32 ((k.sub <<< 8) ||| k.code)

/-- ERR_INDEX as `raise` writes it: `(elem << 16) | index`, in 32 bits (60_exceptions R204; log 6). -/
def errIndexWord (elem index : Nat) : Word := BitVec.ofNat 32 ((elem <<< 16) ||| index)

end Sys2Proof.Machine
end

