-- ==== Sys2Proof/Machine/State.lean ====
section
/-! DEFINITION. The state of one SXC as plain data (10_state R21), the host's actions (20_memory R55), the reasons a step
can stop, and the state after reset (70_reset R230). -/

namespace Sys2Proof.Machine

/-- A patch value: SCALAR_V(v) or ARRAY_V(vs) (10_state R39). -/
inductive PValue
  | scalar (v : Int)
  | array (vs : List Int)
  deriving DecidableEq, Repr

/-- A finite map from Name to PValue (10_state R39) as a list of pairs; in State it is strictly ascending by
name (`Patch.wf`), so that equal maps are equal lists. -/
abbrev Patch := List (Name × PValue)

/-- The three byte buffers by name (10_state R38). -/
inductive BufName
  | frame
  | pkd
  | unp
  deriving DecidableEq, Repr

/-- The byte storage: the three buffers, each a list whose length is part of its value (10_state R38). SXC has
no address space (20_memory R56; log 9). -/
structure Memory where
  frame : List Byte
  pkd   : List Byte
  unp   : List Byte
  deriving DecidableEq, Repr

/-- A host action (20_memory R55). The elements of a `writeBuf` list are integers because the rule says what
happens when one is outside 0..255. -/
inductive HostAction
  | writeBuf (x : BufName) (l : List Int)
  | readBuf (x : BufName)
  | writePatch (m : Patch)
  | readPatch
  | readErrName
  | regRead (n : Nat)
  | regWrite (n : Nat) (v : Word)
  | reset
  deriving DecidableEq, Repr

/-- What a host action returned to the host (20_memory R55); `nothing` for an action that returns nothing. -/
inductive Answer
  | nothing
  | bytes (l : List Byte)
  | patch (m : Patch)
  | name (k : Option Name)
  | word (w : Word)
  deriving DecidableEq, Repr

/-- The state of one SXC: the registers that hold something, ERR_NAME, the buffers and the patch (10_state R21);
with them the configuration, which no step changes (log 1), the host's actions still to come (log 2) and what the
last one returned (log 4). CMD, CONFIG, SCHEMA_COUNT and registers 11..15 hold nothing of their own
(10_state R25, R34, R35, R36): `readReg` gives what they read as. -/
structure State where
  cfg         : Config
  status      : Word
  errCode     : Word
  errIndex    : Word
  errOffset   : Word
  errExpected : Word
  errActual   : Word
  ckValue     : Word
  ckByte      : Word
  errName     : Option Name
  mem         : Memory
  patch       : Patch
  pending     : List HostAction
  answer      : Answer
  deriving DecidableEq, Repr

/-- SXC has no halt state and no stuck state (70_reset R241): nothing raises a fault, so there is no constructor
(log 17; safe, since no step ends in one). An error of a command is a next state (60_exceptions R204). -/
inductive Fault
  deriving DecidableEq, Repr

/-- The reasons the model has no step. None of them is raised by an instruction. -/
inductive Refusal
  /-- An instruction without a meaning yet, by its mnemonic; raised by `exec` alone. Safe. -/
  | notModelled (mnemonic : String)
  /-- Raised by `step` when the configuration breaks 00_scope R7 ("builds no instance"). Safe. -/
  | illFormedConfig
  /-- Raised by WriteBuf of a list longer than BUF_MAX (20_memory R55). Safe. -/
  | bufferTooLong
  /-- Raised by WriteBuf of a list with an element outside 0..255 (20_memory R55). Safe. -/
  | byteOutOfRange
  /-- Raised by RegRead and RegWrite of a register number of 16 or more (10_state R36, 20_memory R55). Safe. -/
  | noSuchRegister
  deriving DecidableEq, Repr

/-- The state 70_reset R230 gives an SXC of configuration `c`, with no host action waiting. -/
def State.resetWith (c : Config) : State where
  cfg := c
  status := 0x00000000#32
  errCode := 0x00000000#32
  errIndex := 0x0000FFFF#32
  errOffset := 0x00000000#32
  errExpected := 0x00000000#32
  errActual := 0x00000000#32
  ckValue := 0x00000000#32
  ckByte := 0x00000000#32
  errName := none
  mem := ⟨[], [], []⟩
  patch := []
  pending := []
  answer := .nothing

/-- The machine right after reset (70_reset R230), built with REF (00_scope R9). DESIGN CHOICE (log 1): the spec
fixes no configuration. -/
def State.reset : State := State.resetWith Config.ref

end Sys2Proof.Machine
end

