-- ==== Sys2Proof/Machine/Operands.lean ====
section
/-! DEFINITION. How commands read and write their implicit operands: buffers, slices and searches of byte lists
(00_scope R11, R12), groups (41_packer R120), single bits and bit-fields of a byte stream (20_memory R50), and the
patch as a map (10_state R39). -/

namespace Sys2Proof

/-- Lexicographic order of lists of scalar values (10_state R39). -/
def ltChars : List Char → List Char → Bool
  | _, [] => false
  | [], _ :: _ => true
  | a :: as, b :: bs =>
    if a.toNat < b.toNat then true else if b.toNat < a.toNat then false else ltChars as bs

/-- The scalar values of a name. -/
def Name.chars (k : Name) : List Char := k.first :: k.rest

/-- The order of names (10_state R39). -/
def Name.lt (a b : Name) : Bool := ltChars a.chars b.chars

namespace Machine

/-! ### Buffers -/

/-- The number of a buffer where a host protocol needs one (20_memory R56). -/
def BufName.number : BufName → Nat
  | .frame => 0
  | .pkd => 1
  | .unp => 2

/-- BUF.X (00_scope R12). -/
def Memory.buf (m : Memory) : BufName → List Byte
  | .frame => m.frame
  | .pkd => m.pkd
  | .unp => m.unp

/-- `BUF.X <- L`: the buffer is replaced whole (00_scope R12, 10_state R38). -/
def Memory.setBuf (m : Memory) (x : BufName) (l : List Byte) : Memory :=
  match x with
  | .frame => { m with frame := l }
  | .pkd => { m with pkd := l }
  | .unp => { m with unp := l }

/-- `MemRead(X, i, 1)` is `BUF.X[i]` (00_scope R12); `none` at and past the buffer's length. -/
def Memory.memRead (m : Memory) (x : BufName) (i : Nat) : Option Byte := (m.buf x)[i]?

/-- Every buffer has at most BUF_MAX bytes (10_state R38). -/
def Memory.wf (bufMax : Nat) (m : Memory) : Bool :=
  decide (m.frame.length ≤ bufMax) && decide (m.pkd.length ≤ bufMax) && decide (m.unp.length ≤ bufMax)

/-! ### Byte lists (00_scope R11) -/

/-- `B[a..b)`. -/
def slice (l : List Byte) (a b : Nat) : List Byte := (l.take b).drop a

/-- `zeros(n)`. -/
def zeros (n : Nat) : List Byte := List.replicate n 0#8

/-- The first element of `l` that satisfies `p`, with its index, where `l` starts at index `i`
(00_scope R12 "first i such that"). -/
def firstWhere (p : Byte → Bool) : Nat → List Byte → Option (Nat × Byte)
  | _, [] => none
  | i, b :: bs => if p b then some (i, b) else firstWhere p (i + 1) bs

/-- The first position at which `l` differs from `want`, with the wanted and the found byte; both start at
index `i`. Only the positions both lists have are compared. -/
def firstMismatch : Nat → List Byte → List Byte → Option (Nat × Byte × Byte)
  | _, [], _ => none
  | _, _ :: _, [] => none
  | i, w :: ws, b :: bs => if b ≠ w then some (i, w, b) else firstMismatch (i + 1) ws bs

/-- The first `n` groups of `size` bytes: group g is `l[g*size .. (g+1)*size)` (41_packer R120). -/
def groupsOf (size : Nat) : Nat → List Byte → List (List Byte)
  | 0, _ => []
  | n + 1, l => l.take size :: groupsOf size n (l.drop size)

/-- The integers of `l` as bytes, or none if one is outside 0..255 (20_memory R55). -/
def bytesOf : List Int → Option (List Byte)
  | [] => some []
  | v :: vs =>
    if 0 ≤ v ∧ v ≤ 255 then (bytesOf vs).map (fun bs => BitVec.ofNat 8 v.toNat :: bs) else none

/-! ### Bits of a byte stream (20_memory R50) -/

/-- `bitS(S, i)`, bit `i mod 8` of byte `S[i div 8]`; past the end of S it reads 0, which no command
reaches under a well-formed configuration (log 11). -/
def bitS (S : List Byte) (i : Nat) : Bool := (S.getD (i / 8) 0#8).getLsbD (i % 8)

/-- `getBits(S, off, w) = sum for t in 0..w-1 of bitS(S, off + t) << t`. -/
def getBits (S : List Byte) (off : Nat) : Nat → Nat
  | 0 => 0
  | w + 1 => getBits S off w + ((bitS S (off + w)).toNat <<< w)

/-- A byte with its bit `k` set to `b`. -/
def setBit (x : Byte) (k : Nat) (b : Bool) : Byte :=
  if b then x ||| (1#8 <<< k) else x &&& ~~~(1#8 <<< k)

/-- The stream S with `bitS(S, i)` set to `b`. -/
def setBitS (S : List Byte) (i : Nat) (b : Bool) : List Byte :=
  S.modify (i / 8) (fun x => setBit x (i % 8) b)

/-- `putBits(S, off, w, v)` sets `bitS(S, off + t) = (v >> t) & 1` for t in 0..w-1. -/
def putBits (S : List Byte) (off : Nat) : Nat → Nat → List Byte
  | 0, _ => S
  | w + 1, v => setBitS (putBits S off w v) (off + w) (v.testBit w)

/-! ### The patch as a map (10_state R39) -/

/-- The value of a name, or none if the map lacks it. -/
def Patch.find : Patch → Name → Option PValue
  | [], _ => none
  | (k, v) :: m, k' => if k = k' then some v else Patch.find m k'

/-- `m[k] <- v`, keeping the list ascending. -/
def Patch.put : Patch → Name → PValue → Patch
  | [], k, v => [(k, v)]
  | (k', v') :: m, k, v =>
    if k = k' then (k, v) :: m
    else if k.lt k' then (k, v) :: (k', v') :: m
    else (k', v') :: Patch.put m k v

/-- `dom(m)`. -/
def Patch.keys (m : Patch) : List Name := m.map Prod.fst

/-- The canonical form of a map: names strictly ascending. -/
def Patch.wf : Patch → Bool
  | [] => true
  | (k, _) :: m => (m.all fun p => k.lt p.1) && Patch.wf m

/-- The canonical form of the map a list of pairs stands for; where a name occurs twice the later pair counts
(log 7). A list in canonical form is its own. -/
def Patch.normal (m : Patch) : Patch := m.foldl (fun acc p => Patch.put acc p.1 p.2) []

/-- The least name of a list in the order of 10_state R39. -/
def leastName : List Name → Option Name
  | [] => none
  | k :: ks =>
    match leastName ks with
    | none => some k
    | some k' => if k.lt k' then some k else some k'

/-- `entryOf(k)`: the index of the non-RESERVED entry named k, or none (10_state R43). -/
def entryOf (es : List Entry) (k : Name) : Option Nat :=
  es.findIdx? (fun e => decide (e.kind ≠ .reserved) && decide (e.name = some k))

end Machine

end Sys2Proof
end

