-- ==== Sys2Proof/Machine/Ops.lean ====
section
/-! DEFINITION. The shared operations: reading and writing a register (10_state R24), taking an error
(60_exceptions R204), completing a command (60_exceptions R205), and running a command's body. -/

namespace Sys2Proof.Machine

/-! ### Registers -/

/-- CK_BYTE[6:0] (10_state R33). -/
def State.ckByteField (s : State) : Ck := s.ckByte.setWidth 7

/-- `reg[n]` as a RegRead of n in 0..15 returns it (10_state R24): CMD and the reserved registers read 0, CONFIG
and SCHEMA_COUNT reflect cfg. -/
def State.readReg (s : State) (n : Nat) : Word :=
  match n with
  | 1 => s.status
  | 2 => s.errCode
  | 3 => s.errIndex
  | 4 => s.errOffset
  | 5 => s.errExpected
  | 6 => s.errActual
  | 7 => s.ckValue
  | 8 => s.ckByte
  | 9 => s.cfg.configWord
  | 10 => s.cfg.schemaCountWord
  | _ => 0#32

/-- A RegWrite of v to register n in 1..15: CK_BYTE takes `v[6:0]`, every other register ignores it
(10_state R24, R33; 20_memory R55). -/
def State.writeReg (s : State) (n : Nat) (v : Word) : State :=
  match n with
  | 8 => { s with ckByte := (v.setWidth 7).setWidth 32 }
  | _ => s

/-! ### Taking an error -/

/-- Error recording (60_exceptions R204): STATUS, the error registers and ERR_NAME, and nothing else. There is no
handler, no saved program counter and no mode change. -/
def State.raise (s : State) (e : ErrorRecord) : State :=
  { s with
    status := statusRaised s.status
    errCode := errCodeWord e.kind
    errIndex := errIndexWord e.elem e.index
    errOffset := BitVec.ofNat 32 e.offset
    errExpected := BitVec.ofNat 32 e.expected
    errActual := BitVec.ofNat 32 e.actual
    errName := e.name }

/-- IllegalCommand for the command word w (60_exceptions R202). -/
def illegalCommand (w : Word) : ErrorRecord := { kind := .illegalCommand, actual := w.toNat }

/-! ### Completing a command -/

/-- The updates a command's `result` lists (00_scope R12); `none` where the command does not write. -/
structure Updates where
  frame    : Option (List Byte) := none
  pkd      : Option (List Byte) := none
  unp      : Option (List Byte) := none
  ckValue  : Option Ck := none
  ckByte   : Option Ck := none
  verifyOk : Option Bool := none
  patch    : Option Patch := none
  deriving DecidableEq, Repr

/-- Successful completion (60_exceptions R205): every listed update, DONE 1, ERR 0 and the error record cleared,
in one step. -/
def State.complete (s : State) (u : Updates) : State :=
  { s with
    status := statusCompleted s.status u.verifyOk
    errCode := 0x00000000#32
    errIndex := 0x0000FFFF#32
    errOffset := 0x00000000#32
    errExpected := 0x00000000#32
    errActual := 0x00000000#32
    errName := none
    ckValue := (u.ckValue.map (BitVec.setWidth 32)).getD s.ckValue
    ckByte := (u.ckByte.map (BitVec.setWidth 32)).getD s.ckByte
    mem := ⟨u.frame.getD s.mem.frame, u.pkd.getD s.mem.pkd, u.unp.getD s.mem.unp⟩
    patch := u.patch.getD s.patch }

/-- A command ends with `raise` or with `result`, never both (00_scope R13); either is a next state. -/
def State.finish (s : State) (r : Result Updates) : Host.Outcome State Fault Refusal :=
  match r with
  | .error e => .next (s.raise e)
  | .ok u => .next (s.complete u)

end Sys2Proof.Machine
end

