-- ==== Sys2Proof/Machine/Checksum.lean ====
section
/-! DEFINITION. The Checksum Unit: CK_COMPUTE, CK_VERIFY and CK_APPEND (42_checksum). -/

namespace Sys2Proof.Machine

/-- S: the sum of the bytes of the region, with no intermediate wrap (42_checksum R141). -/
def byteSum (R : List Byte) : Nat := (R.map BitVec.toNat).sum

/-- X: the exclusive or of the bytes of the region, 0 for an empty one (42_checksum R141). -/
def byteXor (R : List Byte) : Byte := R.foldl (fun x b => x ^^^ b) 0#8

/-- The formulas of 42_checksum R141; each value is in 0..0x7F (R142). -/
def formula (a : CkAlgo) (R : List Byte) : Ck :=
  match a with
  | .sumNeg7 => BitVec.ofNat 7 ((128 - byteSum R % 128) % 128)
  | .sum7 => BitVec.ofNat 7 (byteSum R % 128)
  | .xor7 => (byteXor R &&& 0x7F#8).setWidth 7

/-- B: the buffer CK_DOMAIN names, of the packed data part D and the stream U (42_checksum R140). -/
def domainBuf (c : Config) (D U : List Byte) : List Byte :=
  match c.ckDomain with
  | .packed => D
  | .unpacked => U

/-- `ck(D, U)` (42_checksum R143). -/
def ck (c : Config) (D U : List Byte) : Result Ck :=
  let B := domainBuf c D U
  if B.length ≠ c.ckBufLen then .error (formatError .ckLength B.length c.ckBufLen B.length)
  else .ok (formula c.ckAlgo (slice B c.ckLo c.ckHi))

/-- CK_COMPUTE (42_checksum R144). -/
def execCkCompute (s : State) : Host.Outcome State Fault Refusal :=
  s.finish ((ck s.cfg s.mem.pkd s.mem.unp).map (fun v => { ckValue := some v }))

/-- CK_VERIFY (42_checksum R145): a mismatch is a false result and no error. -/
def execCkVerify (s : State) : Host.Outcome State Fault Refusal :=
  s.finish ((ck s.cfg s.mem.pkd s.mem.unp).map
    (fun v => { ckValue := some v, verifyOk := some (decide (v = s.ckByteField)) }))

/-- CK_APPEND (42_checksum R146). -/
def execCkAppend (s : State) : Host.Outcome State Fault Refusal :=
  s.finish ((ck s.cfg s.mem.pkd s.mem.unp).map (fun v => { ckValue := some v, ckByte := some v }))

end Sys2Proof.Machine
end

