-- ==== Sys2Proof/Machine/Framer.lean ====
section
/-! DEFINITION. The Byte Framer: FRAME_PARSE and FRAME_BUILD (40_framer). -/

namespace Sys2Proof.Machine

/-- A byte that must be 7-bit and is not (40_framer R102). -/
def isHigh (b : Byte) : Bool := decide (0x80 ≤ b.toNat)

/-- `parse(F)`: the packed data part and the checksum byte of the frame F, the checks in the order of
40_framer R101. -/
def frameParse (c : Config) (F : List Byte) : Result (List Byte × Ck) :=
  let n := F.length
  if n < c.minFrameLen then .error (formatError .shortFrame n c.minFrameLen n)
  else if F.getD 0 0#8 ≠ c.startByte then
    .error (formatError .badStart 0 c.startByte.toNat (F.getD 0 0#8).toNat)
  else if F.getD (n - 1) 0#8 ≠ c.endByte then
    .error (formatError .badEnd (n - 1) c.endByte.toNat (F.getD (n - 1) 0#8).toNat)
  else
    match firstWhere isHigh 1 (slice F 1 (n - 1)) with
    | some (i, b) => .error (formatError .highBit i 0x7F b.toNat)
    | none =>
      match firstMismatch 1 c.ident (slice F 1 (n - 1)) with
      | some (i, want, b) =>
        .error { kind := .deviceMismatch, offset := i, expected := want.toNat, actual := b.toNat }
      | none => .ok (slice F (1 + c.idLen) (n - 2), (F.getD (n - 2) 0#8).setWidth 7)

/-- `build(D, C)` (40_framer R105); data bytes are copied unchanged (R106). -/
def frameBuild (c : Config) (D : List Byte) (C : Ck) : Result (List Byte) :=
  if D.length ≠ c.pkdLen then .error (formatError .payloadLength D.length c.pkdLen D.length)
  else .ok ([c.startByte] ++ c.ident ++ D ++ [C.setWidth 8] ++ [c.endByte])

/-- FRAME_PARSE (40_framer R101). -/
def execFrameParse (s : State) : Host.Outcome State Fault Refusal :=
  s.finish ((frameParse s.cfg s.mem.frame).map (fun dc => { pkd := some dc.1, ckByte := some dc.2 }))

/-- FRAME_BUILD (40_framer R105). -/
def execFrameBuild (s : State) : Host.Outcome State Fault Refusal :=
  s.finish ((frameBuild s.cfg s.mem.pkd s.ckByteField).map (fun F => { frame := some F }))

end Sys2Proof.Machine
end

