-- ==== Sys2Proof/Machine/Mapper.lean ====
section
/-! DEFINITION. The Field Mapper: FIELD_DECODE and FIELD_ENCODE (43_field_mapper). -/

namespace Sys2Proof.Machine

/-! ### Shared (43_field_mapper R160, R161) -/

/-- `elemOff(e, k)` (43_field_mapper R160). -/
def elemOff (e : Entry) (k : Nat) : Nat := e.off + k * e.width

/-- `elemVal(S, e, k)` (43_field_mapper R160). -/
def elemVal (S : List Byte) (e : Entry) (k : Nat) : Nat := getBits S (elemOff e k) e.width

/-- `v mod 2^32`, as ERR_ACTUAL records a patch value (10_state R31). -/
def modWord (v : Int) : Nat := (v % 2 ^ 32).toNat

/-- A constraint admits a value (10_state R41). -/
def Constraint.admits (cons : Constraint) (v : Int) : Bool :=
  match cons with
  | .range lo hi => decide ((lo : Int) ≤ v) && decide (v ≤ (hi : Int))
  | .enum ms => ms.any (fun m => decide ((m : Int) = v))
  | .none => true

/-- The error of a value the entry's constraint does not admit (43_field_mapper R161). -/
def valueError (j : Nat) (e : Entry) (k : Nat) (v : Int) : ErrorRecord :=
  match e.cons with
  | .range lo hi =>
    { kind := .validation .range, index := j, elem := k, offset := elemOff e k,
      expected := if v > (hi : Int) then hi else lo, actual := modWord v, name := e.name }
  | .enum _ =>
    { kind := .validation .enum, index := j, elem := k, offset := elemOff e k,
      expected := 0, actual := modWord v, name := e.name }
  | .none =>
    { kind := .validation .enum, index := j, elem := k, offset := elemOff e k,
      expected := 0, actual := modWord v, name := e.name }

/-- `checkValue(j, k, v)` for e = SCHEMA[j] (43_field_mapper R161). -/
def checkValue (j : Nat) (e : Entry) (k : Nat) (v : Int) : Result Unit :=
  if Constraint.admits e.cons v then .ok () else .error (valueError j e k v)

/-! ### Decode (43_field_mapper R162 to R166) -/

/-- The values of elements k .. k+n-1 of an ARRAY entry, each checked before the next is read. -/
def decodeElems (S : List Byte) (j : Nat) (e : Entry) : Nat → Nat → Result (List Int)
  | _, 0 => .ok []
  | k, n + 1 =>
    match checkValue j e k (elemVal S e k) with
    | .error err => .error err
    | .ok _ => (decodeElems S j e (k + 1) n).map (fun vs => (elemVal S e k : Int) :: vs)

/-- `m[e.name] <- pv`; an entry without a name, which R42 gives only to RESERVED ones, writes nothing. -/
def putNamed (m : Patch) (k : Option Name) (pv : PValue) : Patch :=
  match k with
  | some k => m.put k pv
  | none => m

/-- The error of a non-zero reserved region (43_field_mapper R163). -/
def reservedError (S : List Byte) (j : Nat) (e : Entry) : ErrorRecord :=
  { kind := .validation .reserved, index := j, offset := e.off, expected := 0, actual := elemVal S e 0 }

/-- One round of FIELD_DECODE's loop, for e = SCHEMA[j] (43_field_mapper R166). -/
def decodeEntry (c : Config) (S : List Byte) (j : Nat) (e : Entry) (m : Patch) : Result Patch :=
  match e.kind with
  | .reserved =>
    if c.reservedPolicy = .check ∧ elemVal S e 0 ≠ 0 then .error (reservedError S j e) else .ok m
  | .scalar => (checkValue j e 0 (elemVal S e 0)).map (fun _ => putNamed m e.name (.scalar (elemVal S e 0)))
  | .array => (decodeElems S j e 0 e.count).map (fun vs => putNamed m e.name (.array vs))

/-- FIELD_DECODE's loop from entry j on, in schema order (43_field_mapper R162). -/
def decodeEntries (c : Config) (S : List Byte) : Nat → List Entry → Patch → Result Patch
  | _, [], m => .ok m
  | j, e :: es, m =>
    match decodeEntry c S j e m with
    | .error err => .error err
    | .ok m' => decodeEntries c S (j + 1) es m'

/-- `fdecode(S)` (43_field_mapper R166). -/
def fieldDecode (c : Config) (S : List Byte) : Result Patch :=
  if S.length ≠ c.unpLen then .error (formatError .streamLength S.length c.unpLen S.length)
  else decodeEntries c S 0 c.schema []

/-! ### Encode (43_field_mapper R167 to R170) -/

/-- The value of an entry's name in the patch. -/
def findNamed (m : Patch) (k : Option Name) : Option PValue :=
  match k with
  | some k => m.find k
  | none => none

/-- The error of a value whose shape does not fit its entry (43_field_mapper R168). -/
def shapeError (j : Nat) (e : Entry) (pv : PValue) : ErrorRecord :=
  { kind := .validation .shape, index := j, offset := e.off,
    expected := match e.kind with
      | .scalar => 0
      | .array => e.count
      | .reserved => e.count
    actual := match pv with
      | .scalar _ => 0
      | .array vs => vs.length
    name := e.name }

/-- The error of a parameter the patch lacks (43_field_mapper R170). -/
def missingError (j : Nat) (e : Entry) : ErrorRecord :=
  { kind := .missingField, index := j, offset := e.off, name := e.name }

/-- The value checks of an array's elements, from element k on (43_field_mapper R167). -/
def checkElems (j : Nat) (e : Entry) : Nat → List Int → Result Unit
  | _, [] => .ok ()
  | k, v :: vs =>
    match checkValue j e k v with
    | .error err => .error err
    | .ok _ => checkElems j e (k + 1) vs

/-- Pass 1 for e = SCHEMA[j]: presence, shape, values (43_field_mapper R167, R168). -/
def checkEntry (m : Patch) (j : Nat) (e : Entry) : Result Unit :=
  match e.kind with
  | .reserved => .ok ()
  | .scalar =>
    match findNamed m e.name with
    | none => .error (missingError j e)
    | some (.scalar v) => checkValue j e 0 v
    | some (.array vs) => .error (shapeError j e (.array vs))
  | .array =>
    match findNamed m e.name with
    | none => .error (missingError j e)
    | some (.scalar v) => .error (shapeError j e (.scalar v))
    | some (.array vs) =>
      if vs.length ≠ e.count then .error (shapeError j e (.array vs)) else checkElems j e 0 vs

/-- Pass 1 from entry j on, in schema order (43_field_mapper R167). -/
def checkEntries (m : Patch) : Nat → List Entry → Result Unit
  | _, [] => .ok ()
  | j, e :: es =>
    match checkEntry m j e with
    | .error err => .error err
    | .ok _ => checkEntries m (j + 1) es

/-- `unk`, the keys no non-RESERVED entry names (43_field_mapper R169). -/
def unknownKeys (c : Config) (m : Patch) : List Name :=
  m.keys.filter (fun k => (entryOf c.schema k).isNone)

/-- The writes of an array's elements, from element k on (43_field_mapper R170). -/
def writeElems (e : Entry) : List Byte → Nat → List Int → List Byte
  | S, _, [] => S
  | S, k, v :: vs => writeElems e (putBits S (elemOff e k) e.width v.toNat) (k + 1) vs

/-- The write of one entry (43_field_mapper R170). A checked value is in 0..2^width-1, so `toNat` loses nothing. -/
def writeEntry (m : Patch) (S : List Byte) (e : Entry) : List Byte :=
  match e.kind with
  | .reserved => S
  | .scalar =>
    match findNamed m e.name with
    | some (.scalar v) => putBits S e.off e.width v.toNat
    | some (.array _) => S
    | none => S
  | .array =>
    match findNamed m e.name with
    | some (.array vs) => writeElems e S 0 vs
    | some (.scalar _) => S
    | none => S

/-- The stream FIELD_ENCODE writes: every entry into `zeros(UNP_LEN)` (43_field_mapper R170). -/
def writeEntries (c : Config) (m : Patch) : List Byte :=
  c.schema.foldl (writeEntry m) (zeros c.unpLen)

/-- `fencode(m)` (43_field_mapper R170): pass 1, pass 2, then the writes. -/
def fieldEncode (c : Config) (m : Patch) : Result (List Byte) :=
  match checkEntries m 0 c.schema with
  | .error err => .error err
  | .ok _ =>
    match leastName (unknownKeys c m) with
    | some k => .error { kind := .unknownField, name := some k }
    | none => .ok (writeEntries c m)

/-- FIELD_DECODE (43_field_mapper R166). -/
def execFieldDecode (s : State) : Host.Outcome State Fault Refusal :=
  s.finish ((fieldDecode s.cfg s.mem.unp).map (fun m => { patch := some m }))

/-- FIELD_ENCODE (43_field_mapper R170). -/
def execFieldEncode (s : State) : Host.Outcome State Fault Refusal :=
  s.finish ((fieldEncode s.cfg s.patch).map (fun S => { unp := some S }))

end Sys2Proof.Machine
end

