-- ==== Sys2Proof/Machine/Packer.lean ====
section
/-! DEFINITION. The Bit Packer/Unpacker: UNPACK and PACK (41_packer). -/

namespace Sys2Proof.Machine

/-- `pos(k)`: the flag bit of logical byte k of a FLAG7 group (41_packer R121). -/
def flagPos (o : FlagBitOrder) (k : Nat) : Nat :=
  match o with
  | .lsbFirst => k
  | .msbFirst => 6 - k

/-- The logical bytes of the FLAG7 data bytes `bs` under flag byte f, from number k on:
`u_k = b_k | (f[pos(k)] << 7)` (41_packer R121). -/
def unflag (o : FlagBitOrder) (f : Byte) : Nat → List Byte → List Byte
  | _, [] => []
  | k, b :: bs => (b ||| (((f >>> flagPos o k) &&& 1#8) <<< 7)) :: unflag o f (k + 1) bs

/-- The flag byte of the logical bytes from number k on: bit pos(k) is bit 7 of u_k (41_packer R121). -/
def flagByte (o : FlagBitOrder) : Nat → List Byte → Byte
  | _, [] => 0#8
  | k, u :: us => (((u >>> 7) &&& 1#8) <<< flagPos o k) ||| flagByte o (k + 1) us

/-- The logical bytes of one packed group (41_packer R121, R122). A list that is no group gives no byte. -/
def unpackGroup (c : Config) (g : List Byte) : List Byte :=
  match c.packScheme with
  | .flag7 =>
    match g with
    | f :: bs => unflag c.flagBitOrder f 0 bs
    | [] => []
  | .nibble =>
    match g with
    | [a, b] =>
      match c.nibbleOrder with
      | .highFirst => [(a <<< 4) ||| b]
      | .lowFirst => [(b <<< 4) ||| a]
    | _ => []

/-- The packed bytes of one group of logical bytes (41_packer R121, R122). -/
def packGroup (c : Config) (us : List Byte) : List Byte :=
  match c.packScheme with
  | .flag7 => flagByte c.flagBitOrder 0 us :: us.map (fun u => u &&& 0x7F#8)
  | .nibble =>
    match us with
    | [u] =>
      match c.nibbleOrder with
      | .highFirst => [u >>> 4, u &&& 0x0F#8]
      | .lowFirst => [u &&& 0x0F#8, u >>> 4]
    | _ => []

/-- The unpacked stream of packed data of whole groups (41_packer R120, R124). -/
def unpackStream (c : Config) (D : List Byte) : List Byte :=
  (groupsOf c.gp (D.length / c.gp) D).flatMap (unpackGroup c)

/-- The packed data of a stream of whole groups (41_packer R120, R125). -/
def packStream (c : Config) (U : List Byte) : List Byte :=
  (groupsOf c.gl (U.length / c.gl) U).flatMap (packGroup c)

/-- A byte no packed data of the scheme may hold (41_packer R123). -/
def isBadPacked (c : Config) (b : Byte) : Bool :=
  match c.packScheme with
  | .flag7 => isHigh b
  | .nibble => decide (0x0F < b.toNat)

/-- The error a bad packed byte is reported with, at index i (41_packer R124). -/
def badPackedError (c : Config) (i : Nat) (b : Byte) : ErrorRecord :=
  match c.packScheme with
  | .flag7 => formatError .highBit i 0x7F b.toNat
  | .nibble => formatError .nibbleRange i 0x0F b.toNat

/-- `unpack(D)` (41_packer R124). -/
def unpack (c : Config) (D : List Byte) : Result (List Byte) :=
  if D.length % c.gp ≠ 0 then .error (formatError .groupLength D.length c.gp D.length)
  else
    match firstWhere (isBadPacked c) 0 D with
    | some (i, b) => .error (badPackedError c i b)
    | none => .ok (unpackStream c D)

/-- `pack(U)` (41_packer R125). -/
def pack (c : Config) (U : List Byte) : Result (List Byte) :=
  if U.length % c.gl ≠ 0 then .error (formatError .streamLength U.length c.gl U.length)
  else if c.bufMax < U.length / c.gl * c.gp then
    .error (formatError .bufOverflow U.length c.bufMax (U.length / c.gl * c.gp))
  else .ok (packStream c U)

/-- UNPACK (41_packer R124). -/
def execUnpack (s : State) : Host.Outcome State Fault Refusal :=
  s.finish ((unpack s.cfg s.mem.pkd).map (fun U => { unp := some U }))

/-- PACK (41_packer R125). -/
def execPack (s : State) : Host.Outcome State Fault Refusal :=
  s.finish ((pack s.cfg s.mem.unp).map (fun D => { pkd := some D }))

end Sys2Proof.Machine
end

