-- ==== Sys2Proof/Machine/Composite.lean ====
section
/-! DEFINITION. The whole-pipeline commands DECODE and ENCODE (44_composite): the unit bodies run on local values. -/

namespace Sys2Proof.Machine

/-- The body of DECODE on the frame F (44_composite R190). -/
def decodeFrame (c : Config) (F : List Byte) : Result Updates :=
  match frameParse c F with
  | .error err => .error err
  | .ok (D, C) =>
    match unpack c D with
    | .error err => .error err
    | .ok U =>
      match ck c D U with
      | .error err => .error err
      | .ok v =>
        if v ≠ C then
          .error { kind := .checksum, offset := F.length - 2, expected := v.toNat, actual := C.toNat }
        else
          match fieldDecode c U with
          | .error err => .error err
          | .ok m =>
            .ok { pkd := some D, ckByte := some C, unp := some U, ckValue := some v,
                  verifyOk := some true, patch := some m }

/-- The body of ENCODE on the patch m (44_composite R192). -/
def encodePatch (c : Config) (m : Patch) : Result Updates :=
  match fieldEncode c m with
  | .error err => .error err
  | .ok U =>
    match pack c U with
    | .error err => .error err
    | .ok D =>
      match ck c D U with
      | .error err => .error err
      | .ok v =>
        match frameBuild c D v with
        | .error err => .error err
        | .ok F =>
          .ok { unp := some U, pkd := some D, ckValue := some v, ckByte := some v, frame := some F }

/-- DECODE (44_composite R190). -/
def execDecode (s : State) : Host.Outcome State Fault Refusal := s.finish (decodeFrame s.cfg s.mem.frame)

/-- ENCODE (44_composite R192). -/
def execEncode (s : State) : Host.Outcome State Fault Refusal := s.finish (encodePatch s.cfg s.patch)

end Sys2Proof.Machine
end

