-- ==== Sys2Proof/Machine/Dispatch.lean ====
section
/-! DEFINITION. One arm per command. -/

namespace Sys2Proof.Machine

def exec (i : Instr) (s : State) : Host.Outcome State Fault Refusal :=
  match i with
  | .frameParse => Sys2Proof.Machine.execFrameParse s
  | .frameBuild => Sys2Proof.Machine.execFrameBuild s
  | .unpack => Sys2Proof.Machine.execUnpack s
  | .pack => Sys2Proof.Machine.execPack s
  | .ckCompute => Sys2Proof.Machine.execCkCompute s
  | .ckVerify => Sys2Proof.Machine.execCkVerify s
  | .ckAppend => Sys2Proof.Machine.execCkAppend s
  | .fieldDecode => Sys2Proof.Machine.execFieldDecode s
  | .fieldEncode => Sys2Proof.Machine.execFieldEncode s
  | .decode => Sys2Proof.Machine.execDecode s
  | .encode => Sys2Proof.Machine.execEncode s

end Sys2Proof.Machine
end

