-- ==== Sys2Proof/Machine/HostPort.lean ====
section
/-! DEFINITION. The host's actions on SXC (20_memory R55), the command a CMD write runs (30_encoding R70, R71) and the
Reset action (70_reset R230). -/

namespace Sys2Proof.Machine

/-- A host write of the command word w to CMD: the command it decodes to, run to completion, or IllegalCommand
(10_state R25, 30_encoding R71, 60_exceptions R202). -/
def runCommand (w : Word) (s : State) : Host.Outcome State Fault Refusal :=
  match decode w with
  | some i => exec i s
  | none => .next (s.raise (illegalCommand w))

/-- `RegWrite(n, v)` (20_memory R55). -/
def regWrite (n : Nat) (v : Word) (s : State) : Host.Outcome State Fault Refusal :=
  if 16 ≤ n then .refused .noSuchRegister
  else if n = 0 then runCommand v s
  else .next (s.writeReg n v)

/-- `WriteBuf(X, L)` (20_memory R55). -/
def writeBuf (x : BufName) (l : List Int) (s : State) : Host.Outcome State Fault Refusal :=
  if s.cfg.bufMax < l.length then .refused .bufferTooLong
  else
    match bytesOf l with
    | none => .refused .byteOutOfRange
    | some bs => .next { s with mem := s.mem.setBuf x bs }

/-- `RegRead(n)` (20_memory R55). -/
def regRead (n : Nat) (s : State) : Host.Outcome State Fault Refusal :=
  if 16 ≤ n then .refused .noSuchRegister else .next { s with answer := .word (s.readReg n) }

/-- `Reset`: the state of 70_reset R230, with the configuration unchanged. The host's own actions still to come are
no state of SXC and stay (log 14). -/
def resetAction (s : State) : State := { State.resetWith s.cfg with pending := s.pending }

/-- One host action (20_memory R55), on a state whose `answer` is cleared and whose `pending` no longer holds it. -/
def hostAct (a : HostAction) (s : State) : Host.Outcome State Fault Refusal :=
  match a with
  | .writeBuf x l => writeBuf x l s
  | .readBuf x => .next { s with answer := .bytes (s.mem.buf x) }
  | .writePatch m => .next { s with patch := Patch.normal m }
  | .readPatch => .next { s with answer := .patch s.patch }
  | .readErrName => .next { s with answer := .name s.errName }
  | .regRead n => regRead n s
  | .regWrite n v => regWrite n v s
  | .reset => .next (resetAction s)

/-- `CMD m` of the program syntax: `WRREG 0, w` with m's word w (30_encoding R76, R77). -/
def cmdAction (i : Instr) : HostAction := .regWrite 0 (encode i)

/-- One step: the next host action of the run (10_state R20, 70_reset R241). A configuration that breaks
00_scope R7 has no step; with no action left SXC holds its state unchanged (60_exceptions R217; log 3). -/
def stepBody (s : State) : Host.Outcome State Fault Refusal :=
  if s.cfg.wellFormed then
    match s.pending with
    | [] => .next s
    | a :: rest => hostAct a { s with pending := rest, answer := .nothing }
  else .refused .illFormedConfig

/-- The state in which the host's next action is the CMD write of the word whose lowest `nbits` bits are w's. -/
def withCommandWord (s : State) (nbits w : Nat) : State :=
  { s with pending := .regWrite 0 (BitVec.ofNat 32 (w % 2 ^ nbits)) :: s.pending }

end Sys2Proof.Machine
end

