-- ==== Sys2Proof/Machine/Step.lean ====
section
/-! DEFINITION. The step: one host action (10_state R20). -/

namespace Sys2Proof.Machine

/-- One step of SXC: one host action, a command run to completion inside it (10_state R20, 20_memory R54). -/
def step (s : State) : Host.Outcome State Fault Refusal := stepBody s

/-- SXC fetches nothing (10_state R22): a command comes as the host's write to CMD. So the place `step` takes its
next command word from is the head of `pending`. -/
def State.withFetchWord (s : State) (nbits w : Nat) : State := withCommandWord s nbits w

end Sys2Proof.Machine
end

