-- ==== Sys2Proof/Machine/Group.lean ====
section
/-! DEFINITION. Several SXC at once: the product of independent single ones (20_memory R63, 60_exceptions R214). -/

namespace Sys2Proof.Machine

/-- One step of the i-th SXC of a group: the others keep their states (20_memory R63). A number no member has, and a
member's own stop, give none. -/
def stepMember (i : Nat) (g : List State) : Option (List State) :=
  match g[i]? with
  | none => none
  | some s =>
    match step s with
    | .next t => some (g.set i t)
    | .fault _ => none
    | .refused _ => none

end Sys2Proof.Machine
end

