-- ==== Sys2Proof/Safety.lean ====
section
/-! DEFINITION. The terms in which claims about SXC are stated: the flags, the states a `raise` and a `result` leave, the
invariant of every state the machine reaches, well-formed packed data, streams and patches, and runs. -/

namespace Sys2Proof.Machine

/-! ### The flags and the error record -/

/-- STATUS.DONE = 1 (10_state R26). -/
def State.done (s : State) : Bool := s.status.getLsbD 0

/-- STATUS.ERR = 1 (10_state R26). -/
def State.err (s : State) : Bool := s.status.getLsbD 1

/-- STATUS.VERIFY_OK = 1 (10_state R26). -/
def State.verifyOk (s : State) : Bool := s.status.getLsbD 2

/-- ERR_CODE.CODE (10_state R27). -/
def State.code (s : State) : Nat := s.errCode.toNat % 16

/-- ERR_CODE.SUB (10_state R27). -/
def State.sub (s : State) : Nat := s.errCode.toNat / 256 % 256

/-- The two states hold the same error record (10_state R27 to R31, R37). -/
def SameErrorRecord (s t : State) : Prop :=
  s.errCode = t.errCode ∧ s.errIndex = t.errIndex ∧ s.errOffset = t.errOffset ∧
    s.errExpected = t.errExpected ∧ s.errActual = t.errActual ∧ s.errName = t.errName

/-- The two states hold the same results: buffers, patch, CK_BYTE, CK_VALUE and VERIFY_OK (60_exceptions R204). -/
def SameResults (s t : State) : Prop :=
  s.mem = t.mem ∧ s.patch = t.patch ∧ s.ckByte = t.ckByte ∧ s.ckValue = t.ckValue ∧ s.verifyOk = t.verifyOk

/-- The error record of success and of reset (60_exceptions R205, 70_reset R230). -/
def State.NoErrorRecord (s : State) : Prop :=
  s.errCode = 0x00000000#32 ∧ s.errIndex = 0x0000FFFF#32 ∧ s.errOffset = 0x00000000#32 ∧
    s.errExpected = 0x00000000#32 ∧ s.errActual = 0x00000000#32 ∧ s.errName = none

/-- `s` with the success record of 60_exceptions R205: DONE 1, ERR 0, VERIFY_OK as given. -/
def State.succeeded (s : State) (verifyOk : Bool) : State :=
  { s with
    status := if verifyOk then 0x00000005#32 else 0x00000001#32
    errCode := 0x00000000#32
    errIndex := 0x0000FFFF#32
    errOffset := 0x00000000#32
    errExpected := 0x00000000#32
    errActual := 0x00000000#32
    errName := none }

/-- `s` with the error record of 60_exceptions R204: DONE 0, ERR 1, VERIFY_OK unchanged, the fields given. -/
def State.recorded (s : State) (code sub index elem offset expected actual : Nat) (name : Option Name) : State :=
  { s with
    status := if s.verifyOk then 0x00000006#32 else 0x00000002#32
    errCode := BitVec.ofNat 32 (sub * 256 + code)
    errIndex := BitVec.ofNat 32 (elem * 65536 + index)
    errOffset := BitVec.ofNat 32 offset
    errExpected := BitVec.ofNat 32 expected
    errActual := BitVec.ofNat 32 actual
    errName := name }

/-- A FORMAT error, which concerns no entry (60_exceptions R203). -/
def State.formatRecorded (s : State) (sub offset expected actual : Nat) : State :=
  s.recorded 1 sub 0xFFFF 0 offset expected actual none

/-- 10_state R24: what a RegRead of each of the sixteen registers returns. -/
def registerValues (s : State) : List Word :=
  [0x00000000#32, s.status, s.errCode, s.errIndex, s.errOffset, s.errExpected, s.errActual, s.ckValue,
    s.ckByte, s.cfg.configWord, s.cfg.schemaCountWord, 0x00000000#32, 0x00000000#32, 0x00000000#32,
    0x00000000#32, 0x00000000#32]

/-- The values of 70_reset R230, for the configuration of `s`. -/
def State.HasResetValues (s : State) : Prop :=
  registerValues s =
      [0x00000000#32, 0x00000000#32, 0x00000000#32, 0x0000FFFF#32, 0x00000000#32, 0x00000000#32, 0x00000000#32,
        0x00000000#32, 0x00000000#32, s.cfg.configWord, s.cfg.schemaCountWord, 0x00000000#32, 0x00000000#32,
        0x00000000#32, 0x00000000#32, 0x00000000#32] ∧
    s.errName = none ∧ (∀ x, s.mem.buf x = []) ∧ s.patch = []

/-- Every RESERVED region of the stream is 0 (43_field_mapper R163). -/
def ReservedZero (c : Config) (S : List Byte) : Prop := ∀ e ∈ c.schema, e.kind = .reserved → elemVal S e 0 = 0

/-! ### The invariant -/

/-- The bits a register's rule does not list read 0 (10_state R24, R26, R27, R32, R33). -/
def State.ReservedBitsZero (s : State) : Prop :=
  (∀ i, 3 ≤ i → s.status.getLsbD i = false) ∧
    (∀ i, (4 ≤ i ∧ i < 8) ∨ 16 ≤ i → s.errCode.getLsbD i = false) ∧
    (∀ i, 7 ≤ i → s.ckValue.getLsbD i = false) ∧ (∀ i, 7 ≤ i → s.ckByte.getLsbD i = false)

/-- DONE and ERR are never both 1; ERR = 1 exactly if CODE is not 0 (10_state R26); without an error the record is
the one of success (60_exceptions R205, 70_reset R230). -/
def State.FlagsAgree (s : State) : Prop :=
  ¬(s.done = true ∧ s.err = true) ∧ (s.err = true ↔ s.code ≠ 0) ∧ (s.err = false → s.NoErrorRecord)

/-- What holds in every state SXC reaches: no buffer is longer than BUF_MAX (10_state R38), the patch is in its
canonical form, the unlisted register bits read 0 and the flags agree with the error record. -/
def State.Inv (s : State) : Prop :=
  s.mem.wf s.cfg.bufMax = true ∧ Patch.wf s.patch = true ∧ s.ReservedBitsZero ∧ s.FlagsAgree

/-! ### Well-formed operands -/

/-- Well-formed packed data (41_packer R123). -/
def PackedOk (c : Config) (D : List Byte) : Prop :=
  D.length % c.gp = 0 ∧
    match c.packScheme with
    | .flag7 => ∀ b ∈ D, b.toNat ≤ 0x7F
    | .nibble => ∀ b ∈ D, b.toNat ≤ 0x0F

/-- `pos(k)` (41_packer R121). -/
def bitPos (c : Config) (k : Nat) : Nat := if c.flagBitOrder = .lsbFirst then k else 6 - k

/-- The frame of the data part D and the checksum byte C (40_framer R100). -/
def frameOf (c : Config) (D : List Byte) (C : Byte) : List Byte :=
  [c.startByte] ++ c.ident ++ D ++ [C] ++ [c.endByte]

/-- B: what CK_DOMAIN names, of the packed data part D and the stream U (42_checksum R140). -/
def domainOf (c : Config) (D U : List Byte) : List Byte :=
  match c.ckDomain with
  | .packed => D
  | .unpacked => U

/-- B of the buffers of `s` (42_checksum R140). -/
def State.domain (s : State) : List Byte := domainOf s.cfg s.mem.pkd s.mem.unp

/-- S: the sum of the bytes of `B[CK_LO .. CK_HI)` (42_checksum R140, R141). -/
def regionSum (c : Config) (B : List Byte) : Nat :=
  (((B.drop c.ckLo).take (c.ckHi - c.ckLo)).map BitVec.toNat).sum

/-- X: the exclusive or of the bytes of `B[CK_LO .. CK_HI)` (42_checksum R140, R141). -/
def regionXor (c : Config) (B : List Byte) : Byte :=
  ((B.drop c.ckLo).take (c.ckHi - c.ckLo)).foldr (fun b x => b ^^^ x) 0#8

/-- The checksum of the buffer B (42_checksum R141). -/
def checksumOf (c : Config) (B : List Byte) : Nat :=
  match c.ckAlgo with
  | .sumNeg7 => ((0 - (regionSum c B : Int)) % 128).toNat
  | .sum7 => regionSum c B % 128
  | .xor7 => (regionXor c B).toNat % 128

/-- The value v satisfies the constraint (10_state R41). -/
def Constraint.Holds (cons : Constraint) (v : Int) : Prop :=
  match cons with
  | .range lo hi => (lo : Int) ≤ v ∧ v ≤ (hi : Int)
  | .enum ms => ∃ m ∈ ms, (m : Int) = v
  | .none => True

/-- FIELD_DECODE's checks of one entry pass on the stream S (43_field_mapper R161, R163, R166). -/
def EntryDecodes (c : Config) (S : List Byte) (e : Entry) : Prop :=
  match e.kind with
  | .reserved => c.reservedPolicy = .check → elemVal S e 0 = 0
  | .scalar => Constraint.Holds e.cons (elemVal S e 0)
  | .array => ∀ k, k < e.count → Constraint.Holds e.cons (elemVal S e k)

/-- Every check of FIELD_DECODE passes on the stream S (43_field_mapper R166). -/
def StreamOk (c : Config) (S : List Byte) : Prop :=
  S.length = c.unpLen ∧ ∀ e ∈ c.schema, EntryDecodes c S e

/-- The value of a non-RESERVED entry in the stream S (43_field_mapper R164). -/
def entryValue (S : List Byte) (e : Entry) : PValue :=
  match e.kind with
  | .array => .array ((List.range e.count).map (fun k => (elemVal S e k : Int)))
  | .scalar => .scalar (elemVal S e 0)
  | .reserved => .scalar (elemVal S e 0)

/-- The decoded patch: one key per non-RESERVED entry, its name, and nothing else (43_field_mapper R164). A
well-formed schema gives exactly its non-RESERVED entries a name (10_state R42). -/
def decodedPatch (c : Config) (S : List Byte) : Patch :=
  Patch.normal (c.schema.filterMap (fun e => e.name.map (fun k => (k, entryValue S e))))

/-- A value has the shape of its entry (43_field_mapper R168). -/
def ShapeFits (e : Entry) (pv : PValue) : Prop :=
  match e.kind, pv with
  | .scalar, .scalar _ => True
  | .array, .array vs => vs.length = e.count
  | .scalar, .array _ => False
  | .array, .scalar _ => False
  | .reserved, _ => False

/-- The integers of a value, element 0 first. -/
def PValue.ints : PValue → List Int
  | .scalar v => [v]
  | .array vs => vs

/-- Pass 1 of FIELD_ENCODE finds nothing for this entry (43_field_mapper R167). -/
def EntryEncodes (m : Patch) (e : Entry) : Prop :=
  e.kind ≠ .reserved →
    ∃ k pv, e.name = some k ∧ Patch.find m k = some pv ∧ ShapeFits e pv ∧
      ∀ v ∈ pv.ints, Constraint.Holds e.cons v

/-- A key names a non-RESERVED entry (10_state R43). -/
def KeyKnown (c : Config) (k : Name) : Prop := ∃ e ∈ c.schema, e.kind ≠ .reserved ∧ e.name = some k

/-- Both passes of FIELD_ENCODE find nothing (43_field_mapper R167). -/
def PatchOk (c : Config) (m : Patch) : Prop :=
  (∀ e ∈ c.schema, EntryEncodes m e) ∧ ∀ k ∈ Patch.keys m, KeyKnown c k

/-- The stream S holds the patch m: every entry's elements are the patch's values and every RESERVED region is 0
(43_field_mapper R170). -/
def StreamHolds (c : Config) (m : Patch) (S : List Byte) : Prop :=
  S.length = c.unpLen ∧
    ∀ e ∈ c.schema,
      match e.kind with
      | .reserved => elemVal S e 0 = 0
      | .scalar => ∀ k v, e.name = some k → Patch.find m k = some (.scalar v) → (elemVal S e 0 : Int) = v
      | .array =>
        ∀ k vs, e.name = some k → Patch.find m k = some (.array vs) →
          ∀ i v, vs[i]? = some v → (elemVal S e i : Int) = v

/-! ### Runs -/

/-- A run: the host's actions applied one a step, from the state s (70_reset R241); none if one is refused. -/
def runActions (s : State) (as : List HostAction) : Option State :=
  match Host.Core.run Sys2Proof.core as.length ({ s with pending := as } : State) with
  | .next t => some t
  | .fault _ => none
  | .refused _ => none

/-- A run is safe: none of its actions is refused. -/
def SafeRun (s : State) (as : List HostAction) : Prop := (runActions s as).isSome = true

end Sys2Proof.Machine
end

