-- ==== Sys2Proof/Certificates/Slice0/Obligations.lean ====
section
/-! DEFINITION. The statements about SXC that the provers settle. A host action is the head of `pending` (log 2); a number
that an error rule records stands in its 32-bit register modulo 2^32 (log 6), which matters only past 2^32. -/

open Sys2Proof Sys2Proof.Machine

/-! ### Encoding -/

/-- 30_encoding R72: each legal word selects its command, written out from the opcode map; and a few words that R73
makes illegal select none. -/
def Obligations.CommandWordsSelectCommands : Prop :=
  decode 0x00000001#32 = some .frameParse ∧ decode 0x00000002#32 = some .frameBuild ∧
  decode 0x00000003#32 = some .unpack ∧ decode 0x00000004#32 = some .pack ∧
  decode 0x00000005#32 = some .ckCompute ∧ decode 0x00000006#32 = some .ckVerify ∧
  decode 0x00000007#32 = some .ckAppend ∧ decode 0x00000008#32 = some .fieldDecode ∧
  decode 0x00000009#32 = some .fieldEncode ∧ decode 0x0000000A#32 = some .decode ∧
  decode 0x0000000B#32 = some .encode ∧
  decode 0x00000000#32 = none ∧ decode 0x0000000C#32 = none ∧ decode 0x000000FF#32 = none ∧
  decode 0x00000101#32 = none ∧ decode 0x80000001#32 = none

/-- 30_encoding R72: the decoder and the encoder agree on every command and on every 32-bit word, with the whole word as
the match value: a word decodes to a command exactly if it is that command's word; and the words are those of the opcode
map. -/
def Obligations.DecodeInvertsEncode : Prop :=
  (∀ (i : Instr) (w : Word), decode w = some i ↔ w = encode i) ∧
  encode .frameParse = 0x00000001#32 ∧ encode .frameBuild = 0x00000002#32 ∧ encode .unpack = 0x00000003#32 ∧
  encode .pack = 0x00000004#32 ∧ encode .ckCompute = 0x00000005#32 ∧ encode .ckVerify = 0x00000006#32 ∧
  encode .ckAppend = 0x00000007#32 ∧ encode .fieldDecode = 0x00000008#32 ∧ encode .fieldEncode = 0x00000009#32 ∧
  encode .decode = 0x0000000A#32 ∧ encode .encode = 0x0000000B#32

/-- 30_encoding R73, 60_exceptions R202: a word with a non-zero MBZ field, or opcode 0x00 or 0x0C..0xFF, selects no
command; written to CMD it records IllegalCommand with ERR_ACTUAL = w and changes no other state of SXC. No other
word is illegal. -/
def Obligations.IllegalWordsRaiseIllegalCommand : Prop :=
  ∀ w : Word,
    (decode w = none ↔ w.toNat / 256 ≠ 0 ∨ w.toNat % 256 = 0 ∨ 0x0C ≤ w.toNat % 256) ∧
    ∀ (s : State) (rest : List HostAction),
      s.cfg.WF → s.pending = .regWrite 0 w :: rest →
      (w.toNat / 256 ≠ 0 ∨ w.toNat % 256 = 0 ∨ 0x0C ≤ w.toNat % 256) →
      step s = .next (({ s with pending := rest, answer := .nothing } : State).recorded 7 0 0xFFFF 0 0 0 w.toNat none)

/-! ### Steps and host actions -/

/-- A step whose host action is a CMD write of a word that decodes to i runs i, on the state from whose run the action
is taken and whose answer is cleared (the model's own fields, logs 2 and 4); and `withFetchWord` places just such an
action. -/
def Obligations.StepRunsDecodedCommand : Prop :=
  (∀ (s : State) (rest : List HostAction) (w : Word) (i : Instr),
    s.cfg.WF → s.pending = .regWrite 0 w :: rest → decode w = some i →
    step s = exec i { s with pending := rest, answer := .nothing }) ∧
  ∀ (s : State) (i : Instr), s.cfg.WF →
    step (s.withFetchWord 32 (encode i).toNat) = exec i { s with answer := .nothing }

/-- 20_memory R54, R55: ReadBuf, ReadPatch, ReadErrName and RegRead of 0..15 return what they name and change nothing
else of SXC; CMD and the reserved registers read 0. -/
def Obligations.ReadsAnswerAndChangeNothing : Prop :=
  ∀ (s : State) (rest : List HostAction), s.cfg.WF →
    (∀ x, s.pending = .readBuf x :: rest →
      step s = .next { s with pending := rest, answer := .bytes (s.mem.buf x) }) ∧
    (s.pending = .readPatch :: rest → step s = .next { s with pending := rest, answer := .patch s.patch }) ∧
    (s.pending = .readErrName :: rest → step s = .next { s with pending := rest, answer := .name s.errName }) ∧
    (∀ n w, s.pending = .regRead n :: rest → (registerValues s)[n]? = some w →
      step s = .next { s with pending := rest, answer := .word w })

/-- 20_memory R55: WriteBuf of at most BUF_MAX bytes replaces the buffer whole, WritePatch of a map in canonical form
replaces the patch, RegWrite 8 sets CK_BYTE to `v[6:0]`, RegWrite of any other register but CMD is ignored; nothing
else of SXC changes. -/
def Obligations.WritesReplaceWhatTheyName : Prop :=
  ∀ (s : State) (rest : List HostAction), s.cfg.WF →
    (∀ (x : BufName) (bs : List Byte), s.pending = .writeBuf x (bs.map (fun b => (b.toNat : Int))) :: rest →
      bs.length ≤ s.cfg.bufMax →
      ∃ t, step s = .next t ∧ t = { s with pending := rest, answer := .nothing, mem := t.mem } ∧
        (∀ i, t.mem.memRead x i = bs[i]?) ∧ ∀ y, y ≠ x → ∀ i, t.mem.memRead y i = s.mem.memRead y i) ∧
    (∀ m, s.pending = .writePatch m :: rest → Patch.wf m = true →
      step s = .next { s with pending := rest, answer := .nothing, patch := m }) ∧
    (∀ v : Word, s.pending = .regWrite 8 v :: rest →
      step s = .next { s with pending := rest, answer := .nothing, ckByte := BitVec.ofNat 32 (v.toNat % 128) }) ∧
    (∀ (n : Nat) (v : Word), s.pending = .regWrite n v :: rest → n < 16 → n ≠ 0 → n ≠ 8 →
      step s = .next { s with pending := rest, answer := .nothing })

/-- 10_state R36: registers 11..15 read 0 and ignore writes; a RegRead or RegWrite of 16 or more has no step. -/
def Obligations.ReservedRegisterNumbers : Prop :=
  ∀ (s : State) (rest : List HostAction) (n : Nat) (v : Word), s.cfg.WF →
    (11 ≤ n → n < 16 → s.pending = .regRead n :: rest →
      step s = .next { s with pending := rest, answer := .word 0x00000000#32 }) ∧
    (11 ≤ n → n < 16 → s.pending = .regWrite n v :: rest →
      step s = .next { s with pending := rest, answer := .nothing }) ∧
    (16 ≤ n → s.pending = .regRead n :: rest ∨ s.pending = .regWrite n v :: rest →
      step s = .refused .noSuchRegister)

/-- 20_memory R55: a WriteBuf longer than BUF_MAX, or with an element outside 0..255, has no step. Which of two reasons
is named when both hold is the model's. -/
def Obligations.OverlongOrNonByteWritesRefused : Prop :=
  ∀ (s : State) (rest : List HostAction) (x : BufName) (l : List Int),
    s.cfg.WF → s.pending = .writeBuf x l :: rest →
    (s.cfg.bufMax < l.length → step s = .refused .bufferTooLong) ∧
    (l.length ≤ s.cfg.bufMax → (∃ v ∈ l, v < 0 ∨ 255 < v) → step s = .refused .byteOutOfRange)

/-- 70_reset R230: the Reset action gives the reset state in one step, whatever the state before, with the configuration
unchanged; and so does power-on. The actions still to come are the host's and no state of SXC. -/
def Obligations.ResetGivesResetState : Prop :=
  (∀ (s : State) (rest : List HostAction), s.cfg.WF → s.pending = .reset :: rest →
    ∃ t, step s = .next t ∧ t.HasResetValues ∧ t.cfg = s.cfg ∧ t.pending = rest) ∧
  ∀ c : Config, (State.resetWith c).HasResetValues ∧ (State.resetWith c).cfg = c

/-- 10_state R34, R35: each bit of CONFIG reflects its configuration field, the bits above are 0, SCHEMA_COUNT reads
len(SCHEMA), a host write of either is ignored, and under REF they read 0 and 7. -/
def Obligations.ConstantRegistersReflectConfiguration : Prop :=
  (∀ c : Config, c.WF →
    (c.configWord.getLsbD 0 = true ↔ c.packScheme = .nibble) ∧
    (c.configWord.getLsbD 1 = true ↔ c.flagBitOrder = .msbFirst) ∧
    (c.configWord.getLsbD 2 = true ↔ c.nibbleOrder = .lowFirst) ∧
    (c.configWord.getLsbD 3 = true ↔ c.ckAlgo = .sum7) ∧
    (c.configWord.getLsbD 4 = true ↔ c.ckAlgo = .xor7) ∧
    (c.configWord.getLsbD 5 = true ↔ c.ckDomain = .unpacked) ∧
    (c.configWord.getLsbD 6 = true ↔ c.reservedPolicy = .ignore) ∧
    (∀ i, 7 ≤ i → c.configWord.getLsbD i = false) ∧
    c.schemaCountWord.toNat = c.schema.length) ∧
  (∀ (s : State) (rest : List HostAction) (n : Nat) (v : Word), s.cfg.WF → n = 9 ∨ n = 10 →
    (s.pending = .regRead n :: rest →
      step s = .next { s with
        pending := rest, answer := .word (if n = 9 then s.cfg.configWord else s.cfg.schemaCountWord) }) ∧
    (s.pending = .regWrite n v :: rest → step s = .next { s with pending := rest, answer := .nothing })) ∧
  Config.ref.configWord = 0x00000000#32 ∧ Config.ref.schemaCountWord = 0x00000007#32

/-- 10_state R42: the check of the schema says exactly the rule's five conditions. -/
def Obligations.SchemaCheckSaysItsRule : Prop :=
  ∀ (span : Nat) (es : List Entry),
    schemaWellFormed span es = true ↔
      (∀ e ∈ es, 1 ≤ e.width ∧ e.width ≤ 32 ∧ (e.kind = .array → 1 ≤ e.count) ∧ (e.kind ≠ .array → e.count = 1)) ∧
      (∀ e ∈ es, e.name.isSome = true ↔ e.kind ≠ .reserved) ∧
      (∀ (i j : Nat) (e e' : Entry) (k : Name), i ≠ j → es[i]? = some e → es[j]? = some e' → e.name = some k → e'.name ≠ some k) ∧
      (∀ e ∈ es, (e.cons = .none ↔ e.kind = .reserved) ∧
        (∀ lo hi, e.cons = .range lo hi → lo ≤ hi ∧ hi ≤ 2 ^ e.width - 1) ∧
        (∀ ms, e.cons = .enum ms → ms ≠ [] ∧ ∀ m ∈ ms, m ≤ 2 ^ e.width - 1)) ∧
      (∀ e, es[0]? = some e → e.off = 0) ∧
      (∀ j e e', es[j]? = some e → es[j + 1]? = some e' → e'.off = e.off + e.width * e.count) ∧
      (∀ e, es.getLast? = some e → e.off + e.width * e.count = span) ∧
      1 ≤ es.length ∧ es.length ≤ 0xFFFE

/-- 00_scope R7 with the length of MFR_ID from 00_scope R5 (log 8): what the configuration check says; and a
configuration it rejects has no step at all. -/
def Obligations.IllFormedConfigurationRefused : Prop :=
  (∀ c : Config, c.WF ↔
    1 ≤ c.mfrId.length ∧ (∀ b ∈ c.mfrId ++ c.devId ++ c.modelId, b.toNat ≤ 0x7F) ∧
    0x80 ≤ c.startByte.toNat ∧ 0x80 ≤ c.endByte.toNat ∧ 1 ≤ c.nGroups ∧
    c.ckLo ≤ c.ckHi ∧ c.ckHi ≤ c.ckBufLen ∧ c.frameLenFixed ≤ c.bufMax ∧
    schemaWellFormed (8 * c.unpLen) c.schema = true) ∧
  ∀ s : State, ¬ s.cfg.WF → step s = .refused .illFormedConfig

/-- With no action of the host left, a step leaves the whole state unchanged (60_exceptions R217; that a step without
an action is a next state is the model's choice, log 3). -/
def Obligations.IdleStepHoldsState : Prop :=
  ∀ s : State, s.cfg.WF → s.pending = [] → step s = .next s

/-! ### The whole machine -/

/-- The invariant holds right after reset, of every configuration. -/
def Obligations.ResetStateHasInvariant : Prop :=
  State.reset.Inv ∧ ∀ c : Config, (State.resetWith c).Inv

/-- Every step keeps the invariant, from every state that has it: no buffer outgrows BUF_MAX (10_state R38), the patch
stays a canonical map, the unlisted register bits read 0 (10_state R24), DONE and ERR are never both 1 and ERR
agrees with CODE (10_state R26), and without an error the record is clear. -/
def Obligations.StepKeepsInvariant : Prop :=
  ∀ s t : State, s.Inv → step s = .next t → t.Inv

/-- 70_reset R232: nothing at run time changes the configuration; and a step takes at most the first action of the
run. -/
def Obligations.StepKeepsConfiguration : Prop :=
  ∀ s t : State, step s = .next t → t.cfg = s.cfg ∧ t.pending = s.pending.tail

/-- 70_reset R241: a run is refused only if one of its actions is; otherwise it ends, whatever errors its commands
record. -/
def Obligations.RunEndsUnlessAnActionIsRefused : Prop :=
  ∀ (s : State) (as : List HostAction), s.cfg.WF →
    (∀ a ∈ as,
      (∀ x l, a = .writeBuf x l → l.length ≤ s.cfg.bufMax ∧ ∀ v ∈ l, 0 ≤ v ∧ v ≤ 255) ∧
      (∀ n, a = .regRead n → n < 16) ∧ (∀ n v, a = .regWrite n v → n < 16)) →
    SafeRun s as

/-- 60_exceptions R204: what a command that ends in `raise` writes, and that it writes nothing else. The premises say that
the numbers fit their fields (10_state R28 to R31); of longer ones it says nothing (log 6). -/
def Obligations.ErrorRecordingWritesItsRecord : Prop :=
  ∀ (s : State) (e : ErrorRecord),
    e.index ≤ 0xFFFF → e.elem ≤ 0xFFFF → e.offset < 2 ^ 32 → e.expected < 2 ^ 32 → e.actual < 2 ^ 32 →
    s.finish (.error e) = .next (s.raise e) ∧
    (s.raise e).done = false ∧ (s.raise e).err = true ∧ (s.raise e).verifyOk = s.verifyOk ∧
    (s.raise e).errCode.toNat = e.kind.sub * 2 ^ 8 + e.kind.code ∧
    (s.raise e).errIndex.toNat = e.elem * 2 ^ 16 + e.index ∧
    (s.raise e).errOffset.toNat = e.offset ∧ (s.raise e).errExpected.toNat = e.expected ∧
    (s.raise e).errActual.toNat = e.actual ∧ (s.raise e).errName = e.name ∧
    (∀ x a, (s.raise e).mem.memRead x a = s.mem.memRead x a) ∧ (s.raise e).patch = s.patch ∧
    (s.raise e).ckByte = s.ckByte ∧ (s.raise e).ckValue = s.ckValue ∧ (s.raise e).cfg = s.cfg ∧
    (s.raise e).pending = s.pending ∧ (s.raise e).answer = s.answer

/-- 60_exceptions R205: a command that ends in `result` writes every listed update, the success record, and nothing else;
one that ends in `raise` writes none of its outputs. -/
def Obligations.CompletionWritesItsRecord : Prop :=
  (∀ (s : State) (e : ErrorRecord) (t : State), s.finish (.error e) = .next t → SameResults s t) ∧
  ∀ (s : State) (u : Updates),
    s.finish (.ok u) = .next (s.complete u) ∧ (s.complete u).done = true ∧ (s.complete u).err = false ∧
    (s.complete u).verifyOk = u.verifyOk.getD s.verifyOk ∧ (s.complete u).NoErrorRecord ∧
    (∀ a, (s.complete u).mem.memRead .frame a = (u.frame.getD s.mem.frame)[a]?) ∧
    (∀ a, (s.complete u).mem.memRead .pkd a = (u.pkd.getD s.mem.pkd)[a]?) ∧
    (∀ a, (s.complete u).mem.memRead .unp a = (u.unp.getD s.mem.unp)[a]?) ∧
    (s.complete u).patch = u.patch.getD s.patch ∧
    (∀ v, u.ckValue = some v → (s.complete u).ckValue.toNat = v.toNat) ∧
    (u.ckValue = none → (s.complete u).ckValue = s.ckValue) ∧
    (∀ v, u.ckByte = some v → (s.complete u).ckByte.toNat = v.toNat) ∧
    (u.ckByte = none → (s.complete u).ckByte = s.ckByte) ∧
    (s.complete u).cfg = s.cfg ∧ (s.complete u).pending = s.pending ∧ (s.complete u).answer = s.answer

/-- 60_exceptions R204, R205: every command ends, and either records one error and changes nothing else, or completes
with the success record; a command never does both and never changes the host's side. -/
def Obligations.CommandRaisesOrCompletes : Prop :=
  ∀ (i : Instr) (s : State), s.cfg.WF →
    (∃ code sub index elem offset expected actual name,
      1 ≤ code ∧ code ≤ 6 ∧ sub ≤ 10 ∧ index ≤ 0xFFFF ∧
      exec i s = .next (s.recorded code sub index elem offset expected actual name)) ∨
    (∃ v mem patch ckValue ckByte,
      exec i s = .next { (s.succeeded v) with mem := mem, patch := patch, ckValue := ckValue, ckByte := ckByte })

/-- 60_exceptions R200: each command raises only the kinds of its rows, and CODE 8..15 never appears. -/
def Obligations.ErrorKindsOfEachCommand : Prop :=
  ∀ (i : Instr) (s t : State), s.cfg.WF → exec i s = .next t → t.err = true →
    match i with
    | .frameParse => t.code = 1 ∨ t.code = 2
    | .frameBuild => t.code = 1
    | .unpack => t.code = 1
    | .pack => t.code = 1
    | .ckCompute => t.code = 1
    | .ckVerify => t.code = 1
    | .ckAppend => t.code = 1
    | .fieldDecode => t.code = 1 ∨ t.code = 4
    | .fieldEncode => t.code = 4 ∨ t.code = 5 ∨ t.code = 6
    | .decode => t.code = 1 ∨ t.code = 2 ∨ t.code = 3 ∨ t.code = 4
    | .encode => t.code = 4 ∨ t.code = 5 ∨ t.code = 6

/-- 70_reset R235, 10_state R44: only CK_VERIFY, DECODE and Reset change VERIFY_OK. -/
def Obligations.OnlyVerifyAndDecodeChangeVerifyOk : Prop :=
  ∀ s t : State, step s = .next t → t.verifyOk ≠ s.verifyOk →
    ∃ rest, s.pending = .reset :: rest ∨
      ∃ w, s.pending = .regWrite 0 w :: rest ∧ (decode w = some .ckVerify ∨ decode w = some .decode)

/-- 60_exceptions R208: only a CMD write and Reset change STATUS or the error record; every other action of the host
leaves them. -/
def Obligations.OnlyCommandsAndResetChangeStatus : Prop :=
  ∀ s t : State, step s = .next t → ¬(t.status = s.status ∧ SameErrorRecord s t) →
    ∃ rest, s.pending = .reset :: rest ∨ ∃ w, s.pending = .regWrite 0 w :: rest

/-- 10_state R44, 60_exceptions R203: no command reads DONE, ERR, the error record or the host's side. Two states that
agree on the rest give the same results, the same STATUS and the same error record. -/
def Obligations.CommandsIgnoreEarlierErrors : Prop :=
  ∀ (i : Instr) (s s' t t' : State),
    s.cfg = s'.cfg → s.mem = s'.mem → s.patch = s'.patch → s.ckByte = s'.ckByte → s.ckValue = s'.ckValue →
    s.verifyOk = s'.verifyOk → exec i s = .next t → exec i s' = .next t' →
    t.mem = t'.mem ∧ t.patch = t'.patch ∧ t.ckByte = t'.ckByte ∧ t.ckValue = t'.ckValue ∧
      t.status = t'.status ∧ SameErrorRecord t t'

/-- 60_exceptions R207: the same command after an error, with nothing changed by the host, gives the same error. -/
def Obligations.RetryAfterErrorGivesSameError : Prop :=
  ∀ (i : Instr) (s t : State), exec i s = .next t → t.err = true → exec i t = .next t

/-- 20_memory R63: a step of one SXC of a group is its own step, the others keep their states, and none writes its
configuration. -/
def Obligations.GroupMembersAreIndependent : Prop :=
  ∀ (i : Nat) (g g' : List State), stepMember i g = some g' →
    g'.length = g.length ∧ (∀ j, j ≠ i → g'[j]? = g[j]?) ∧
      ∃ s t, g[i]? = some s ∧ step s = .next t ∧ g'[i]? = some t ∧ t.cfg = s.cfg

/-- 70_reset R233: every command is defined from the reset state, and raises there the error its rule gives for empty
input; UNPACK and PACK of the empty buffer complete. MissingField names the first entry that is not RESERVED (43_field_mapper
R170; log 18). -/
def Obligations.CommandsRunFromReset : Prop :=
  ∀ (c : Config) (s : State), c.WF → s = State.resetWith c →
    exec .frameParse s = .next (s.formatRecorded 1 0 c.minFrameLen 0) ∧
    exec .frameBuild s = .next (s.formatRecorded 7 0 c.pkdLen 0) ∧
    exec .unpack s = .next (s.succeeded false) ∧ exec .pack s = .next (s.succeeded false) ∧
    exec .ckCompute s = .next (s.formatRecorded 9 0 c.ckBufLen 0) ∧
    exec .ckVerify s = .next (s.formatRecorded 9 0 c.ckBufLen 0) ∧
    exec .ckAppend s = .next (s.formatRecorded 9 0 c.ckBufLen 0) ∧
    exec .fieldDecode s = .next (s.formatRecorded 8 0 c.unpLen 0) ∧
    exec .decode s = .next (s.formatRecorded 1 0 c.minFrameLen 0) ∧
    ∀ j e k, c.schema[j]? = some e → e.kind ≠ .reserved → e.name = some k →
      (∀ i e', i < j → c.schema[i]? = some e' → e'.kind = .reserved) →
      exec .fieldEncode s = .next (s.recorded 5 0 j 0 e.off 0 0 (some k)) ∧
      exec .encode s = .next (s.recorded 5 0 j 0 e.off 0 0 (some k))

/-! ### Frames (30_encoding R74) -/

/-- FRAME_PARSE, FRAME_BUILD, UNPACK and PACK leave every byte of the buffers they do not write, the patch, CK_VALUE,
VERIFY_OK and the configuration unchanged; only FRAME_PARSE may change CK_BYTE. -/
def Obligations.FramerAndPackerFrame : Prop :=
  ∀ (i : Instr) (s t : State), i = .frameParse ∨ i = .frameBuild ∨ i = .unpack ∨ i = .pack →
    exec i s = .next t →
    t.cfg = s.cfg ∧ t.pending = s.pending ∧ t.answer = s.answer ∧
    t.patch = s.patch ∧ t.ckValue = s.ckValue ∧ t.verifyOk = s.verifyOk ∧
    (i ≠ .frameParse → t.ckByte = s.ckByte) ∧
    (i ≠ .frameBuild → ∀ a, t.mem.memRead .frame a = s.mem.memRead .frame a) ∧
    (i ≠ .frameParse → i ≠ .pack → ∀ a, t.mem.memRead .pkd a = s.mem.memRead .pkd a) ∧
    (i ≠ .unpack → ∀ a, t.mem.memRead .unp a = s.mem.memRead .unp a)

/-- CK_COMPUTE, CK_VERIFY and CK_APPEND leave every byte of every buffer, the patch and the configuration unchanged;
only CK_APPEND may change CK_BYTE and only CK_VERIFY VERIFY_OK. -/
def Obligations.ChecksumFrame : Prop :=
  ∀ (i : Instr) (s t : State), i = .ckCompute ∨ i = .ckVerify ∨ i = .ckAppend →
    exec i s = .next t →
    t.cfg = s.cfg ∧ t.pending = s.pending ∧ t.answer = s.answer ∧ t.patch = s.patch ∧
    (∀ x a, t.mem.memRead x a = s.mem.memRead x a) ∧
    (i ≠ .ckAppend → t.ckByte = s.ckByte) ∧ (i ≠ .ckVerify → t.verifyOk = s.verifyOk)

/-- FIELD_DECODE and FIELD_ENCODE leave FRAME, PKD, CK_VALUE, CK_BYTE, VERIFY_OK and the configuration unchanged;
FIELD_DECODE leaves every byte of UNP, FIELD_ENCODE the patch. -/
def Obligations.MapperFrame : Prop :=
  ∀ (i : Instr) (s t : State), i = .fieldDecode ∨ i = .fieldEncode →
    exec i s = .next t →
    t.cfg = s.cfg ∧ t.pending = s.pending ∧ t.answer = s.answer ∧
    t.ckValue = s.ckValue ∧ t.ckByte = s.ckByte ∧ t.verifyOk = s.verifyOk ∧
    (∀ a, t.mem.memRead .frame a = s.mem.memRead .frame a) ∧
    (∀ a, t.mem.memRead .pkd a = s.mem.memRead .pkd a) ∧
    (i = .fieldDecode → ∀ a, t.mem.memRead .unp a = s.mem.memRead .unp a) ∧
    (i = .fieldEncode → t.patch = s.patch)

/-- DECODE leaves every byte of FRAME, ENCODE the patch and VERIFY_OK, both the configuration. -/
def Obligations.WholePipelineFrame : Prop :=
  ∀ (i : Instr) (s t : State), i = .decode ∨ i = .encode →
    exec i s = .next t →
    t.cfg = s.cfg ∧ t.pending = s.pending ∧ t.answer = s.answer ∧
    (i = .decode → ∀ a, t.mem.memRead .frame a = s.mem.memRead .frame a) ∧
    (i = .encode → t.patch = s.patch ∧ t.verifyOk = s.verifyOk)

/-! ### Byte Framer -/

/-- 40_framer R101: FRAME_PARSE's five errors in the order written, each with its information, and its success on
every frame of the layout of R100. -/
def Obligations.FrameParseFollowsItsRule : Prop :=
  ∀ s : State, s.cfg.WF →
    (s.mem.frame.length < s.cfg.minFrameLen →
      exec .frameParse s =
        .next (s.formatRecorded 1 s.mem.frame.length s.cfg.minFrameLen s.mem.frame.length)) ∧
    (∀ b, s.cfg.minFrameLen ≤ s.mem.frame.length → s.mem.frame[0]? = some b → b ≠ s.cfg.startByte →
      exec .frameParse s = .next (s.formatRecorded 2 0 s.cfg.startByte.toNat b.toNat)) ∧
    (∀ b, s.cfg.minFrameLen ≤ s.mem.frame.length → s.mem.frame[0]? = some s.cfg.startByte →
      s.mem.frame[s.mem.frame.length - 1]? = some b → b ≠ s.cfg.endByte →
      exec .frameParse s =
        .next (s.formatRecorded 3 (s.mem.frame.length - 1) s.cfg.endByte.toNat b.toNat)) ∧
    (∀ i b, s.cfg.minFrameLen ≤ s.mem.frame.length → s.mem.frame[0]? = some s.cfg.startByte →
      s.mem.frame[s.mem.frame.length - 1]? = some s.cfg.endByte →
      1 ≤ i → i ≤ s.mem.frame.length - 2 → s.mem.frame[i]? = some b → 0x80 ≤ b.toNat →
      (∀ j b', 1 ≤ j → j < i → s.mem.frame[j]? = some b' → b'.toNat ≤ 0x7F) →
      exec .frameParse s = .next (s.formatRecorded 4 i 0x7F b.toNat)) ∧
    (∀ i b w, s.cfg.minFrameLen ≤ s.mem.frame.length → s.mem.frame[0]? = some s.cfg.startByte →
      s.mem.frame[s.mem.frame.length - 1]? = some s.cfg.endByte →
      (∀ j b', 1 ≤ j → j ≤ s.mem.frame.length - 2 → s.mem.frame[j]? = some b' → b'.toNat ≤ 0x7F) →
      s.cfg.ident[i]? = some w → s.mem.frame[1 + i]? = some b → b ≠ w →
      (∀ j, j < i → s.mem.frame[1 + j]? = s.cfg.ident[j]?) →
      exec .frameParse s = .next (s.recorded 2 0 0xFFFF 0 (1 + i) w.toNat b.toNat none)) ∧
    (∀ D C, s.mem.frame = frameOf s.cfg D C → (∀ b ∈ D, b.toNat ≤ 0x7F) → C.toNat ≤ 0x7F →
      exec .frameParse s =
        .next { (s.succeeded s.verifyOk) with
          mem := { s.mem with pkd := D }, ckByte := BitVec.ofNat 32 C.toNat })

/-- 40_framer R100, R102, R103, R104: a frame FRAME_PARSE accepts has the layout, the device's identifiers and only
7-bit bytes between the markers; its data part may have any length. -/
def Obligations.AcceptedFramesHaveTheLayout : Prop :=
  ∀ s t : State, exec .frameParse s = .next t → t.done = true →
    ∃ C : Byte, s.mem.frame = frameOf s.cfg t.mem.pkd C ∧ t.ckByte.toNat = C.toNat ∧ C.toNat ≤ 0x7F ∧
      ∀ b ∈ s.cfg.ident ++ t.mem.pkd, b.toNat ≤ 0x7F

/-- 40_framer R105, R106: FRAME_BUILD raises PAYLOAD_LENGTH unless PKD has PKD_LEN bytes, and otherwise writes the
frame with the data bytes copied and CK_BYTE as the checksum byte, whatever it holds; the frame has FRAME_LEN_FIXED bytes,
which fits a buffer. -/
def Obligations.FrameBuildFollowsItsRule : Prop :=
  ∀ s : State,
    (s.mem.pkd.length ≠ s.cfg.pkdLen →
      exec .frameBuild s =
        .next (s.formatRecorded 7 s.mem.pkd.length s.cfg.pkdLen s.mem.pkd.length)) ∧
    (s.mem.pkd.length = s.cfg.pkdLen →
      exec .frameBuild s =
        .next { (s.succeeded s.verifyOk) with
          mem := { s.mem with frame := frameOf s.cfg s.mem.pkd (BitVec.ofNat 8 (s.ckByte.toNat % 128)) } } ∧
      (frameOf s.cfg s.mem.pkd (BitVec.ofNat 8 (s.ckByte.toNat % 128))).length = s.cfg.frameLenFixed ∧
      (s.cfg.WF → s.cfg.frameLenFixed ≤ s.cfg.bufMax))

/-- 40_framer R106: FRAME_BUILD raises no error for a data byte of 0x80 or more, and FRAME_PARSE of the frame it builds
raises HIGH_BIT. -/
def Obligations.BuiltHighBytesFailParse : Prop :=
  ∀ s : State, s.cfg.WF → s.mem.pkd.length = s.cfg.pkdLen → (∃ b ∈ s.mem.pkd, 0x80 ≤ b.toNat) →
    ∃ t r, exec .frameBuild s = .next t ∧ t.done = true ∧ exec .frameParse t = .next r ∧
      r.err = true ∧ r.code = 1 ∧ r.sub = 4

/-! ### Bit Packer/Unpacker -/

/-- 41_packer R124: UNPACK's errors in order, and every byte of its result, under both schemes. -/
def Obligations.UnpackFollowsItsRule : Prop :=
  ∀ s : State,
    (s.mem.pkd.length % s.cfg.gp ≠ 0 →
      exec .unpack s = .next (s.formatRecorded 5 s.mem.pkd.length s.cfg.gp s.mem.pkd.length)) ∧
    (∀ i b, s.mem.pkd.length % s.cfg.gp = 0 → s.cfg.packScheme = .flag7 →
      s.mem.pkd[i]? = some b → 0x80 ≤ b.toNat →
      (∀ j b', j < i → s.mem.pkd[j]? = some b' → b'.toNat ≤ 0x7F) →
      exec .unpack s = .next (s.formatRecorded 4 i 0x7F b.toNat)) ∧
    (∀ i b, s.mem.pkd.length % s.cfg.gp = 0 → s.cfg.packScheme = .nibble →
      s.mem.pkd[i]? = some b → 0x0F < b.toNat →
      (∀ j b', j < i → s.mem.pkd[j]? = some b' → b'.toNat ≤ 0x0F) →
      exec .unpack s = .next (s.formatRecorded 6 i 0x0F b.toNat)) ∧
    (PackedOk s.cfg s.mem.pkd →
      ∃ U, exec .unpack s = .next { (s.succeeded s.verifyOk) with mem := { s.mem with unp := U } } ∧
        U.length = s.mem.pkd.length / s.cfg.gp * s.cfg.gl ∧
        (s.cfg.packScheme = .flag7 → ∀ g k, g < s.mem.pkd.length / 8 → k < 7 →
          U[7 * g + k]? = some (s.mem.pkd.getD (8 * g + 1 + k) 0#8 |||
            (((s.mem.pkd.getD (8 * g) 0#8 >>> bitPos s.cfg k) &&& 1#8) <<< 7))) ∧
        (s.cfg.packScheme = .nibble → s.cfg.nibbleOrder = .highFirst → ∀ g, g < s.mem.pkd.length / 2 →
          U[g]? = some ((s.mem.pkd.getD (2 * g) 0#8 <<< 4) ||| s.mem.pkd.getD (2 * g + 1) 0#8)) ∧
        (s.cfg.packScheme = .nibble → s.cfg.nibbleOrder = .lowFirst → ∀ g, g < s.mem.pkd.length / 2 →
          U[g]? = some ((s.mem.pkd.getD (2 * g + 1) 0#8 <<< 4) ||| s.mem.pkd.getD (2 * g) 0#8)))

/-- 41_packer R125: PACK's errors in order, and every byte of its result, under both schemes; neither error can occur for
a stream of UNP_LEN bytes. -/
def Obligations.PackFollowsItsRule : Prop :=
  ∀ s : State,
    (s.mem.unp.length % s.cfg.gl ≠ 0 →
      exec .pack s = .next (s.formatRecorded 8 s.mem.unp.length s.cfg.gl s.mem.unp.length)) ∧
    (s.mem.unp.length % s.cfg.gl = 0 → s.cfg.bufMax < s.mem.unp.length / s.cfg.gl * s.cfg.gp →
      exec .pack s = .next (s.formatRecorded 10 s.mem.unp.length s.cfg.bufMax
        (s.mem.unp.length / s.cfg.gl * s.cfg.gp))) ∧
    (s.mem.unp.length % s.cfg.gl = 0 → s.mem.unp.length / s.cfg.gl * s.cfg.gp ≤ s.cfg.bufMax →
      ∃ D, exec .pack s = .next { (s.succeeded s.verifyOk) with mem := { s.mem with pkd := D } } ∧
        D.length = s.mem.unp.length / s.cfg.gl * s.cfg.gp ∧
        (s.cfg.packScheme = .flag7 → ∀ g, g < s.mem.unp.length / 7 →
          (D.getD (8 * g) 0#8).getLsbD 7 = false ∧
          ∀ k, k < 7 →
            (D.getD (8 * g) 0#8).getLsbD (bitPos s.cfg k) = (s.mem.unp.getD (7 * g + k) 0#8).getLsbD 7 ∧
            D[8 * g + 1 + k]? = some (s.mem.unp.getD (7 * g + k) 0#8 &&& 0x7F#8)) ∧
        (s.cfg.packScheme = .nibble → ∀ g, g < s.mem.unp.length →
          (s.cfg.nibbleOrder = .highFirst →
            D[2 * g]? = some (s.mem.unp.getD g 0#8 >>> 4) ∧
            D[2 * g + 1]? = some (s.mem.unp.getD g 0#8 &&& 0x0F#8)) ∧
          (s.cfg.nibbleOrder = .lowFirst →
            D[2 * g]? = some (s.mem.unp.getD g 0#8 &&& 0x0F#8) ∧
            D[2 * g + 1]? = some (s.mem.unp.getD g 0#8 >>> 4))) ∧
        (s.cfg.packScheme = .flag7 → ∀ b ∈ D, b.toNat ≤ 0x7F) ∧ (s.cfg.packScheme = .nibble → ∀ b ∈ D, b.toNat ≤ 0x0F)) ∧
    (s.cfg.WF → s.mem.unp.length = s.cfg.unpLen →
      s.mem.unp.length % s.cfg.gl = 0 ∧ s.mem.unp.length / s.cfg.gl * s.cfg.gp ≤ s.cfg.bufMax)

/-- 41_packer R126: PACK undoes UNPACK on well-formed packed data, and UNPACK undoes PACK on every stream of whole
groups whose packing fits a buffer. -/
def Obligations.PackAndUnpackAreInverse : Prop :=
  (∀ s : State, PackedOk s.cfg s.mem.pkd → s.mem.pkd.length ≤ s.cfg.bufMax →
    ∃ t r, exec .unpack s = .next t ∧ t.done = true ∧ exec .pack t = .next r ∧ r.done = true ∧
      r.mem.pkd = s.mem.pkd) ∧
  (∀ s : State, s.mem.unp.length % s.cfg.gl = 0 →
    s.mem.unp.length / s.cfg.gl * s.cfg.gp ≤ s.cfg.bufMax →
    ∃ t r, exec .pack s = .next t ∧ t.done = true ∧ exec .unpack t = .next r ∧ r.done = true ∧
      r.mem.unp = s.mem.unp)

/-! ### Checksum Unit -/

/-- 42_checksum R144: CK_COMPUTE raises CK_LENGTH, with its information, unless the domain buffer has CK_BUF_LEN bytes, and
otherwise puts the checksum of the configured formula and region in CK_VALUE and changes nothing else. -/
def Obligations.CkComputeFollowsItsRule : Prop :=
  ∀ s : State,
    (s.domain.length ≠ s.cfg.ckBufLen →
      exec .ckCompute s = .next (s.formatRecorded 9 s.domain.length s.cfg.ckBufLen s.domain.length)) ∧
    (s.domain.length = s.cfg.ckBufLen →
      exec .ckCompute s =
        .next { (s.succeeded s.verifyOk) with ckValue := BitVec.ofNat 32 (checksumOf s.cfg s.domain) })

/-- 42_checksum R145: CK_VERIFY raises CK_LENGTH, with its information, unless the domain buffer has CK_BUF_LEN bytes, and
otherwise puts the checksum in CK_VALUE and whether it equals `CK_BYTE[6:0]` in VERIFY_OK; a mismatch is a false result and
no error. -/
def Obligations.CkVerifyFollowsItsRule : Prop :=
  ∀ s : State,
    (s.domain.length ≠ s.cfg.ckBufLen →
      exec .ckVerify s = .next (s.formatRecorded 9 s.domain.length s.cfg.ckBufLen s.domain.length)) ∧
    (s.domain.length = s.cfg.ckBufLen →
      exec .ckVerify s =
        .next { (s.succeeded (decide (checksumOf s.cfg s.domain = s.ckByte.toNat % 128))) with
          ckValue := BitVec.ofNat 32 (checksumOf s.cfg s.domain) })

/-- 42_checksum R146: CK_APPEND raises CK_LENGTH, with its information, unless the domain buffer has CK_BUF_LEN bytes, and
otherwise puts the checksum in CK_VALUE and CK_BYTE; a CK_VERIFY on the same buffers after it finds a match. -/
def Obligations.CkAppendFollowsItsRule : Prop :=
  ∀ s : State,
    (s.domain.length ≠ s.cfg.ckBufLen →
      exec .ckAppend s = .next (s.formatRecorded 9 s.domain.length s.cfg.ckBufLen s.domain.length)) ∧
    (s.domain.length = s.cfg.ckBufLen →
      exec .ckAppend s =
        .next { (s.succeeded s.verifyOk) with
          ckValue := BitVec.ofNat 32 (checksumOf s.cfg s.domain)
          ckByte := BitVec.ofNat 32 (checksumOf s.cfg s.domain) }) ∧
    (∀ t, exec .ckAppend s = .next t → t.done = true →
      ∃ r, exec .ckVerify t = .next r ∧ r.done = true ∧ r.verifyOk = true)

/-- 42_checksum R148: under SUM_NEG7 a CK_VERIFY finds a match exactly if the region and the checksum byte sum to 0
modulo 128. -/
def Obligations.VerifyBySum : Prop :=
  ∀ s : State, s.cfg.ckAlgo = .sumNeg7 → s.domain.length = s.cfg.ckBufLen →
    ∃ t, exec .ckVerify s = .next t ∧
      (t.verifyOk = true ↔ (regionSum s.cfg s.domain + s.ckByte.toNat % 128) % 128 = 0)

/-- 42_checksum R147: with the checksum over the whole packed data part, DECODE of an accepted frame with any one bit of
its payload flipped raises an error, of the kind the rule gives for that bit; and with the checksum over the unpacked
stream and FLAG7 a flip of a bit of a flag byte can pass. -/
def Obligations.SingleBitFlipsAreDetected : Prop :=
  (∀ (s t : State) (i j : Nat), s.cfg.WF → s.cfg.ckDomain = .packed → s.cfg.ckLo = 0 →
    s.cfg.ckHi = s.cfg.pkdLen → exec .decode s = .next t → t.done = true →
    1 + s.cfg.idLen ≤ i → i ≤ s.mem.frame.length - 2 → j < 8 →
    ∃ r, exec .decode { s with mem := { s.mem with
        frame := s.mem.frame.modify i (fun b => b ^^^ (1#8 <<< j)) } } = .next r ∧ r.err = true ∧
      (j = 7 → r.code = 1 ∧ r.sub = 4) ∧
      (j < 7 → s.cfg.packScheme = .nibble → 4 ≤ j → i < s.mem.frame.length - 2 → r.code = 1 ∧ r.sub = 6) ∧
      (j < 7 → (s.cfg.packScheme = .flag7 ∨ j < 4 ∨ i = s.mem.frame.length - 2) → r.code = 3)) ∧
  ∃ (s t r : State) (j : Nat), s.cfg.WF ∧ s.cfg.ckDomain = .unpacked ∧ s.cfg.packScheme = .flag7 ∧
    exec .decode s = .next t ∧ t.done = true ∧ j < 7 ∧
    exec .decode { s with mem := { s.mem with
        frame := s.mem.frame.modify (1 + s.cfg.idLen) (fun b => b ^^^ (1#8 <<< j)) } } = .next r ∧ r.done = true

/-! ### Field Mapper -/

/-- 20_memory R50: bit t of a field's value is bit off + t of the stream, least significant first, and the value has no
other bit; writing a field sets its bits to the value's, leaves every other bit, and keeps the stream's length. -/
def Obligations.FieldsAreNumberedLeastSignificantBitFirst : Prop :=
  (∀ (S : List Byte) (off w t : Nat),
    (getBits S off w).testBit t =
      (decide (t < w) && (S.getD ((off + t) / 8) 0#8).getLsbD ((off + t) % 8))) ∧
  (∀ (S : List Byte) (off w v i : Nat), off + w ≤ 8 * S.length →
    (putBits S off w v).length = S.length ∧
    ((putBits S off w v).getD (i / 8) 0#8).getLsbD (i % 8) =
      if off ≤ i ∧ i < off + w then v.testBit (i - off) else (S.getD (i / 8) 0#8).getLsbD (i % 8))

/-- 43_field_mapper R166: FIELD_DECODE's length error, the first failing entry and element in schema order with its
information, and the decoded patch. -/
def Obligations.FieldDecodeFollowsItsRule : Prop :=
  ∀ s : State, s.cfg.WF →
    (s.mem.unp.length ≠ s.cfg.unpLen →
      exec .fieldDecode s = .next (s.formatRecorded 8 s.mem.unp.length s.cfg.unpLen s.mem.unp.length)) ∧
    (∀ j e, s.mem.unp.length = s.cfg.unpLen → s.cfg.schema[j]? = some e →
      (∀ i e', i < j → s.cfg.schema[i]? = some e' → EntryDecodes s.cfg s.mem.unp e') →
      (e.kind = .reserved → s.cfg.reservedPolicy = .check → elemVal s.mem.unp e 0 ≠ 0 →
        exec .fieldDecode s = .next (s.recorded 4 3 j 0 e.off 0 (elemVal s.mem.unp e 0) none)) ∧
      (∀ k, e.kind ≠ .reserved → k < e.count →
        (∀ k', k' < k → Constraint.Holds e.cons (elemVal s.mem.unp e k')) →
        ¬ Constraint.Holds e.cons (elemVal s.mem.unp e k) →
        (∀ lo hi, e.cons = .range lo hi →
          exec .fieldDecode s =
            .next (s.recorded 4 1 j k (e.off + k * e.width)
              (if hi < elemVal s.mem.unp e k then hi else lo) (elemVal s.mem.unp e k) e.name)) ∧
        (∀ ms, e.cons = .enum ms →
          exec .fieldDecode s =
            .next (s.recorded 4 2 j k (e.off + k * e.width) 0 (elemVal s.mem.unp e k) e.name)))) ∧
    (StreamOk s.cfg s.mem.unp →
      exec .fieldDecode s =
        .next { (s.succeeded s.verifyOk) with patch := decodedPatch s.cfg s.mem.unp })

/-- 43_field_mapper R164: after a FIELD_DECODE that completes, each non-RESERVED entry's name has its values, and no
other name is a key. -/
def Obligations.DecodedPatchHasOneKeyPerEntry : Prop :=
  ∀ s t : State, s.cfg.WF → exec .fieldDecode s = .next t → t.done = true →
    (∀ (e : Entry) (k : Name), e ∈ s.cfg.schema → e.kind = .scalar → e.name = some k →
      Patch.find t.patch k = some (.scalar (getBits s.mem.unp e.off e.width))) ∧
    (∀ (e : Entry) (k : Name), e ∈ s.cfg.schema → e.kind = .array → e.name = some k →
      ∃ vs, Patch.find t.patch k = some (.array vs) ∧ vs.length = e.count ∧
        ∀ i, i < e.count → vs[i]? = some ((getBits s.mem.unp (e.off + i * e.width) e.width : Nat) : Int)) ∧
    (∀ k, Patch.find t.patch k ≠ none → KeyKnown s.cfg k) ∧ (Patch.keys t.patch).Nodup

/-- 43_field_mapper R170: FIELD_ENCODE's errors in the order of R167 with their information, and the stream it writes
when both passes find nothing. -/
def Obligations.FieldEncodeFollowsItsRule : Prop :=
  ∀ s : State, s.cfg.WF →
    (∀ j e k, s.cfg.schema[j]? = some e → e.kind ≠ .reserved → e.name = some k →
      (∀ i e', i < j → s.cfg.schema[i]? = some e' → EntryEncodes s.patch e') →
      (Patch.find s.patch k = none →
        exec .fieldEncode s = .next (s.recorded 5 0 j 0 e.off 0 0 (some k))) ∧
      (∀ v, Patch.find s.patch k = some (.scalar v) → e.kind = .array →
        exec .fieldEncode s = .next (s.recorded 4 4 j 0 e.off e.count 0 (some k))) ∧
      (∀ vs, Patch.find s.patch k = some (.array vs) → e.kind = .scalar →
        exec .fieldEncode s = .next (s.recorded 4 4 j 0 e.off 0 vs.length (some k))) ∧
      (∀ vs, Patch.find s.patch k = some (.array vs) → e.kind = .array → vs.length ≠ e.count →
        exec .fieldEncode s = .next (s.recorded 4 4 j 0 e.off e.count vs.length (some k))) ∧
      (∀ pv n v, Patch.find s.patch k = some pv → ShapeFits e pv → pv.ints[n]? = some v →
        (∀ n' v', n' < n → pv.ints[n']? = some v' → Constraint.Holds e.cons v') →
        ¬ Constraint.Holds e.cons v →
        (∀ lo hi, e.cons = .range lo hi →
          exec .fieldEncode s =
            .next (s.recorded 4 1 j n (e.off + n * e.width) (if (hi : Int) < v then hi else lo)
              (v % 2 ^ 32).toNat (some k))) ∧
        (∀ ms, e.cons = .enum ms →
          exec .fieldEncode s =
            .next (s.recorded 4 2 j n (e.off + n * e.width) 0 (v % 2 ^ 32).toNat (some k))))) ∧
    (∀ k, (∀ e ∈ s.cfg.schema, EntryEncodes s.patch e) → k ∈ Patch.keys s.patch → ¬ KeyKnown s.cfg k →
      (∀ k' ∈ Patch.keys s.patch, ¬ KeyKnown s.cfg k' → k' = k ∨ k.lt k' = true) →
      exec .fieldEncode s = .next (s.recorded 6 0 0xFFFF 0 0 0 0 (some k))) ∧
    (PatchOk s.cfg s.patch →
      ∃ S, exec .fieldEncode s = .next { (s.succeeded s.verifyOk) with mem := { s.mem with unp := S } } ∧
        StreamHolds s.cfg s.patch S)

/-- 43_field_mapper R165: every value of a decoded patch satisfies its entry's constraint and fits its width, and the
decoded patch passes FIELD_ENCODE, under either policy. -/
def Obligations.DecodedPatchEncodes : Prop :=
  ∀ s t : State, s.cfg.WF → exec .fieldDecode s = .next t → t.done = true →
    (∀ e k pv v, e ∈ s.cfg.schema → e.name = some k → Patch.find t.patch k = some pv → v ∈ pv.ints →
      Constraint.Holds e.cons v ∧ 0 ≤ v ∧ v < 2 ^ e.width) ∧
    ∃ r, exec .fieldEncode t = .next r ∧ r.done = true

/-- 43_field_mapper R171: (a) FIELD_ENCODE of the patch FIELD_DECODE gave completes and writes the same stream under CHECK,
and under IGNORE exactly if every reserved region of the stream is 0; (b) FIELD_DECODE of the stream FIELD_ENCODE wrote
gives the same patch, under either policy. -/
def Obligations.MapperRoundTrips : Prop :=
  (∀ s t : State, s.cfg.WF → exec .fieldDecode s = .next t → t.done = true →
    ∃ r, exec .fieldEncode t = .next r ∧ r.done = true ∧
      (s.cfg.reservedPolicy = .check → r.mem.unp = s.mem.unp) ∧
      (r.mem.unp = s.mem.unp ↔ ReservedZero s.cfg s.mem.unp)) ∧
  (∀ s t : State, s.cfg.WF → Patch.wf s.patch = true → exec .fieldEncode s = .next t → t.done = true →
    ∃ r, exec .fieldDecode t = .next r ∧ r.done = true ∧ r.patch = s.patch)

/-- 43_field_mapper R172: the all-zero stream decodes to zeros where every constraint admits 0 and encodes back to
itself; otherwise it raises ValidationError at the first entry whose constraint does not. -/
def Obligations.AllZeroStream : Prop :=
  ∀ s : State, s.cfg.WF → s.mem.unp = List.replicate s.cfg.unpLen 0#8 →
    ((∀ e ∈ s.cfg.schema, Constraint.Holds e.cons 0) →
      ∃ t r, exec .fieldDecode s = .next t ∧ t.done = true ∧
        (∀ (e : Entry) (k : Name), e ∈ s.cfg.schema → e.kind = .scalar → e.name = some k →
          Patch.find t.patch k = some (.scalar 0)) ∧
        (∀ (e : Entry) (k : Name), e ∈ s.cfg.schema → e.kind = .array → e.name = some k →
          Patch.find t.patch k = some (.array (List.replicate e.count 0))) ∧
        exec .fieldEncode t = .next r ∧ r.done = true ∧ r.mem.unp = List.replicate s.cfg.unpLen 0#8) ∧
    (∀ j e, s.cfg.schema[j]? = some e → ¬ Constraint.Holds e.cons 0 →
      (∀ i e', i < j → s.cfg.schema[i]? = some e' → Constraint.Holds e'.cons 0) →
      ∃ t, exec .fieldDecode s = .next t ∧ t.err = true ∧ t.code = 4 ∧ t.errIndex = BitVec.ofNat 32 j)

/-! ### Whole-pipeline commands -/

/-- 44_composite R190: DECODE completes on every frame of a well-formed data part of PKD_LEN bytes whose stream passes
the mapper's checks and whose checksum byte is the checksum, and writes all six results. -/
def Obligations.DecodeCompletesOnValidFrames : Prop :=
  ∀ (s : State) (D U : List Byte) (C : Byte), s.cfg.WF → s.mem.frame = frameOf s.cfg D C →
    PackedOk s.cfg D → D.length = s.cfg.pkdLen → U = unpackStream s.cfg D → StreamOk s.cfg U →
    C.toNat = checksumOf s.cfg (domainOf s.cfg D U) →
    exec .decode s =
      .next { (s.succeeded true) with
        mem := { s.mem with pkd := D, unp := U }
        ckByte := BitVec.ofNat 32 C.toNat
        ckValue := BitVec.ofNat 32 C.toNat
        patch := decodedPatch s.cfg U }

/-- 44_composite R190: where only the checksum is wrong DECODE raises ChecksumError, with the offset of the checksum
byte, the computed checksum and the frame's; the stream is not looked at. -/
def Obligations.DecodeReportsChecksumMismatch : Prop :=
  ∀ (s : State) (D : List Byte) (C : Byte), s.cfg.WF → s.mem.frame = frameOf s.cfg D C →
    PackedOk s.cfg D → D.length = s.cfg.pkdLen → C.toNat ≤ 0x7F →
    C.toNat ≠ checksumOf s.cfg (domainOf s.cfg D (unpackStream s.cfg D)) →
    exec .decode s =
      .next (s.recorded 3 0 0xFFFF 0 (s.mem.frame.length - 2)
        (checksumOf s.cfg (domainOf s.cfg D (unpackStream s.cfg D)))
        C.toNat none)

/-- 44_composite R191: DECODE and the sequence FRAME_PARSE, UNPACK, CK_VERIFY, FIELD_DECODE. If DECODE succeeds the
sequence succeeds at every command and ends in the same state; if it raises, it leaves every result as it was, and the
sequence raises the same error at one of its commands, or reaches CK_VERIFY with VERIFY_OK = 0 where DECODE raises
ChecksumError, with the outputs of its earlier commands left written. -/
def Obligations.DecodeIsItsUnitSequence : Prop :=
  ∀ s t : State, exec .decode s = .next t →
    (t.done = true →
      ∃ a b d, exec .frameParse s = .next a ∧ a.done = true ∧ exec .unpack a = .next b ∧ b.done = true ∧
        exec .ckVerify b = .next d ∧ d.done = true ∧ d.verifyOk = true ∧ exec .fieldDecode d = .next t) ∧
    (t.err = true → SameResults s t ∧
      ∃ a, exec .frameParse s = .next a ∧
        ((a.err = true ∧ SameErrorRecord a t) ∨
          (a.done = true ∧ ∃ b, exec .unpack a = .next b ∧
            ((b.err = true ∧ SameErrorRecord b t ∧ SameResults a b) ∨
              (b.done = true ∧ ∃ d, exec .ckVerify b = .next d ∧ d.mem = b.mem ∧ d.ckByte = b.ckByte ∧
                ((d.err = true ∧ SameErrorRecord d t) ∨
                  (d.done = true ∧ d.verifyOk = false ∧ t.code = 3) ∨
                  (d.done = true ∧ d.verifyOk = true ∧
                    ∃ r, exec .fieldDecode d = .next r ∧ r.err = true ∧ SameErrorRecord r t ∧ SameResults d r)))))))

/-- 44_composite R192, R193, with 30_encoding R77 and 70_reset R236: ENCODE raises exactly the errors FIELD_ENCODE raises,
and where FIELD_ENCODE completes it completes and ends in the state the sequence FIELD_ENCODE, PACK, CK_APPEND,
FRAME_BUILD ends in, every command of which completes, with streams of UNP_LEN and PKD_LEN bytes between them. -/
def Obligations.EncodeIsItsUnitSequence : Prop :=
  ∀ s a : State, s.cfg.WF → exec .fieldEncode s = .next a →
    (a.err = true → exec .encode s = .next a) ∧
    (a.done = true → a.mem.unp.length = s.cfg.unpLen ∧
      ∃ b d t, exec .pack a = .next b ∧ b.done = true ∧ b.mem.pkd.length = s.cfg.pkdLen ∧ exec .ckAppend b = .next d ∧ d.done = true ∧
        exec .frameBuild d = .next t ∧ t.done = true ∧ exec .encode s = .next t)

/-- 44_composite R192: ENCODE completes on every patch that passes the mapper's checks; the frame it writes has
FRAME_LEN_FIXED bytes, the markers at its ends and only 7-bit bytes between them. -/
def Obligations.EncodeCompletesOnValidPatches : Prop :=
  ∀ s : State, s.cfg.WF → PatchOk s.cfg s.patch →
    ∃ t, exec .encode s = .next t ∧ t.done = true ∧ StreamHolds s.cfg s.patch t.mem.unp ∧
      t.mem.pkd.length = s.cfg.pkdLen ∧
      t.ckByte = BitVec.ofNat 32 (checksumOf s.cfg t.domain) ∧ t.ckValue = t.ckByte ∧
      t.mem.frame = frameOf s.cfg t.mem.pkd (BitVec.ofNat 8 t.ckByte.toNat) ∧
      t.mem.frame.length = s.cfg.frameLenFixed ∧
      ∀ i b, 1 ≤ i → i < s.cfg.frameLenFixed - 1 → t.mem.frame[i]? = some b → b.toNat ≤ 0x7F

/-- 44_composite R194: ENCODE of the patch DECODE gave completes and writes the same frame, byte for byte, under CHECK, and
under IGNORE exactly if every reserved region of the frame's stream is 0. -/
def Obligations.FrameRoundTripIsByteExact : Prop :=
  ∀ s t : State, s.cfg.WF → exec .decode s = .next t → t.done = true →
    ∃ r, exec .encode t = .next r ∧ r.done = true ∧
      (s.cfg.reservedPolicy = .check → r.mem.frame = s.mem.frame) ∧
      (r.mem.frame = s.mem.frame ↔ ReservedZero s.cfg t.mem.unp)

/-- 44_composite R195: DECODE of the frame ENCODE wrote gives the same patch, under either policy. -/
def Obligations.PatchRoundTrip : Prop :=
  ∀ s t : State, s.cfg.WF → Patch.wf s.patch = true → exec .encode s = .next t → t.done = true →
    ∃ r, exec .decode t = .next r ∧ r.done = true ∧ r.patch = s.patch
end

