-- ==== Sys2Proof/Laws/Operands.lean ====
section
/-! SUPPORT. What the operand accesses do: searches, slices and groups of byte lists, bits of a byte stream, the order of
names and the patch as a map. -/

namespace Sys2Proof.Machine

/-! ### Searches -/

theorem firstWhere_none {p : Byte → Bool} {i : Nat} {l : List Byte} :
    firstWhere p i l = none ↔ ∀ b ∈ l, p b = false := by
  induction l generalizing i with
  | nil => simp [firstWhere]
  | cons b bs ih =>
    unfold firstWhere
    by_cases h : p b
    · simp [h]
    · simp [h, ih]

/-- The first hit: its index, and that nothing before it is one. -/
theorem firstWhere_some {p : Byte → Bool} {i j : Nat} {b : Byte} {l : List Byte} :
    firstWhere p i l = some (j, b) ↔
      i ≤ j ∧ l[j - i]? = some b ∧ p b = true ∧ ∀ k b', k < j - i → l[k]? = some b' → p b' = false := by
  induction l generalizing i with
  | nil => simp [firstWhere]
  | cons a as ih =>
    unfold firstWhere
    by_cases h : p a
    · simp only [h, if_true, Option.some.injEq, Prod.mk.injEq]
      constructor
      · rintro ⟨rfl, rfl⟩
        simp [h]
      · rintro ⟨hij, hb, hp, hall⟩
        have hj : j = i := by
          by_contra hne
          have := hall 0 a (by omega) (by simp)
          simp [h] at this
        subst hj
        simpa using hb
    · simp only [h]
      rw [if_neg (by simp), ih]
      constructor
      · rintro ⟨hij, hb, hp, hall⟩
        have e : j - i = (j - (i + 1)) + 1 := by omega
        refine ⟨by omega, by rw [e]; simpa using hb, hp, ?_⟩
        intro k b' hk hb'
        cases k with
        | zero => simp at hb'; subst hb'; simpa using h
        | succ k => exact hall k b' (by omega) (by simpa using hb')
      · rintro ⟨hij, hb, hp, hall⟩
        have hne : j ≠ i := by
          rintro rfl
          simp at hb; subst hb; simp [h] at hp
        have e : j - i = (j - (i + 1)) + 1 := by omega
        rw [e] at hb
        exact ⟨by omega, by simpa using hb, hp, fun k b' hk hb' => hall (k + 1) b' (by omega) (by simpa using hb')⟩

/-- No difference: the wanted list stands at the start. -/
theorem firstMismatch_none {i : Nat} {ws l : List Byte} (h : ws.length ≤ l.length) :
    firstMismatch i ws l = none ↔ l.take ws.length = ws := by
  induction ws generalizing i l with
  | nil => simp [firstMismatch]
  | cons w ws ih =>
    cases l with
    | nil => simp at h
    | cons b bs =>
      unfold firstMismatch
      by_cases hb : b = w
      · subst hb
        simp [ih (by simpa using h)]
      · simp [hb]

/-- The first difference: its index, the two bytes, and that the lists agree before it. -/
theorem firstMismatch_some {i j : Nat} {w b : Byte} {ws l : List Byte} :
    firstMismatch i ws l = some (j, w, b) ↔
      i ≤ j ∧ ws[j - i]? = some w ∧ l[j - i]? = some b ∧ b ≠ w ∧ ∀ k, k < j - i → l[k]? = ws[k]? := by
  induction ws generalizing i l with
  | nil => simp [firstMismatch]
  | cons w' ws ih =>
    cases l with
    | nil => simp [firstMismatch]
    | cons b' bs =>
      unfold firstMismatch
      by_cases hb : b' = w'
      · subst hb
        rw [if_neg (by simp), ih]
        constructor
        · rintro ⟨hij, h1, h2, hne, hall⟩
          have e : j - i = (j - (i + 1)) + 1 := by omega
          refine ⟨by omega, by rw [e]; simpa using h1, by rw [e]; simpa using h2, hne, ?_⟩
          intro k hk
          cases k with
          | zero => simp
          | succ k => simpa using hall k (by omega)
        · rintro ⟨hij, h1, h2, hne, hall⟩
          have hji : j ≠ i := by
            rintro rfl
            simp at h1 h2
            exact hne (by rw [← h1, ← h2])
          have e : j - i = (j - (i + 1)) + 1 := by omega
          rw [e] at h1 h2
          exact ⟨by omega, by simpa using h1, by simpa using h2, hne, fun k hk => by simpa using hall (k + 1) (by omega)⟩
      · rw [if_pos hb]
        simp only [Option.some.injEq, Prod.mk.injEq]
        constructor
        · rintro ⟨rfl, rfl, rfl⟩
          simp [hb]
        · rintro ⟨hij, h1, h2, hne, hall⟩
          have hji : j = i := by
            by_contra hne'
            have := hall 0 (by omega)
            simp at this
            exact hb this
          subst hji
          simp at h1 h2
          exact ⟨rfl, h1, h2⟩

/-! ### Slices and groups -/

theorem slice_length (l : List Byte) (a b : Nat) (h : b ≤ l.length) : (slice l a b).length = b - a := by
  simp [slice]; omega

theorem slice_eq_drop_take (l : List Byte) (a b : Nat) : slice l a b = (l.drop a).take (b - a) := by
  rw [slice, List.drop_take]

@[simp] theorem zeros_length (n : Nat) : (zeros n).length = n := by simp [zeros]

theorem slice_getElem? (l : List Byte) (a b k : Nat) (h : a + k < b) : (slice l a b)[k]? = l[a + k]? := by
  rw [slice_eq_drop_take, List.getElem?_take_of_lt (by omega), List.getElem?_drop]

theorem mem_groupsOf {size n : Nat} {l g : List Byte} (h : g ∈ groupsOf size n l) (hl : n * size ≤ l.length) :
    g.length = size ∧ ∀ b ∈ g, b ∈ l := by
  induction n generalizing l with
  | zero => simp [groupsOf] at h
  | succ n ih =>
    rw [groupsOf, List.mem_cons] at h
    have hs : (n + 1) * size = n * size + size := by ring
    rcases h with rfl | h
    · exact ⟨by simp; omega, fun b hb => List.mem_of_mem_take hb⟩
    · obtain ⟨h1, h2⟩ := ih h (by simp; omega)
      exact ⟨h1, fun b hb => List.mem_of_mem_drop (h2 b hb)⟩

/-- A map of whole groups to whole groups, undone by another, undone on the whole list (41_packer R120). -/
theorem flatMap_groupsOf_inverse {size size' n : Nat} {l : List Byte} (f f' : List Byte → List Byte)
    (hl : l.length = n * size)
    (hlen : ∀ g ∈ groupsOf size n l, (f g).length = size')
    (hinv : ∀ g ∈ groupsOf size n l, f' (f g) = g) :
    (groupsOf size' n ((groupsOf size n l).flatMap f)).flatMap f' = l := by
  induction n generalizing l with
  | zero => simp [groupsOf] at *; exact hl.symm ▸ rfl
  | succ n ih =>
    have hs : (n + 1) * size = n * size + size := by ring
    simp only [groupsOf, List.flatMap_cons]
    have hl0 : (f (l.take size)).length = size' := hlen _ (by simp [groupsOf])
    rw [List.take_left' hl0, List.drop_left' hl0, hinv _ (by simp [groupsOf]),
      ih (by simp; omega) (fun g hg => hlen g (by simp [groupsOf, hg])) (fun g hg => hinv g (by simp [groupsOf, hg]))]
    exact List.take_append_drop size l

theorem flatMap_groupsOf_length {size size' n : Nat} {l : List Byte} (f : List Byte → List Byte)
    (hlen : ∀ g ∈ groupsOf size n l, (f g).length = size') :
    ((groupsOf size n l).flatMap f).length = n * size' := by
  induction n generalizing l with
  | zero => simp [groupsOf]
  | succ n ih =>
    simp only [groupsOf, List.flatMap_cons, List.length_append]
    rw [hlen _ (by simp [groupsOf]), ih (fun g hg => hlen g (by simp [groupsOf, hg]))]
    ring

/-- Element k of the image of group g (41_packer R120). -/
theorem flatMap_groupsOf_getElem? {size size' n g k : Nat} {l : List Byte} (f : List Byte → List Byte)
    (hlen : ∀ h ∈ groupsOf size n l, (f h).length = size') (hg : g < n) (hk : k < size') :
    ((groupsOf size n l).flatMap f)[size' * g + k]? = (f ((l.drop (g * size)).take size))[k]? := by
  induction n generalizing l g with
  | zero => omega
  | succ n ih =>
    simp only [groupsOf, List.flatMap_cons]
    have hl0 : (f (l.take size)).length = size' := hlen _ (by simp [groupsOf])
    cases g with
    | zero => rw [List.getElem?_append_left (by rw [hl0]; omega)]; simp
    | succ g =>
      have e : size' * (g + 1) + k - size' = size' * g + k := by
        rw [Nat.mul_succ]; omega
      rw [List.getElem?_append_right (by rw [hl0, Nat.mul_succ]; omega), hl0, e,
        ih (fun h hh => hlen h (by simp [groupsOf, hh])) (by omega)]
      rw [List.drop_drop]
      congr 3
      rw [Nat.succ_mul]; ring_nf

/-! ### Bits of a byte stream -/

@[simp] theorem setBitS_length (S : List Byte) (i : Nat) (b : Bool) : (setBitS S i b).length = S.length := by
  simp [setBitS]

@[simp] theorem putBits_length (S : List Byte) (off w v : Nat) : (putBits S off w v).length = S.length := by
  induction w with
  | zero => rfl
  | succ w ih => simp [putBits, ih]

theorem setBit_getLsbD (x : Byte) (k n : Nat) (b : Bool) (hk : k < 8) (hn : n < 8) :
    (setBit x k b).getLsbD n = if n = k then b else x.getLsbD n := by
  unfold setBit
  have hone : ((1#8) <<< k).getLsbD n = decide (n = k) := by
    have key : ∀ k n : Fin 8, ((1#8) <<< k.val).getLsbD n.val = decide (n.val = k.val) := by decide
    exact key ⟨k, hk⟩ ⟨n, hn⟩
  by_cases h : n = k
  · cases b
    · rw [if_neg (by simp), BitVec.getLsbD_and, BitVec.getLsbD_not, hone]; simp [h]
    · rw [if_pos rfl, BitVec.getLsbD_or, hone]; simp [h]
  · cases b
    · rw [if_neg (by simp), BitVec.getLsbD_and, BitVec.getLsbD_not, hone]; simp [h, hn]
    · rw [if_pos rfl, BitVec.getLsbD_or, hone]; simp [h]

/-- Setting one bit of a stream sets that bit and no other (20_memory R50). -/
theorem bitS_setBitS (S : List Byte) (i n : Nat) (b : Bool) (h : i < 8 * S.length) :
    bitS (setBitS S i b) n = if n = i then b else bitS S n := by
  unfold bitS setBitS
  have hi : i / 8 < S.length := by omega
  simp only [List.getD_eq_getElem?_getD]
  by_cases hd : n / 8 = i / 8
  · rw [List.getElem?_modify, hd]
    simp only [if_true]
    rw [List.getElem?_eq_getElem hi]
    simp only [Option.map_eq_map, Option.map_some, Option.getD_some]
    rw [setBit_getLsbD _ _ _ _ (Nat.mod_lt _ (by omega)) (Nat.mod_lt _ (by omega))]
    by_cases hn : n = i
    · simp [hn]
    · rw [if_neg hn, if_neg (by omega)]
  · rw [List.getElem?_modify]
    have hn : n ≠ i := by rintro rfl; exact hd rfl
    rw [if_neg hn]
    simp only [if_neg (Ne.symm hd)]
    cases S[n / 8]? <;> rfl

theorem bitS_putBits (S : List Byte) (off w v i : Nat) (h : off + w ≤ 8 * S.length) :
    bitS (putBits S off w v) i = if off ≤ i ∧ i < off + w then v.testBit (i - off) else bitS S i := by
  induction w with
  | zero => rw [if_neg (by omega)]; rfl
  | succ w ih =>
    rw [putBits, bitS_setBitS _ _ _ _ (by rw [putBits_length]; omega), ih (by omega)]
    by_cases h1 : i = off + w
    · subst h1
      rw [if_pos rfl, if_pos (by omega)]
      congr 1; omega
    · rw [if_neg h1]
      by_cases h2 : off ≤ i ∧ i < off + w
      · rw [if_pos h2, if_pos (by omega)]
      · rw [if_neg h2, if_neg (by omega)]

theorem getBits_lt (S : List Byte) (off w : Nat) : getBits S off w < 2 ^ w := by
  induction w with
  | zero => simp [getBits]
  | succ w ih =>
    rw [getBits, Nat.shiftLeft_eq, Nat.pow_succ]
    have : (bitS S (off + w)).toNat ≤ 1 := Bool.toNat_le _
    nlinarith [Nat.two_pow_pos w]

theorem getBits_testBit_bitS (S : List Byte) (off w t : Nat) :
    (getBits S off w).testBit t = (decide (t < w) && bitS S (off + t)) := by
  induction w with
  | zero => simp [getBits]
  | succ w ih =>
    have hor : getBits S off w + ((bitS S (off + w)).toNat <<< w) =
        ((bitS S (off + w)).toNat <<< w) ||| getBits S off w := by
      rw [← Nat.shiftLeft_add_eq_or_of_lt (getBits_lt S off w), Nat.add_comm]
    rw [getBits, hor, Nat.testBit_or, Nat.testBit_shiftLeft, ih]
    by_cases h1 : t < w
    · simp [h1, show t < w + 1 by omega, show ¬ (t ≥ w) by omega]
    · by_cases h2 : t = w
      · subst h2
        cases bitS S (off + t) <;> simp
      · have h3 : t ≥ w := by omega
        have h4 : ¬ t < w + 1 := by omega
        simp only [h1, h4, h3, decide_true, decide_false, Bool.false_and, Bool.true_and, Bool.or_false]
        obtain ⟨d, rfl⟩ : ∃ d, t = w + (d + 1) := ⟨t - w - 1, by omega⟩
        cases bitS S (off + w) <;> simp [Nat.testBit_succ]

theorem getBits_eq_of_bitS {S S' : List Byte} {off w : Nat}
    (h : ∀ i, off ≤ i → i < off + w → bitS S i = bitS S' i) : getBits S off w = getBits S' off w := by
  induction w with
  | zero => rfl
  | succ w ih =>
    rw [getBits, getBits, ih (fun i h1 h2 => h i h1 (by omega)), h (off + w) (by omega) (by omega)]

/-- Reading a field back (20_memory R50). -/
theorem getBits_putBits_same (S : List Byte) (off w v : Nat) (h : off + w ≤ 8 * S.length) (hv : v < 2 ^ w) :
    getBits (putBits S off w v) off w = v := by
  apply Nat.eq_of_testBit_eq
  intro t
  rw [getBits_testBit_bitS, bitS_putBits _ _ _ _ _ h]
  by_cases ht : t < w
  · rw [if_pos (by omega)]; simp [ht]
  · simp [ht]
    rw [Nat.testBit_lt_two_pow (lt_of_lt_of_le hv (Nat.pow_le_pow_right (by omega) (by omega)))]

theorem getBits_putBits_other (S : List Byte) (off w v off' w' : Nat) (h : off + w ≤ 8 * S.length)
    (hd : off' + w' ≤ off ∨ off + w ≤ off') :
    getBits (putBits S off w v) off' w' = getBits S off' w' := by
  apply getBits_eq_of_bitS
  intro i h1 h2
  rw [bitS_putBits _ _ _ _ _ h, if_neg (by omega)]

theorem bitS_of_getBits {S S' : List Byte} {off w : Nat} (h : getBits S off w = getBits S' off w) (i : Nat)
    (h1 : off ≤ i) (h2 : i < off + w) : bitS S i = bitS S' i := by
  have := congrArg (fun v => v.testBit (i - off)) h
  simp only [getBits_testBit_bitS] at this
  rw [show off + (i - off) = i by omega] at this
  simpa [show i - off < w by omega] using this

/-- Streams of one length with equal bits are equal. -/
theorem eq_of_bitS {S S' : List Byte} (hl : S.length = S'.length)
    (h : ∀ i, i < 8 * S.length → bitS S i = bitS S' i) : S = S' := by
  apply List.ext_getElem hl
  intro n h1 h2
  apply BitVec.eq_of_getLsbD_eq
  intro k hk
  have := h (8 * n + k) (by omega)
  unfold bitS at this
  rw [show (8 * n + k) / 8 = n by omega, show (8 * n + k) % 8 = k by omega] at this
  simpa [List.getD_eq_getElem?_getD, h1, h2] using this

theorem bitS_zeros (n i : Nat) : bitS (zeros n) i = false := by
  unfold bitS zeros
  rw [List.getD_eq_getElem?_getD, List.getElem?_replicate]
  split <;> simp

theorem getBits_zeros (n off w : Nat) : getBits (zeros n) off w = 0 := by
  induction w with
  | zero => rfl
  | succ w ih => simp [getBits, ih, bitS_zeros]

/-! ### Names and the patch as a map -/

theorem ltChars_irrefl (a : List Char) : ltChars a a = false := by
  induction a with
  | nil => rfl
  | cons c cs ih => simp [ltChars, ih]

theorem ltChars_trans {a b c : List Char} (h1 : ltChars a b = true) (h2 : ltChars b c = true) :
    ltChars a c = true := by
  induction a generalizing b c with
  | nil =>
    cases c with
    | nil => cases b <;> simp [ltChars] at h2
    | cons _ _ => rfl
  | cons x xs ih =>
    cases b with
    | nil => simp [ltChars] at h1
    | cons y ys =>
      cases c with
      | nil => simp [ltChars] at h2
      | cons z zs =>
        unfold ltChars at h1 h2 ⊢
        split at h1
        · split at h2
          · rw [if_pos (by omega)]
          · split at h2
            · cases h2
            · rw [if_pos (by omega)]
        · split at h1
          · cases h1
          · split at h2
            · rw [if_pos (by omega)]
            · split at h2
              · cases h2
              · rw [if_neg (by omega), if_neg (by omega)]
                exact ih h1 h2

theorem ltChars_total (a b : List Char) : ltChars a b = true ∨ a = b ∨ ltChars b a = true := by
  induction a generalizing b with
  | nil => cases b <;> simp [ltChars]
  | cons x xs ih =>
    cases b with
    | nil => simp [ltChars]
    | cons y ys =>
      by_cases h1 : x.toNat < y.toNat
      · left; simp only [ltChars]; rw [if_pos h1]
      · by_cases h2 : y.toNat < x.toNat
        · right; right; simp only [ltChars]; rw [if_pos h2]
        · have hxy : x = y := Char.toNat_inj.mp (by omega)
          subst hxy
          rcases ih ys with h | h | h
          · left; simpa [ltChars] using h
          · right; left; rw [h]
          · right; right; simpa [ltChars] using h

theorem Name.chars_inj {a b : Name} (h : a.chars = b.chars) : a = b := by
  obtain ⟨f, r⟩ := a
  obtain ⟨f', r'⟩ := b
  simpa [Name.chars] using h

theorem Name.lt_irrefl (a : Name) : a.lt a = false := ltChars_irrefl _

theorem Name.lt_trans {a b c : Name} (h1 : a.lt b = true) (h2 : b.lt c = true) : a.lt c = true :=
  ltChars_trans h1 h2

theorem Name.lt_total (a b : Name) : a.lt b = true ∨ a = b ∨ b.lt a = true := by
  rcases ltChars_total a.chars b.chars with h | h | h
  · exact .inl h
  · exact .inr (.inl (Name.chars_inj h))
  · exact .inr (.inr h)

theorem Name.lt_asymm {a b : Name} (h : a.lt b = true) : b.lt a = false := by
  by_contra hc
  have := Name.lt_trans h (by simpa using hc)
  rw [Name.lt_irrefl] at this
  cases this

theorem Patch.wf_cons {k : Name} {v : PValue} {m : Patch} :
    Patch.wf ((k, v) :: m) = true ↔ (∀ p ∈ m, k.lt p.1 = true) ∧ Patch.wf m = true := by
  simp [Patch.wf]

theorem Patch.mem_put {m : Patch} {k : Name} {v : PValue} {p : Name × PValue} (h : p ∈ m.put k v) :
    p = (k, v) ∨ p ∈ m := by
  induction m with
  | nil => simpa [Patch.put] using h
  | cons q m ih =>
    obtain ⟨k', v'⟩ := q
    unfold Patch.put at h
    split at h
    · rcases List.mem_cons.mp h with h | h
      · exact .inl h
      · exact .inr (List.mem_cons_of_mem _ h)
    · split at h
      · simpa using h
      · rcases List.mem_cons.mp h with h | h
        · exact .inr (h ▸ List.mem_cons_self)
        · rcases ih h with h | h
          · exact .inl h
          · exact .inr (List.mem_cons_of_mem _ h)

/-- Writing a key keeps the canonical form. -/
theorem Patch.wf_put {m : Patch} (k : Name) (v : PValue) (h : Patch.wf m = true) :
    Patch.wf (m.put k v) = true := by
  induction m with
  | nil => simp [Patch.put, Patch.wf]
  | cons q m ih =>
    obtain ⟨k', v'⟩ := q
    rw [Patch.wf_cons] at h
    unfold Patch.put
    split
    · rename_i hk
      subst hk
      exact Patch.wf_cons.mpr h
    · split
      · rename_i hlt
        refine Patch.wf_cons.mpr ⟨?_, Patch.wf_cons.mpr h⟩
        intro p hp
        rcases List.mem_cons.mp hp with rfl | hp
        · exact hlt
        · exact Name.lt_trans hlt (h.1 p hp)
      · rename_i hne hnlt
        refine Patch.wf_cons.mpr ⟨?_, ih h.2⟩
        intro p hp
        rcases Patch.mem_put hp with rfl | hp
        · rcases Name.lt_total k k' with h' | h' | h'
          · exact absurd h' hnlt
          · exact absurd h' hne
          · exact h'
        · exact h.1 p hp

theorem Patch.find_put (m : Patch) (k k' : Name) (v : PValue) :
    (m.put k v).find k' = if k' = k then some v else m.find k' := by
  induction m with
  | nil =>
    simp only [Patch.put, Patch.find]
    by_cases h : k = k'
    · simp [h]
    · rw [if_neg h, if_neg (Ne.symm h)]
  | cons q m ih =>
    obtain ⟨q, w⟩ := q
    unfold Patch.put
    split
    · rename_i hk
      subst hk
      simp only [Patch.find]
      by_cases h : k = k'
      · subst h; simp
      · rw [if_neg h, if_neg (Ne.symm h), if_neg h]
    · rename_i hkq
      split
      · simp only [Patch.find]
        by_cases h : k = k'
        · subst h; simp
        · rw [if_neg h, if_neg (Ne.symm h)]
      · simp only [Patch.find, ih]
        by_cases h : q = k'
        · subst h; rw [if_pos rfl, if_pos rfl, if_neg (Ne.symm hkq)]
        · rw [if_neg h, if_neg h]

theorem Patch.find_none_of_lt {m : Patch} {k : Name} (h : ∀ p ∈ m, k.lt p.1 = true) : m.find k = none := by
  induction m with
  | nil => rfl
  | cons q m ih =>
    obtain ⟨q, w⟩ := q
    have h1 := h (q, w) List.mem_cons_self
    unfold Patch.find
    rw [if_neg (by rintro rfl; simp [Name.lt_irrefl] at h1)]
    exact ih (fun p hp => h p (List.mem_cons_of_mem _ hp))

theorem Patch.find_isSome_iff {m : Patch} {k : Name} : (m.find k).isSome = true ↔ k ∈ m.keys := by
  induction m with
  | nil => simp [Patch.find, Patch.keys]
  | cons q m ih =>
    obtain ⟨q, w⟩ := q
    unfold Patch.find
    by_cases h : q = k
    · simp [h, Patch.keys]
    · rw [if_neg h, ih]
      simp [Patch.keys, Ne.symm h]

/-- Canonical maps with the same values are equal lists. -/
theorem Patch.ext_find {m m' : Patch} (h : Patch.wf m = true) (h' : Patch.wf m' = true)
    (hf : ∀ k, m.find k = m'.find k) : m = m' := by
  induction m generalizing m' with
  | nil =>
    cases m' with
    | nil => rfl
    | cons q m' => have := hf q.1; simp [Patch.find] at this
  | cons p m ih =>
    obtain ⟨k, v⟩ := p
    cases m' with
    | nil => have := hf k; simp [Patch.find] at this
    | cons q m' =>
      obtain ⟨k', v'⟩ := q
      rw [Patch.wf_cons] at h h'
      have hk : k = k' := by
        rcases Name.lt_total k k' with hlt | heq | hlt
        · have h1 := hf k
          have h2 : Patch.find ((k', v') :: m') k = none := Patch.find_none_of_lt (by
            intro p hp
            rcases List.mem_cons.mp hp with rfl | hp
            · exact hlt
            · exact Name.lt_trans hlt (h'.1 p hp))
          rw [h2] at h1
          simp [Patch.find] at h1
        · exact heq
        · have h1 := hf k'
          have h2 : Patch.find ((k, v) :: m) k' = none := Patch.find_none_of_lt (by
            intro p hp
            rcases List.mem_cons.mp hp with rfl | hp
            · exact hlt
            · exact Name.lt_trans hlt (h.1 p hp))
          rw [h2] at h1
          simp [Patch.find] at h1
      subst hk
      have hv : v = v' := by have := hf k; simpa [Patch.find] using this
      subst hv
      congr 1
      apply ih h.2 h'.2
      intro x
      have hx := hf x
      unfold Patch.find at hx
      by_cases hkx : k = x
      · subst hkx
        rw [Patch.find_none_of_lt h.1, Patch.find_none_of_lt h'.1]
      · simpa [hkx] using hx

theorem Patch.wf_normal (m : Patch) : Patch.wf m.normal = true := by
  unfold Patch.normal
  suffices h : ∀ acc : Patch, Patch.wf acc = true →
      Patch.wf (m.foldl (fun acc p => Patch.put acc p.1 p.2) acc) = true from h [] rfl
  induction m with
  | nil => intro acc h; exact h
  | cons p m ih => intro acc h; exact ih _ (Patch.wf_put _ _ h)

theorem Patch.find_foldl_put (m acc : Patch) (k : Name) (hd : m.keys.Nodup) :
    (m.foldl (fun acc p => Patch.put acc p.1 p.2) acc).find k =
      if k ∈ m.keys then m.find k else acc.find k := by
  induction m generalizing acc with
  | nil => simp [Patch.keys]
  | cons p m ih =>
    obtain ⟨q, w⟩ := p
    have hd' : q ∉ Patch.keys m ∧ (Patch.keys m).Nodup := by simpa [Patch.keys] using hd
    rw [List.foldl_cons, ih _ hd'.2, Patch.find_put]
    by_cases h1 : k ∈ Patch.keys m
    · have h2 : k ≠ q := by rintro rfl; exact hd'.1 h1
      have h3 : k ∈ Patch.keys ((q, w) :: m) := by simp [Patch.keys] at h1 ⊢; exact .inr h1
      rw [if_pos h1, if_pos h3]
      simp [Patch.find, Ne.symm h2]
    · rw [if_neg h1]
      by_cases h2 : k = q
      · subst h2
        simp [Patch.keys, Patch.find]
      · rw [if_neg h2, if_neg (by simp [Patch.keys] at h1 ⊢; exact ⟨h2, h1⟩)]

theorem Patch.find_normal (m : Patch) (k : Name) (hd : m.keys.Nodup) : m.normal.find k = m.find k := by
  unfold Patch.normal
  rw [Patch.find_foldl_put m [] k hd]
  split
  · rfl
  · rename_i h
    have := mt Patch.find_isSome_iff.mp h
    simp only [Option.isSome_iff_ne_none, ne_eq, not_not] at this
    rw [this]; rfl

theorem Patch.keys_nodup {m : Patch} (h : Patch.wf m = true) : m.keys.Nodup := by
  induction m with
  | nil => simp [Patch.keys]
  | cons p m ih =>
    obtain ⟨k, v⟩ := p
    rw [Patch.wf_cons] at h
    have := ih h.2
    simp only [Patch.keys, List.map_cons, List.nodup_cons, List.mem_map, not_exists, not_and] at this ⊢
    refine ⟨?_, this⟩
    rintro p hp rfl
    have := h.1 p hp
    simp [Name.lt_irrefl] at this

/-- A list in canonical form is its own (log 7). -/
theorem Patch.normal_of_wf {m : Patch} (h : Patch.wf m = true) : m.normal = m :=
  Patch.ext_find (Patch.wf_normal m) h (fun k => Patch.find_normal m k (Patch.keys_nodup h))

theorem leastName_none {ks : List Name} : leastName ks = none ↔ ks = [] := by
  cases ks with
  | nil => simp [leastName]
  | cons k ks =>
    simp only [leastName]
    constructor
    · intro h
      split at h
      · cases h
      · split at h <;> cases h
    · intro h; cases h

/-- The least name of a list: a member below every other (43_field_mapper R169). -/
theorem leastName_some {ks : List Name} {k : Name} :
    leastName ks = some k ↔ k ∈ ks ∧ ∀ k' ∈ ks, k' = k ∨ k.lt k' = true := by
  have fwd : ∀ {ks : List Name} {k : Name}, leastName ks = some k →
      k ∈ ks ∧ ∀ k' ∈ ks, k' = k ∨ k.lt k' = true := by
    intro ks
    induction ks with
    | nil => intro k h; simp [leastName] at h
    | cons a as ih =>
      intro k h
      simp only [leastName] at h
      split at h
      · rename_i hn
        have := leastName_none.mp hn
        subst this
        cases h
        simp
      · rename_i b hb
        obtain ⟨hmem, hle⟩ := ih hb
        split at h
        · rename_i hlt
          cases h
          refine ⟨List.mem_cons_self, ?_⟩
          intro k' hk'
          rcases List.mem_cons.mp hk' with h' | h'
          · exact .inl h'
          · rcases hle k' h' with h' | h'
            · exact .inr (h' ▸ hlt)
            · exact .inr (Name.lt_trans hlt h')
        · rename_i hlt
          cases h
          refine ⟨List.mem_cons_of_mem _ hmem, ?_⟩
          intro k' hk'
          rcases List.mem_cons.mp hk' with rfl | h'
          · rcases Name.lt_total k' k with h' | h' | h'
            · exact absurd h' hlt
            · exact .inl h'
            · exact .inr h'
          · exact hle k' h'
  constructor
  · exact fwd
  · rintro ⟨hmem, hle⟩
    cases hl : leastName ks with
    | none => rw [leastName_none.mp hl] at hmem; cases hmem
    | some b =>
      obtain ⟨hb, hle'⟩ := fwd hl
      rcases hle b hb with rfl | h1
      · rfl
      · rcases hle' k hmem with rfl | h2
        · rfl
        · have := Name.lt_asymm h1
          rw [h2] at this
          cases this

theorem bytesOf_toNat (bs : List Byte) : bytesOf (bs.map (fun b => (b.toNat : Int))) = some bs := by
  induction bs with
  | nil => rfl
  | cons b bs ih =>
    have hb := b.isLt
    simp only [List.map_cons, bytesOf]
    rw [if_pos (by omega), ih]
    simp

theorem bytesOf_length {l : List Int} {bs : List Byte} (h : bytesOf l = some bs) : bs.length = l.length := by
  induction l generalizing bs with
  | nil => simp [bytesOf] at h; simp [h]
  | cons v vs ih =>
    simp only [bytesOf] at h
    split at h
    · rw [Option.map_eq_some_iff] at h
      obtain ⟨bs', hb, rfl⟩ := h
      simp [ih hb]
    · cases h

theorem bytesOf_none {l : List Int} : bytesOf l = none ↔ ∃ v ∈ l, v < 0 ∨ 255 < v := by
  induction l with
  | nil => simp [bytesOf]
  | cons v vs ih =>
    simp only [bytesOf]
    split
    · rw [Option.map_eq_none_iff, ih]
      simp only [List.mem_cons]
      constructor
      · rintro ⟨x, hx, h⟩; exact ⟨x, .inr hx, h⟩
      · rintro ⟨x, rfl | hx, h⟩
        · omega
        · exact ⟨x, hx, h⟩
    · simp only [true_iff]
      exact ⟨v, List.mem_cons_self, by omega⟩

end Sys2Proof.Machine
end

