-- ==== Sys2Proof/Laws/Checksum.lean ====
section
/-! SUPPORT. What the Checksum Unit computes and raises. -/

namespace Sys2Proof.Machine

/-! ### Checksums -/

theorem slice_region (B : List Byte) (lo hi : Nat) : slice B lo hi = (B.drop lo).take (hi - lo) :=
  slice_eq_drop_take B lo hi

theorem byteXor_eq_foldr (R : List Byte) : byteXor R = R.foldr (fun b x => b ^^^ x) 0#8 := by
  have gen : ∀ (R : List Byte) (x : Byte), R.foldl (fun x b => x ^^^ b) x = x ^^^ R.foldr (fun b x => b ^^^ x) 0#8 := by
    intro R
    induction R with
    | nil => intro x; simp
    | cons b bs ih => intro x; rw [List.foldl_cons, List.foldr_cons, ih, BitVec.xor_assoc]
  unfold byteXor
  rw [gen]; simp

/-- The model's checksum is the one of 42_checksum R141. -/
theorem formula_toNat (c : Config) (B : List Byte) :
    (formula c.ckAlgo (slice B c.ckLo c.ckHi)).toNat = checksumOf c B := by
  unfold formula checksumOf
  cases c.ckAlgo with
  | sumNeg7 =>
    simp only [BitVec.toNat_ofNat, slice_region]
    unfold byteSum regionSum
    omega
  | sum7 =>
    simp only [BitVec.toNat_ofNat, slice_region]
    unfold byteSum regionSum
    omega
  | xor7 =>
    simp only [slice_region, byteXor_eq_foldr, BitVec.toNat_setWidth, BitVec.toNat_and]
    unfold regionXor
    rw [show (0x7F#8 : Byte).toNat = 2 ^ 7 - 1 from rfl, Nat.and_two_pow_sub_one_eq_mod]
    norm_num

theorem checksumOf_lt (c : Config) (B : List Byte) : checksumOf c B < 128 := by
  rw [← formula_toNat]; exact (formula c.ckAlgo _).isLt

theorem ck_ok_iff {c : Config} {D U : List Byte} {v : Ck} :
    ck c D U = .ok v ↔
      (domainBuf c D U).length = c.ckBufLen ∧ v.toNat = checksumOf c (domainBuf c D U) := by
  unfold ck
  simp only
  split
  · simp_all
  · rename_i h
    simp only [ne_eq, not_not] at h
    rw [← formula_toNat]
    constructor
    · intro hv; cases hv; exact ⟨h, rfl⟩
    · rintro ⟨-, hv⟩
      rw [BitVec.eq_of_toNat_eq hv]

theorem ck_error_iff {c : Config} {D U : List Byte} {e : ErrorRecord} :
    ck c D U = .error e ↔ (domainBuf c D U).length ≠ c.ckBufLen ∧
      e = formatError .ckLength (domainBuf c D U).length c.ckBufLen (domainBuf c D U).length := by
  unfold ck
  simp only
  split
  · constructor
    · intro h; cases h; exact ⟨‹_›, rfl⟩
    · rintro ⟨-, rfl⟩; rfl
  · simp_all

theorem domainBuf_eq (c : Config) (D U : List Byte) : domainBuf c D U = domainOf c D U := rfl

theorem domainBuf_state (s : State) : domainBuf s.cfg s.mem.pkd s.mem.unp = s.domain := rfl

theorem ckByteField_toNat (s : State) : s.ckByteField.toNat = s.ckByte.toNat % 128 := by
  simp [State.ckByteField]

theorem setWidth_ck (v : Ck) : v.setWidth 32 = BitVec.ofNat 32 v.toNat := by
  apply BitVec.eq_of_toNat_eq
  simp

/-! ### One flipped bit -/

/-- A flip of one of the low seven bits changes the value modulo 128. -/
theorem xor_bit_mod (b : Byte) {j : Nat} (hj : j < 7) : (b ^^^ (1#8 <<< j)).toNat % 128 ≠ b.toNat % 128 := by
  have key : ∀ b : Byte, ∀ j : Fin 7, (b ^^^ (1#8 <<< j.val)).toNat % 128 ≠ b.toNat % 128 := by decide +kernel
  exact key b ⟨j, hj⟩

theorem foldr_xor (l : List Byte) (a : Byte) :
    l.foldr (fun b x => b ^^^ x) a = l.foldr (fun b x => b ^^^ x) 0#8 ^^^ a := by
  induction l with
  | nil => simp
  | cons x l ih => rw [List.foldr_cons, List.foldr_cons, ih, BitVec.xor_assoc]

/-- A flip of one of the low seven bits of one byte changes the checksum over the whole buffer (42_checksum R147). -/
theorem checksumOf_flip (c : Config) (D : List Byte) {k j : Nat} (hlo : c.ckLo = 0) (hhi : c.ckHi = D.length)
    (hk : k < D.length) (hj : j < 7) :
    checksumOf c (D.modify k (fun b => b ^^^ (1#8 <<< j))) ≠ checksumOf c D := by
  have hmod : D.modify k (fun b => b ^^^ (1#8 <<< j)) = D.take k ++ (D[k] ^^^ (1#8 <<< j)) :: D.drop (k + 1) := by
    rw [List.modify_eq_take_cons_drop hk]
  have hsplit : D = D.take k ++ D[k] :: D.drop (k + 1) := by simp
  have hregion : ∀ L : List Byte, L.length = D.length → (L.drop c.ckLo).take (c.ckHi - c.ckLo) = L := by
    intro L hL
    rw [hlo, hhi, List.drop_zero, Nat.sub_zero, ← hL, List.take_length]
  have hbit := xor_bit_mod D[k] hj
  have hsum : regionSum c (D.modify k (fun b => b ^^^ (1#8 <<< j))) + D[k].toNat =
      regionSum c D + (D[k] ^^^ (1#8 <<< j)).toNat := by
    have hD : (D.map BitVec.toNat).sum = ((D.take k ++ D[k] :: D.drop (k + 1)).map BitVec.toNat).sum := by rw [← hsplit]
    unfold regionSum
    rw [hregion _ (by simp), hregion _ rfl, hmod, hD]
    simp only [List.map_append, List.map_cons, List.sum_append, List.sum_cons]
    omega
  unfold checksumOf
  cases c.ckAlgo with
  | sumNeg7 => simp only; omega
  | sum7 => simp only; omega
  | xor7 =>
    have hxor : regionXor c (D.modify k (fun b => b ^^^ (1#8 <<< j))) = regionXor c D ^^^ (1#8 <<< j) := by
      unfold regionXor
      rw [hregion _ (by simp), hregion _ rfl, hmod]
      conv => rhs; rw [hsplit]
      simp only [List.foldr_append, List.foldr_cons]
      rw [foldr_xor (D.take k), foldr_xor (D.take k) (D[k] ^^^ _)]
      generalize 1#8 <<< j = m
      rw [BitVec.xor_assoc, BitVec.xor_assoc, BitVec.xor_assoc, BitVec.xor_comm m]
    simp only
    rw [hxor]
    exact xor_bit_mod _ hj

end Sys2Proof.Machine
end

