-- ==== Sys2Proof/Laws/Mapper.lean ====
section
/-! SUPPORT. What FIELD_DECODE and FIELD_ENCODE accept, give and raise. -/

namespace Sys2Proof.Machine

/-! ### What well-formedness gives -/

theorem Config.WF.schema {c : Config} (h : c.WF) : schemaWellFormed c.spanBits c.schema = true := by
  unfold Config.WF Config.wellFormed at h
  simp only [Bool.and_eq_true] at h
  exact h.2

theorem Config.WF.bufMax {c : Config} (h : c.WF) : c.frameLenFixed ≤ c.bufMax := by
  unfold Config.WF Config.wellFormed Config.bufMaxOk at h
  simp only [Bool.and_eq_true, decide_eq_true_eq] at h
  exact h.1.2

theorem Config.WF.ident {c : Config} (h : c.WF) : ∀ b ∈ c.ident, b.toNat ≤ 0x7F := by
  unfold Config.WF Config.wellFormed Config.bytesOk at h
  simp only [Bool.and_eq_true, decide_eq_true_eq, List.all_eq_true] at h
  exact h.1.1.1.1.2.1.1

theorem Config.WF.region {c : Config} (h : c.WF) : c.ckLo ≤ c.ckHi ∧ c.ckHi ≤ c.ckBufLen := by
  unfold Config.WF Config.wellFormed Config.regionOk at h
  simp only [Bool.and_eq_true, decide_eq_true_eq] at h
  exact h.1.1.2

theorem schemaWellFormed_entry {span : Nat} {es : List Entry} (h : schemaWellFormed span es = true) {e : Entry}
    (he : e ∈ es) : e.sizeOk = true ∧ e.nameOk = true ∧ e.consOk = true := by
  unfold schemaWellFormed at h
  simp only [Bool.and_eq_true, List.all_eq_true] at h
  exact ⟨h.1.1.1.1.1 e he, h.1.1.1.1.2 e he, h.1.1.2 e he⟩

theorem schemaWellFormed_tiles {span : Nat} {es : List Entry} (h : schemaWellFormed span es = true) :
    tilesFrom span 0 es = true := by
  unfold schemaWellFormed at h
  simp only [Bool.and_eq_true] at h
  exact h.1.2

theorem schemaWellFormed_length {span : Nat} {es : List Entry} (h : schemaWellFormed span es = true) :
    1 ≤ es.length ∧ es.length ≤ 0xFFFE := by
  unfold schemaWellFormed schemaLengthOk at h
  simp only [Bool.and_eq_true, decide_eq_true_eq] at h
  exact h.2

theorem namesDistinct_iff {ks : List Name} : namesDistinct ks = true ↔ ks.Nodup := by
  induction ks with
  | nil => simp [namesDistinct]
  | cons k ks ih => simp [namesDistinct, ih]

theorem schemaWellFormed_names {span : Nat} {es : List Entry} (h : schemaWellFormed span es = true) :
    (schemaNames es).Nodup := by
  unfold schemaWellFormed at h
  simp only [Bool.and_eq_true] at h
  exact namesDistinct_iff.mp h.1.1.1.2

theorem Entry.width_bounds {e : Entry} (h : e.sizeOk = true) : 1 ≤ e.width ∧ e.width ≤ 32 := by
  unfold Entry.sizeOk at h
  simp only [Bool.and_eq_true, decide_eq_true_eq] at h
  exact h.1

theorem Entry.count_one {e : Entry} (h : e.sizeOk = true) (hk : e.kind ≠ .array) : e.count = 1 := by
  unfold Entry.sizeOk at h
  simp only [Bool.and_eq_true] at h
  cases hke : e.kind <;> simp [hke] at h hk
  · exact h.2
  · exact h.2

theorem Entry.name_none {e : Entry} (h : e.nameOk = true) (hk : e.kind = .reserved) : e.name = none := by
  unfold Entry.nameOk at h
  simpa [hk] using h

theorem Entry.name_some {e : Entry} (h : e.nameOk = true) (hk : e.kind ≠ .reserved) : ∃ k, e.name = some k := by
  unfold Entry.nameOk at h
  cases hke : e.kind <;> simp [hke] at h hk <;> exact Option.isSome_iff_exists.mp h

theorem Constraint.admits_iff {cons : Constraint} {v : Int} :
    Constraint.admits cons v = true ↔ Constraint.Holds cons v := by
  cases cons <;> simp [Constraint.admits, Constraint.Holds]

/-- A value a well-formed entry's constraint admits fits the entry's width (10_state R42 condition 3). -/
theorem Entry.holds_fits {e : Entry} (h : e.consOk = true) (hk : e.kind ≠ .reserved) {v : Int}
    (hv : Constraint.Holds e.cons v) : 0 ≤ v ∧ v.toNat < 2 ^ e.width := by
  have h2 := Nat.two_pow_pos e.width
  unfold Entry.consOk at h
  cases hc : e.cons with
  | none => cases hke : e.kind <;> simp [hke, hc] at h hk
  | range lo hi =>
    have h' : lo ≤ hi ∧ hi ≤ 2 ^ e.width - 1 := by
      cases hke : e.kind <;> simp [hke, hc] at h hk <;> exact h
    rw [hc] at hv
    obtain ⟨h3, h4⟩ := hv
    omega
  | enum ms =>
    have h' : ∀ m ∈ ms, m ≤ 2 ^ e.width - 1 := by
      cases hke : e.kind <;> simp [hke, hc] at h hk <;> exact h.2
    rw [hc] at hv
    obtain ⟨m, hm, rfl⟩ := hv
    have := h' m hm
    omega

theorem Entry.kind_reserved_iff {e : Entry} (h : e.consOk = true) : e.kind = .reserved ↔ e.cons = .none := by
  unfold Entry.consOk at h
  cases hk : e.kind <;> cases hc : e.cons <;> simp [hk, hc] at h ⊢

/-- The entries from bit `pos` on: each lies between `pos` and the span's end. -/
theorem tilesFrom_bounds {span pos : Nat} {es : List Entry} (h : tilesFrom span pos es = true) :
    pos ≤ span ∧ ∀ e ∈ es, pos ≤ e.off ∧ e.off + e.width * e.count ≤ span := by
  induction es generalizing pos with
  | nil => simp [tilesFrom] at h; simp [h]
  | cons e es ih =>
    simp only [tilesFrom, Bool.and_eq_true, decide_eq_true_eq] at h
    obtain ⟨h1, h2⟩ := ih h.2
    refine ⟨by omega, ?_⟩
    intro e' he'
    rcases List.mem_cons.mp he' with rfl | he'
    · omega
    · have := h2 e' he'
      omega

/-- Every bit from `pos` to the span's end lies in an entry (10_state R42 condition 4). -/
theorem tilesFrom_cover {span pos : Nat} {es : List Entry} (h : tilesFrom span pos es = true) (i : Nat)
    (h1 : pos ≤ i) (h2 : i < span) : ∃ e ∈ es, e.off ≤ i ∧ i < e.off + e.width * e.count := by
  induction es generalizing pos with
  | nil => simp [tilesFrom] at h; omega
  | cons e es ih =>
    simp only [tilesFrom, Bool.and_eq_true, decide_eq_true_eq] at h
    by_cases hi : i < pos + e.width * e.count
    · exact ⟨e, List.mem_cons_self, by omega, by omega⟩
    · obtain ⟨e', he', h3⟩ := ih h.2 (by omega)
      exact ⟨e', List.mem_cons_of_mem _ he', h3⟩

/-- A bit of an entry's span is a bit of one of its elements (43_field_mapper R160). -/
theorem entry_bit_elem {e : Entry} (i : Nat) (hw : 1 ≤ e.width) (h1 : e.off ≤ i)
    (h2 : i < e.off + e.width * e.count) :
    ∃ k, k < e.count ∧ elemOff e k ≤ i ∧ i < elemOff e k + e.width := by
  refine ⟨(i - e.off) / e.width, ?_, ?_, ?_⟩
  · exact Nat.div_lt_of_lt_mul (by omega)
  · unfold elemOff
    have := Nat.div_mul_le_self (i - e.off) e.width
    omega
  · unfold elemOff
    have := Nat.lt_div_mul_add (a := i - e.off) (b := e.width) (by omega)
    omega

theorem elemOff_bounds {e : Entry} {k : Nat} (hk : k < e.count) :
    e.off ≤ elemOff e k ∧ elemOff e k + e.width ≤ e.off + e.width * e.count := by
  unfold elemOff
  have : (k + 1) * e.width ≤ e.count * e.width := Nat.mul_le_mul_right _ hk
  rw [Nat.succ_mul, Nat.mul_comm e.count] at this
  omega

theorem elemVal_lt (S : List Byte) (e : Entry) (k : Nat) : elemVal S e k < 2 ^ e.width := getBits_lt _ _ _

/-! ### FIELD_DECODE -/

theorem checkValue_ok_iff {j k : Nat} {e : Entry} {v : Int} {x : Unit} :
    checkValue j e k v = .ok x ↔ Constraint.Holds e.cons v := by
  unfold checkValue
  rw [← Constraint.admits_iff]
  split <;> simp_all

theorem checkValue_error_iff {j k : Nat} {e : Entry} {v : Int} {err : ErrorRecord} :
    checkValue j e k v = .error err ↔ ¬ Constraint.Holds e.cons v ∧ err = valueError j e k v := by
  unfold checkValue
  rw [← Constraint.admits_iff]
  split
  · rename_i h
    simp [h]
  · rename_i h
    simp only [Except.error.injEq, h, Bool.false_eq_true, not_false_eq_true, true_and]
    exact eq_comm

theorem decodeElems_ok_iff {S : List Byte} {j : Nat} {e : Entry} {k n : Nat} {vs : List Int} :
    decodeElems S j e k n = .ok vs ↔
      (∀ i, k ≤ i → i < k + n → Constraint.Holds e.cons (elemVal S e i)) ∧
        vs = (List.range' k n).map (fun i => (elemVal S e i : Int)) := by
  induction n generalizing k vs with
  | zero =>
    simp only [decodeElems, List.range'_zero, List.map_nil]
    constructor
    · intro h; cases h; exact ⟨fun i h1 h2 => by omega, rfl⟩
    · rintro ⟨-, rfl⟩; rfl
  | succ n ih =>
    unfold decodeElems
    split
    · rename_i err he
      simp only [reduceCtorEq, false_iff, not_and]
      intro h
      exact absurd (h k (by omega) (by omega)) (checkValue_error_iff.mp he).1
    · rename_i x hok
      have hk := checkValue_ok_iff.mp hok
      rw [List.range'_succ, List.map_cons]
      constructor
      · intro h
        cases hr : decodeElems S j e (k + 1) n with
        | error err => rw [hr] at h; cases h
        | ok ws =>
          rw [hr] at h
          obtain ⟨h1, h2⟩ := ih.mp hr
          cases h
          refine ⟨?_, by rw [h2]⟩
          intro i hi1 hi2
          by_cases hik : i = k
          · subst hik; exact hk
          · exact h1 i (by omega) (by omega)
      · rintro ⟨h1, rfl⟩
        rw [ih.mpr ⟨fun i hi1 hi2 => h1 i (by omega) (by omega), rfl⟩]
        rfl

theorem decodeElems_error {S : List Byte} {j : Nat} {e : Entry} {k n i : Nat} (h1 : k ≤ i) (h2 : i < k + n)
    (hb : ∀ i', k ≤ i' → i' < i → Constraint.Holds e.cons (elemVal S e i'))
    (hf : ¬ Constraint.Holds e.cons (elemVal S e i)) :
    decodeElems S j e k n = .error (valueError j e i (elemVal S e i)) := by
  induction n generalizing k with
  | zero => omega
  | succ n ih =>
    unfold decodeElems
    by_cases hik : k = i
    · subst hik
      rw [checkValue_error_iff.mpr ⟨hf, rfl⟩]
    · rw [checkValue_ok_iff (x := ()).mpr (hb k (by omega) (by omega))]
      simp only
      rw [ih (by omega) (by omega) (fun i' h3 h4 => hb i' (by omega) h4)]
      rfl

theorem decodeElems_error_kind {S : List Byte} {j : Nat} {e : Entry} {k n : Nat} {err : ErrorRecord}
    (h : decodeElems S j e k n = .error err) : ∃ i v, err = valueError j e i v := by
  induction n generalizing k with
  | zero => simp [decodeElems] at h
  | succ n ih =>
    unfold decodeElems at h
    split at h
    · rename_i err' he
      cases h
      exact ⟨_, _, (checkValue_error_iff.mp he).2⟩
    · cases hr : decodeElems S j e (k + 1) n with
      | error err' => rw [hr] at h; cases h; exact ih hr
      | ok ws => rw [hr] at h; cases h

/-- The patch after one entry. -/
def putEntry (S : List Byte) (m : Patch) (e : Entry) : Patch :=
  match e.kind with
  | .reserved => m
  | .scalar => putNamed m e.name (entryValue S e)
  | .array => putNamed m e.name (entryValue S e)

theorem decodeEntry_ok_iff {c : Config} {S : List Byte} {j : Nat} {e : Entry} {m m' : Patch} :
    decodeEntry c S j e m = .ok m' ↔ EntryDecodes c S e ∧ m' = putEntry S m e := by
  unfold decodeEntry EntryDecodes putEntry entryValue
  cases hk : e.kind with
  | reserved =>
    simp only
    split
    · rename_i h
      simp only [reduceCtorEq, false_iff, not_and]
      intro h'
      exact absurd (h' h.1) h.2
    · rename_i h
      constructor
      · intro h'; cases h'
        refine ⟨fun hp => ?_, rfl⟩
        by_contra hne
        exact h ⟨hp, hne⟩
      · rintro ⟨-, rfl⟩; rfl
  | scalar =>
    simp only
    cases hc : checkValue j e 0 (elemVal S e 0) with
    | error err =>
      simp only [Except.map, reduceCtorEq, false_iff, not_and]
      intro h
      exact absurd h (checkValue_error_iff.mp hc).1
    | ok x =>
      have := checkValue_ok_iff.mp hc
      simp only [Except.map, Except.ok.injEq]
      constructor
      · rintro rfl; exact ⟨this, rfl⟩
      · rintro ⟨-, rfl⟩; rfl
  | array =>
    simp only
    cases hc : decodeElems S j e 0 e.count with
    | error err =>
      simp only [Except.map, reduceCtorEq, false_iff, not_and]
      intro h
      have := (decodeElems_ok_iff (j := j) (vs := (List.range' 0 e.count).map (fun i => (elemVal S e i : Int)))).mpr
        ⟨fun i _ hi => h i (by omega), rfl⟩
      rw [this] at hc
      cases hc
    | ok vs =>
      obtain ⟨h1, rfl⟩ := decodeElems_ok_iff.mp hc
      simp only [Except.map, Except.ok.injEq, ← List.range_eq_range']
      constructor
      · rintro rfl; exact ⟨fun k hk' => h1 k (by omega) (by omega), rfl⟩
      · rintro ⟨-, rfl⟩; rfl

theorem decodeEntry_error_kind {c : Config} {S : List Byte} {j : Nat} {e : Entry} {m : Patch} {err : ErrorRecord}
    (h : decodeEntry c S j e m = .error err) :
    (∃ cause, err.kind = .validation cause) ∧ err.index = j := by
  have hv : ∀ k v, (∃ cause, (valueError j e k v).kind = .validation cause) ∧ (valueError j e k v).index = j := by
    intro k v
    unfold valueError
    cases e.cons <;> exact ⟨⟨_, rfl⟩, rfl⟩
  unfold decodeEntry at h
  cases hk : e.kind with
  | reserved =>
    simp only [hk] at h
    split at h
    · cases h; exact ⟨⟨_, rfl⟩, rfl⟩
    · cases h
  | scalar =>
    simp only [hk] at h
    cases hc : checkValue j e 0 (elemVal S e 0) with
    | error err' => rw [hc] at h; cases h; rw [(checkValue_error_iff.mp hc).2]; exact hv _ _
    | ok x => rw [hc] at h; cases h
  | array =>
    simp only [hk] at h
    cases hc : decodeElems S j e 0 e.count with
    | error err' =>
      rw [hc] at h; cases h
      obtain ⟨i, v, rfl⟩ := decodeElems_error_kind hc
      exact hv _ _
    | ok x => rw [hc] at h; cases h

theorem decodeEntries_ok_iff {c : Config} {S : List Byte} {j : Nat} {es : List Entry} {m m' : Patch} :
    decodeEntries c S j es m = .ok m' ↔ (∀ e ∈ es, EntryDecodes c S e) ∧ m' = es.foldl (putEntry S) m := by
  induction es generalizing j m with
  | nil =>
    simp only [decodeEntries, Except.ok.injEq, List.foldl_nil, List.not_mem_nil, false_implies, implies_true, true_and]
    exact eq_comm
  | cons e es ih =>
    unfold decodeEntries
    split
    · rename_i err he
      simp only [reduceCtorEq, false_iff, not_and]
      intro h
      have := (decodeEntry_ok_iff (j := j) (m := m)).mpr ⟨h e List.mem_cons_self, rfl⟩
      rw [this] at he
      cases he
    · rename_i m1 he
      obtain ⟨h1, rfl⟩ := decodeEntry_ok_iff.mp he
      rw [ih, List.foldl_cons]
      constructor
      · rintro ⟨h2, h3⟩
        refine ⟨fun e' he' => ?_, h3⟩
        rcases List.mem_cons.mp he' with rfl | he'
        · exact h1
        · exact h2 e' he'
      · rintro ⟨h2, h3⟩
        exact ⟨fun e' he' => h2 e' (List.mem_cons_of_mem _ he'), h3⟩

/-- The first failing entry is the one reported (43_field_mapper R162). -/
theorem decodeEntries_error {c : Config} {S : List Byte} {j n : Nat} {es : List Entry} {m : Patch} {e : Entry}
    {err : ErrorRecord} (hn : es[n]? = some e)
    (hb : ∀ i e', i < n → es[i]? = some e' → EntryDecodes c S e')
    (he : ∀ m, decodeEntry c S (j + n) e m = .error err) : decodeEntries c S j es m = .error err := by
  induction es generalizing j n m with
  | nil => simp at hn
  | cons a as ih =>
    unfold decodeEntries
    cases n with
    | zero =>
      simp at hn; subst hn
      rw [show decodeEntry c S j a m = .error err from he m]
    | succ n =>
      rw [decodeEntry_ok_iff.mpr ⟨hb 0 a (by omega) (by simp), rfl⟩]
      exact ih (by simpa using hn) (fun i e' hi h => hb (i + 1) e' (by omega) (by simpa using h))
        (fun m => by rw [show j + 1 + n = j + (n + 1) by omega]; exact he m)

theorem decodeEntries_error_kind {c : Config} {S : List Byte} {j : Nat} {es : List Entry} {m : Patch}
    {err : ErrorRecord} (h : decodeEntries c S j es m = .error err) :
    (∃ cause, err.kind = .validation cause) ∧ err.index < j + es.length := by
  induction es generalizing j m with
  | nil => simp [decodeEntries] at h
  | cons a as ih =>
    unfold decodeEntries at h
    split at h
    · rename_i err' he
      cases h
      obtain ⟨h1, h2⟩ := decodeEntry_error_kind he
      exact ⟨h1, by rw [h2]; simp⟩
    · obtain ⟨h1, h2⟩ := ih h
      exact ⟨h1, by rw [List.length_cons]; omega⟩

theorem foldl_putEntry {S : List Byte} {es : List Entry} (hn : ∀ e ∈ es, e.kind = .reserved → e.name = none) (m : Patch) :
    es.foldl (putEntry S) m =
      (es.filterMap (fun e => e.name.map (fun k => (k, entryValue S e)))).foldl (fun acc p => Patch.put acc p.1 p.2) m := by
  induction es generalizing m with
  | nil => rfl
  | cons e es ih =>
    rw [List.foldl_cons, ih (fun e' he' => hn e' (List.mem_cons_of_mem _ he'))]
    have hp : putEntry S m e = putNamed m e.name (entryValue S e) := by
      unfold putEntry
      cases hk : e.kind
      · rfl
      · rfl
      · rw [hn e List.mem_cons_self hk]; rfl
    rw [hp]
    cases hname : e.name with
    | none => simp [hname, putNamed]
    | some k => simp [hname, putNamed]

/-- What FIELD_DECODE accepts, and the patch it gives (43_field_mapper R164, R166). -/
theorem fieldDecode_ok_iff {c : Config} (hc : schemaWellFormed c.spanBits c.schema = true) {S : List Byte} {m : Patch} :
    fieldDecode c S = .ok m ↔ StreamOk c S ∧ m = decodedPatch c S := by
  have hfold := foldl_putEntry (S := S) (es := c.schema)
    (fun e he hk => Entry.name_none (schemaWellFormed_entry hc he).2.1 hk) []
  unfold fieldDecode StreamOk decodedPatch Patch.normal
  rw [← hfold]
  split
  · simp_all
  · rename_i h
    simp only [ne_eq, not_not] at h
    rw [decodeEntries_ok_iff]
    simp [h]

theorem fieldDecode_error {c : Config} {S : List Byte} {err : ErrorRecord} (h : fieldDecode c S = .error err) :
    ((∃ cause, err.kind = .format cause) ∧ err.index = 0xFFFF) ∨
      ((∃ cause, err.kind = .validation cause) ∧ err.index < c.schema.length) := by
  unfold fieldDecode at h
  split at h
  · cases h; exact .inl ⟨⟨_, rfl⟩, rfl⟩
  · have := decodeEntries_error_kind h
    exact .inr ⟨this.1, by simpa using this.2⟩

/-! ### FIELD_ENCODE: the checks -/

theorem checkElems_ok_iff {j k : Nat} {e : Entry} {vs : List Int} {x : Unit} :
    checkElems j e k vs = .ok x ↔ ∀ v ∈ vs, Constraint.Holds e.cons v := by
  induction vs generalizing k with
  | nil => simp [checkElems]
  | cons v vs ih =>
    unfold checkElems
    split
    · rename_i err he
      have := (checkValue_error_iff.mp he).1
      simp [this]
    · rename_i y he
      have := checkValue_ok_iff.mp he
      simp [ih, this]

theorem checkElems_error {j k n : Nat} {e : Entry} {vs : List Int} {v : Int} (hn : vs[n]? = some v)
    (hb : ∀ n' v', n' < n → vs[n']? = some v' → Constraint.Holds e.cons v') (hf : ¬ Constraint.Holds e.cons v) :
    checkElems j e k vs = .error (valueError j e (k + n) v) := by
  induction vs generalizing k n with
  | nil => simp at hn
  | cons a as ih =>
    unfold checkElems
    cases n with
    | zero =>
      simp at hn; subst hn
      rw [checkValue_error_iff.mpr ⟨hf, rfl⟩]
      rfl
    | succ n =>
      rw [checkValue_ok_iff (x := ()).mpr (hb 0 a (by omega) (by simp))]
      simp only
      rw [ih (by simpa using hn) (fun n' v' hn' h => hb (n' + 1) v' (by omega) (by simpa using h))]
      rw [show k + 1 + n = k + (n + 1) by omega]

theorem checkElems_error_kind {j k : Nat} {e : Entry} {vs : List Int} {err : ErrorRecord}
    (h : checkElems j e k vs = .error err) : ∃ i v, err = valueError j e i v := by
  induction vs generalizing k with
  | nil => simp [checkElems] at h
  | cons v vs ih =>
    unfold checkElems at h
    split at h
    · rename_i err' he
      cases h
      exact ⟨_, _, (checkValue_error_iff.mp he).2⟩
    · exact ih h

/-- Pass 1 finds nothing for an entry exactly if its value is there, has its shape and passes its constraint
(43_field_mapper R167). -/
theorem checkEntry_ok_iff {m : Patch} {j : Nat} {e : Entry} {x : Unit} :
    checkEntry m j e = .ok x ↔ EntryEncodes m e := by
  unfold checkEntry EntryEncodes findNamed
  cases hk : e.kind with
  | reserved => simp
  | scalar =>
    cases hn : e.name with
    | none => simp
    | some k =>
      simp only [ne_eq, reduceCtorEq, not_false_eq_true, forall_const, Option.some.injEq]
      cases hf : Patch.find m k with
      | none => simp [hf]
      | some pv =>
        cases pv with
        | scalar v =>
          simp only [checkValue_ok_iff]
          constructor
          · intro h; exact ⟨k, _, rfl, hf, by simp [ShapeFits, hk], by simpa [PValue.ints] using h⟩
          · rintro ⟨k', pv, rfl, h1, h2, h3⟩
            rw [hf] at h1; cases h1
            simpa [PValue.ints] using h3
        | array vs =>
          simp only [reduceCtorEq, false_iff]
          rintro ⟨k', pv, rfl, h1, h2, h3⟩
          rw [hf] at h1; cases h1
          simp [ShapeFits, hk] at h2
  | array =>
    cases hn : e.name with
    | none => simp
    | some k =>
      simp only [ne_eq, reduceCtorEq, not_false_eq_true, forall_const, Option.some.injEq]
      cases hf : Patch.find m k with
      | none => simp [hf]
      | some pv =>
        cases pv with
        | scalar v =>
          simp only [reduceCtorEq, false_iff]
          rintro ⟨k', pv, rfl, h1, h2, h3⟩
          rw [hf] at h1; cases h1
          simp [ShapeFits, hk] at h2
        | array vs =>
          simp only
          split
          · rename_i hl
            simp only [reduceCtorEq, false_iff]
            rintro ⟨k', pv, rfl, h1, h2, h3⟩
            rw [hf] at h1; cases h1
            simp [ShapeFits, hk] at h2
            exact hl h2
          · rename_i hl
            rw [checkElems_ok_iff]
            constructor
            · intro h
              exact ⟨k, _, rfl, hf, by simpa [ShapeFits, hk] using hl, by simpa [PValue.ints] using h⟩
            · rintro ⟨k', pv, rfl, h1, h2, h3⟩
              rw [hf] at h1; cases h1
              simpa [PValue.ints] using h3

theorem checkEntries_ok_iff {m : Patch} {j : Nat} {es : List Entry} {x : Unit} :
    checkEntries m j es = .ok x ↔ ∀ e ∈ es, EntryEncodes m e := by
  induction es generalizing j with
  | nil => simp [checkEntries]
  | cons e es ih =>
    unfold checkEntries
    split
    · rename_i err he
      simp only [reduceCtorEq, false_iff]
      intro h
      rw [checkEntry_ok_iff (x := ()).mpr (h e List.mem_cons_self)] at he
      cases he
    · rename_i y he
      rw [ih]
      have := checkEntry_ok_iff.mp he
      simp [this]

/-- The first failing entry is the one reported (43_field_mapper R167). -/
theorem checkEntries_error {m : Patch} {j n : Nat} {es : List Entry} {e : Entry} {err : ErrorRecord}
    (hn : es[n]? = some e) (hb : ∀ i e', i < n → es[i]? = some e' → EntryEncodes m e')
    (he : checkEntry m (j + n) e = .error err) : checkEntries m j es = .error err := by
  induction es generalizing j n with
  | nil => simp at hn
  | cons a as ih =>
    unfold checkEntries
    cases n with
    | zero =>
      simp at hn; subst hn
      rw [show checkEntry m j a = .error err from he]
    | succ n =>
      rw [checkEntry_ok_iff (x := ()).mpr (hb 0 a (by omega) (by simp))]
      exact ih (by simpa using hn) (fun i e' hi h => hb (i + 1) e' (by omega) (by simpa using h))
        (by rw [show j + 1 + n = j + (n + 1) by omega]; exact he)

theorem checkEntry_error_kind {m : Patch} {j : Nat} {e : Entry} {err : ErrorRecord}
    (h : checkEntry m j e = .error err) :
    ((∃ cause, err.kind = .validation cause) ∨ err.kind = .missingField) ∧ err.index = j := by
  have hv : ∀ k v, ((∃ cause, (valueError j e k v).kind = .validation cause) ∨ (valueError j e k v).kind = .missingField) ∧
      (valueError j e k v).index = j := by
    intro k v
    unfold valueError
    cases e.cons <;> exact ⟨.inl ⟨_, rfl⟩, rfl⟩
  unfold checkEntry at h
  cases hk : e.kind with
  | reserved => simp [hk] at h
  | scalar =>
    simp only [hk] at h
    split at h
    · cases h; exact ⟨.inr rfl, rfl⟩
    · rw [(checkValue_error_iff.mp h).2]; exact hv _ _
    · cases h; exact ⟨.inl ⟨_, rfl⟩, rfl⟩
  | array =>
    simp only [hk] at h
    split at h
    · cases h; exact ⟨.inr rfl, rfl⟩
    · cases h; exact ⟨.inl ⟨_, rfl⟩, rfl⟩
    · split at h
      · cases h; exact ⟨.inl ⟨_, rfl⟩, rfl⟩
      · obtain ⟨i, v, rfl⟩ := checkElems_error_kind h
        exact hv _ _

theorem checkEntries_error_kind {m : Patch} {j : Nat} {es : List Entry} {err : ErrorRecord}
    (h : checkEntries m j es = .error err) :
    ((∃ cause, err.kind = .validation cause) ∨ err.kind = .missingField) ∧ err.index < j + es.length := by
  induction es generalizing j with
  | nil => simp [checkEntries] at h
  | cons e es ih =>
    unfold checkEntries at h
    split at h
    · rename_i err' he
      cases h
      obtain ⟨h1, h2⟩ := checkEntry_error_kind he
      exact ⟨h1, by rw [h2]; simp⟩
    · obtain ⟨h1, h2⟩ := ih h
      exact ⟨h1, by rw [List.length_cons]; omega⟩

theorem entryOf_none_iff {c : Config} {k : Name} : (entryOf c.schema k).isNone = true ↔ ¬ KeyKnown c k := by
  unfold entryOf KeyKnown
  simp only [Option.isNone_iff_eq_none, List.findIdx?_eq_none_iff, Bool.and_eq_false_iff, decide_eq_false_iff_not,
    not_exists, not_and, ne_eq, not_not]
  constructor
  · intro h e he hk hn
    rcases h e he with h | h
    · exact hk h
    · exact h hn
  · intro h e he
    by_cases hk : e.kind = .reserved
    · exact .inl hk
    · exact .inr (h e he hk)

theorem mem_unknownKeys {c : Config} {m : Patch} {k : Name} :
    k ∈ unknownKeys c m ↔ k ∈ m.keys ∧ ¬ KeyKnown c k := by
  unfold unknownKeys
  rw [List.mem_filter, entryOf_none_iff]

/-- What FIELD_ENCODE accepts, and the stream it writes (43_field_mapper R170). -/
theorem fieldEncode_ok_iff {c : Config} {m : Patch} {S : List Byte} :
    fieldEncode c m = .ok S ↔ PatchOk c m ∧ S = writeEntries c m := by
  unfold fieldEncode PatchOk
  split
  · rename_i err he
    simp only [reduceCtorEq, false_iff]
    rintro ⟨⟨h, -⟩, -⟩
    rw [checkEntries_ok_iff (x := ()).mpr h] at he
    cases he
  · rename_i x he
    have h1 := checkEntries_ok_iff.mp he
    split
    · rename_i k hk
      have := mem_unknownKeys.mp (leastName_some.mp hk).1
      simp only [reduceCtorEq, false_iff]
      rintro ⟨⟨-, h⟩, -⟩
      exact this.2 (h k this.1)
    · rename_i hk
      have hnil := leastName_none.mp hk
      have h2 : ∀ k ∈ m.keys, KeyKnown c k := by
        intro k hk'
        by_contra hu
        have := mem_unknownKeys.mpr ⟨hk', hu⟩
        rw [hnil] at this
        cases this
      constructor
      · intro h; cases h; exact ⟨⟨h1, h2⟩, rfl⟩
      · rintro ⟨-, rfl⟩; rfl

theorem fieldEncode_unknown {c : Config} {m : Patch} {k : Name} (h1 : ∀ e ∈ c.schema, EntryEncodes m e)
    (hk : k ∈ m.keys) (hu : ¬ KeyKnown c k)
    (hle : ∀ k' ∈ m.keys, ¬ KeyKnown c k' → k' = k ∨ k.lt k' = true) :
    fieldEncode c m = .error { kind := .unknownField, name := some k } := by
  unfold fieldEncode
  rw [checkEntries_ok_iff (x := ()).mpr h1]
  simp only
  rw [leastName_some.mpr ⟨mem_unknownKeys.mpr ⟨hk, hu⟩, fun k' hk' =>
    hle k' (mem_unknownKeys.mp hk').1 (mem_unknownKeys.mp hk').2⟩]

theorem fieldEncode_entry_error {c : Config} {m : Patch} {n : Nat} {e : Entry} {err : ErrorRecord}
    (hn : c.schema[n]? = some e) (hb : ∀ i e', i < n → c.schema[i]? = some e' → EntryEncodes m e')
    (he : checkEntry m n e = .error err) : fieldEncode c m = .error err := by
  unfold fieldEncode
  rw [checkEntries_error hn hb (by rw [Nat.zero_add]; exact he)]

theorem fieldEncode_error {c : Config} {m : Patch} {err : ErrorRecord} (h : fieldEncode c m = .error err) :
    (((∃ cause, err.kind = .validation cause) ∨ err.kind = .missingField) ∧ err.index < c.schema.length) ∨
      (err.kind = .unknownField ∧ err.index = 0xFFFF) := by
  unfold fieldEncode at h
  split at h
  · rename_i err' he
    cases h
    have := checkEntries_error_kind he
    exact .inl ⟨this.1, by simpa using this.2⟩
  · split at h
    · cases h; exact .inr ⟨rfl, rfl⟩
    · cases h

/-! ### FIELD_ENCODE: the writes -/

@[simp] theorem writeElems_length (e : Entry) (S : List Byte) (k : Nat) (vs : List Int) :
    (writeElems e S k vs).length = S.length := by
  induction vs generalizing S k with
  | nil => rfl
  | cons v vs ih => rw [writeElems, ih, putBits_length]

@[simp] theorem writeEntry_length (m : Patch) (S : List Byte) (e : Entry) : (writeEntry m S e).length = S.length := by
  unfold writeEntry
  repeat' split
  all_goals simp

/-- The writes of an array leave every bit outside its elements. -/
theorem writeElems_outside {e : Entry} {S : List Byte} {k : Nat} {vs : List Int} {i : Nat}
    (hl : elemOff e (k + vs.length) ≤ 8 * S.length) (ho : i < elemOff e k ∨ elemOff e (k + vs.length) ≤ i) :
    bitS (writeElems e S k vs) i = bitS S i := by
  have hstep : ∀ n, elemOff e (n + 1) = elemOff e n + e.width := fun n => by unfold elemOff; ring
  have hmono : ∀ n d, elemOff e n ≤ elemOff e (n + d) := fun n d => by
    unfold elemOff; have := Nat.mul_le_mul_right e.width (Nat.le_add_right n d); omega
  induction vs generalizing S k with
  | nil => rfl
  | cons v vs ih =>
    rw [List.length_cons, show k + (vs.length + 1) = k + 1 + vs.length by omega] at hl ho
    have h1 := hstep k
    have h2 := hmono (k + 1) vs.length
    rw [writeElems, ih (by rw [putBits_length]; exact hl) (by omega), bitS_putBits _ _ _ _ _ (by omega),
      if_neg (by omega)]

/-- The writes of an array give its elements their values. -/
theorem writeElems_elem {e : Entry} {S : List Byte} {k : Nat} {vs : List Int} {n : Nat} {v : Int}
    (hl : elemOff e (k + vs.length) ≤ 8 * S.length) (hn : vs[n]? = some v) (hv : v.toNat < 2 ^ e.width) :
    elemVal (writeElems e S k vs) e (k + n) = v.toNat := by
  have hstep : ∀ n, elemOff e (n + 1) = elemOff e n + e.width := fun n => by unfold elemOff; ring
  have hmono : ∀ n d, elemOff e n ≤ elemOff e (n + d) := fun n d => by
    unfold elemOff; have := Nat.mul_le_mul_right e.width (Nat.le_add_right n d); omega
  induction vs generalizing S k n with
  | nil => simp at hn
  | cons a as ih =>
    rw [List.length_cons, show k + (as.length + 1) = k + 1 + as.length by omega] at hl
    have h1 := hstep k
    have h2 := hmono (k + 1) as.length
    rw [writeElems]
    cases n with
    | zero =>
      simp at hn; subst hn
      rw [Nat.add_zero, elemVal, getBits_eq_of_bitS (S' := putBits S (elemOff e k) e.width a.toNat) ?_]
      · exact getBits_putBits_same _ _ _ _ (by omega) hv
      · intro i hi1 hi2
        rw [Nat.add_zero] at hi1 hi2
        exact writeElems_outside (by rw [putBits_length]; exact hl) (.inl (by omega))
    | succ n =>
      rw [show k + (n + 1) = k + 1 + n by omega]
      exact ih (by rw [putBits_length]; exact hl) (by simpa using hn)

/-- Writing an entry leaves every bit outside its span (10_state R40). -/
theorem writeEntry_outside {m : Patch} {S : List Byte} {e : Entry} {i : Nat} (he : EntryEncodes m e)
    (hs : e.sizeOk = true) (hl : e.off + e.width * e.count ≤ 8 * S.length)
    (ho : i < e.off ∨ e.off + e.width * e.count ≤ i) : bitS (writeEntry m S e) i = bitS S i := by
  unfold writeEntry
  cases hk : e.kind with
  | reserved => rfl
  | scalar =>
    have hc := Entry.count_one hs (by simp [hk])
    rw [hc, Nat.mul_one] at hl ho
    simp only
    split
    · rw [bitS_putBits _ _ _ _ _ hl, if_neg (by omega)]
    · rfl
    · rfl
  | array =>
    obtain ⟨k, pv, h1, h2, h3, h4⟩ := he (by simp [hk])
    simp only [findNamed, h1, h2]
    cases pv with
    | scalar v => rfl
    | array vs =>
      have hlen : vs.length = e.count := by simpa [ShapeFits, hk] using h3
      have ha : elemOff e (0 + vs.length) = e.off + e.width * e.count := by
        unfold elemOff; rw [hlen]; ring
      have hb : elemOff e 0 = e.off := by unfold elemOff; ring
      exact writeElems_outside (by rw [ha]; exact hl) (by rw [ha, hb]; exact ho)

/-- The elements of a written entry hold the patch's values. -/
def EntryHolds (m : Patch) (S : List Byte) (e : Entry) : Prop :=
  match e.kind with
  | .reserved => elemVal S e 0 = 0
  | .scalar => ∀ k v, e.name = some k → Patch.find m k = some (.scalar v) → (elemVal S e 0 : Int) = v
  | .array =>
    ∀ k vs, e.name = some k → Patch.find m k = some (.array vs) →
      ∀ i v, vs[i]? = some v → (elemVal S e i : Int) = v

theorem streamHolds_iff {c : Config} {m : Patch} {S : List Byte} :
    StreamHolds c m S ↔ S.length = c.unpLen ∧ ∀ e ∈ c.schema, EntryHolds m S e := Iff.rfl

/-- An entry's elements depend on its own bits alone. -/
theorem elemVal_eq_of_bitS {S S' : List Byte} {e : Entry} {k : Nat} (hk : k < e.count)
    (h : ∀ i, e.off ≤ i → i < e.off + e.width * e.count → bitS S i = bitS S' i) : elemVal S e k = elemVal S' e k := by
  have := elemOff_bounds hk
  exact getBits_eq_of_bitS fun i h1 h2 => h i (by omega) (by omega)

theorem EntryHolds_of_bitS {m : Patch} {S S' : List Byte} {e : Entry} (he : EntryEncodes m e) (hs : e.sizeOk = true)
    (h : ∀ i, e.off ≤ i → i < e.off + e.width * e.count → bitS S i = bitS S' i) (hh : EntryHolds m S e) :
    EntryHolds m S' e := by
  unfold EntryHolds at hh ⊢
  cases hk : e.kind with
  | reserved =>
    simp only [hk] at hh ⊢
    rw [← elemVal_eq_of_bitS (by rw [Entry.count_one hs (by simp [hk])]; omega) h]
    exact hh
  | scalar =>
    simp only [hk] at hh ⊢
    rw [← elemVal_eq_of_bitS (by rw [Entry.count_one hs (by simp [hk])]; omega) h]
    exact hh
  | array =>
    simp only [hk] at hh ⊢
    intro k vs h1 h2 i v h3
    obtain ⟨k', pv, h1', h2', h3', -⟩ := he (by simp [hk])
    rw [h1] at h1'; cases h1'
    rw [h2] at h2'; cases h2'
    have hlen : vs.length = e.count := by simpa [ShapeFits, hk] using h3'
    rw [← elemVal_eq_of_bitS (by rw [← hlen]; exact (List.getElem?_eq_some_iff.mp h3).1) h]
    exact hh k vs h1 h2 i v h3

theorem writeEntry_holds {m : Patch} {S : List Byte} {e : Entry} (he : EntryEncodes m e) (hs : e.sizeOk = true)
    (hc : e.consOk = true) (hl : e.off + e.width * e.count ≤ 8 * S.length)
    (hz : ∀ i, e.off ≤ i → i < e.off + e.width * e.count → bitS S i = false) :
    EntryHolds m (writeEntry m S e) e := by
  unfold EntryHolds writeEntry
  cases hk : e.kind with
  | reserved =>
    simp only
    have hb : ∀ i, e.off ≤ i → i < e.off + e.width * e.count → bitS S i = bitS (zeros 0) i :=
      fun i h1 h2 => by rw [hz i h1 h2, bitS_zeros]
    rw [elemVal_eq_of_bitS (by rw [Entry.count_one hs (by simp [hk])]; omega) hb, elemVal, getBits_zeros]
  | scalar =>
    simp only
    intro k v h1 h2
    obtain ⟨k', pv, h1', h2', -, h4⟩ := he (by simp [hk])
    rw [h1] at h1'; cases h1'
    rw [h2] at h2'; cases h2'
    have hfit := Entry.holds_fits hc (by simp [hk]) (h4 v (by simp [PValue.ints]))
    rw [Entry.count_one hs (by simp [hk]), Nat.mul_one] at hl
    simp only [findNamed, h1, h2]
    have : elemOff e 0 = e.off := by unfold elemOff; ring
    rw [elemVal, this, getBits_putBits_same _ _ _ _ hl hfit.2]
    omega
  | array =>
    simp only
    intro k vs h1 h2 i v h3
    obtain ⟨k', pv, h1', h2', h3', h4⟩ := he (by simp [hk])
    rw [h1] at h1'; cases h1'
    rw [h2] at h2'; cases h2'
    have hlen : vs.length = e.count := by simpa [ShapeFits, hk] using h3'
    have hfit := Entry.holds_fits hc (by simp [hk]) (h4 v (by simpa [PValue.ints] using List.mem_of_getElem? h3))
    simp only [findNamed, h1, h2]
    have ha : elemOff e (0 + vs.length) = e.off + e.width * e.count := by
      unfold elemOff; rw [hlen]; ring
    have := writeElems_elem (S := S) (k := 0) (by rw [ha]; exact hl) h3 hfit.2
    rw [Nat.zero_add] at this
    rw [this]
    omega

/-- The writes of the entries from bit `pos` on: the bits below are left, and every entry holds the patch. -/
theorem foldl_writeEntry {m : Patch} {span pos : Nat} {es : List Entry} {S : List Byte}
    (ht : tilesFrom span pos es = true) (hl : span ≤ 8 * S.length)
    (hw : ∀ e ∈ es, EntryEncodes m e ∧ e.sizeOk = true ∧ e.consOk = true)
    (hz : ∀ i, pos ≤ i → bitS S i = false) :
    (es.foldl (writeEntry m) S).length = S.length ∧
      (∀ i, i < pos → bitS (es.foldl (writeEntry m) S) i = bitS S i) ∧
      ∀ e ∈ es, EntryHolds m (es.foldl (writeEntry m) S) e := by
  induction es generalizing S pos with
  | nil => simp
  | cons e es ih =>
    have hb := tilesFrom_bounds ht
    simp only [tilesFrom, Bool.and_eq_true, decide_eq_true_eq] at ht
    obtain ⟨h1, h2, h3⟩ := hw e List.mem_cons_self
    have hbe := hb.2 e List.mem_cons_self
    have hout : ∀ i, i < e.off ∨ e.off + e.width * e.count ≤ i → bitS (writeEntry m S e) i = bitS S i :=
      fun i => writeEntry_outside h1 h2 (by omega)
    obtain ⟨ih1, ih2, ih3⟩ := ih (S := writeEntry m S e) ht.2 (by rw [writeEntry_length]; exact hl)
      (fun e' he' => hw e' (List.mem_cons_of_mem _ he'))
      (fun i hi => by rw [hout i (.inr (by omega))]; exact hz i (by omega))
    rw [List.foldl_cons]
    refine ⟨by rw [ih1, writeEntry_length], ?_, ?_⟩
    · intro i hi
      rw [ih2 i (by omega), hout i (.inl (by omega))]
    · intro e' he'
      rcases List.mem_cons.mp he' with rfl | he'
      · exact EntryHolds_of_bitS h1 h2 (fun i hi1 hi2 => (ih2 i (by omega)).symm)
          (writeEntry_holds h1 h2 h3 (by omega) (fun i hi1 _ => hz i (by omega)))
      · exact ih3 e' he'

/-- What FIELD_ENCODE writes holds the patch (43_field_mapper R170). -/
theorem writeEntries_holds {c : Config} (hc : schemaWellFormed c.spanBits c.schema = true) {m : Patch}
    (hm : PatchOk c m) : StreamHolds c m (writeEntries c m) := by
  have h := foldl_writeEntry (m := m) (S := zeros c.unpLen) (schemaWellFormed_tiles hc)
    (by rw [zeros_length]; exact Nat.le_refl _)
    (fun e he => ⟨hm.1 e he, (schemaWellFormed_entry hc he).1, (schemaWellFormed_entry hc he).2.2⟩)
    (fun i _ => bitS_zeros _ _)
  exact streamHolds_iff.mpr ⟨by rw [writeEntries, h.1, zeros_length], h.2.2⟩

/-- Only one stream holds a patch: the entries cover every bit (10_state R42). -/
theorem StreamHolds_unique {c : Config} (hc : schemaWellFormed c.spanBits c.schema = true) {m : Patch}
    (hm : PatchOk c m) {S S' : List Byte} (h : StreamHolds c m S) (h' : StreamHolds c m S') : S = S' := by
  rw [streamHolds_iff] at h h'
  refine eq_of_bitS (by rw [h.1, h'.1]) fun i hi => ?_
  obtain ⟨e, he, h1, h2⟩ := tilesFrom_cover (schemaWellFormed_tiles hc) i (by omega)
    (by rw [h.1] at hi; exact hi)
  obtain ⟨hs, hn, hcons⟩ := schemaWellFormed_entry hc he
  obtain ⟨k, hk, h3, h4⟩ := entry_bit_elem i (Entry.width_bounds hs).1 h1 h2
  suffices hv : elemVal S e k = elemVal S' e k from bitS_of_getBits hv i h3 h4
  have ha := h.2 e he
  have hb := h'.2 e he
  unfold EntryHolds at ha hb
  cases hkind : e.kind with
  | reserved =>
    simp only [hkind] at ha hb
    have := Entry.count_one hs (by simp [hkind])
    rw [show k = 0 by omega, ha, hb]
  | scalar =>
    simp only [hkind] at ha hb
    have := Entry.count_one hs (by simp [hkind])
    obtain ⟨n, pv, h5, h6, h7, -⟩ := hm.1 e he (by simp [hkind])
    cases pv with
    | array vs => simp [ShapeFits, hkind] at h7
    | scalar v =>
      have := ha n v h5 h6
      have := hb n v h5 h6
      rw [show k = 0 by omega]
      omega
  | array =>
    simp only [hkind] at ha hb
    obtain ⟨n, pv, h5, h6, h7, -⟩ := hm.1 e he (by simp [hkind])
    cases pv with
    | scalar v => simp [ShapeFits, hkind] at h7
    | array vs =>
      have hlen : vs.length = e.count := by simpa [ShapeFits, hkind] using h7
      have h8 : vs[k]? = some vs[k] := List.getElem?_eq_getElem (by omega)
      have := ha n vs h5 h6 k _ h8
      have := hb n vs h5 h6 k _ h8
      omega

/-! ### The decoded patch as a map -/

theorem decodedPatch_keys_nodup {c : Config} (hc : schemaWellFormed c.spanBits c.schema = true) (S : List Byte) :
    (Patch.keys (c.schema.filterMap (fun e => e.name.map (fun k => (k, entryValue S e))))).Nodup := by
  have : Patch.keys (c.schema.filterMap (fun e => e.name.map (fun k => (k, entryValue S e)))) = schemaNames c.schema := by
    unfold Patch.keys schemaNames
    rw [List.map_filterMap]
    congr 1
    funext e
    cases e.name <;> rfl
  rw [this]
  exact schemaWellFormed_names hc

/-- Two entries of one name are one entry (10_state R43). -/
theorem schema_entry_unique {es : List Entry} (hd : (schemaNames es).Nodup) {e e' : Entry} {k : Name}
    (he : e ∈ es) (he' : e' ∈ es) (hk : e.name = some k) (hk' : e'.name = some k) : e = e' := by
  induction es with
  | nil => cases he
  | cons a as ih =>
    have hmem : ∀ x ∈ as, x.name = some k → k ∈ schemaNames as := fun x hx hxk =>
      List.mem_filterMap.mpr ⟨x, hx, hxk⟩
    have hd' : (schemaNames as).Nodup := by
      unfold schemaNames at hd ⊢
      rw [List.filterMap_cons] at hd
      split at hd
      · exact hd
      · exact (List.nodup_cons.mp hd).2
    have hnot : a.name = some k → k ∉ schemaNames as := by
      intro ha
      unfold schemaNames at hd ⊢
      rw [List.filterMap_cons_some ha] at hd
      exact (List.nodup_cons.mp hd).1
    rcases List.mem_cons.mp he with h1 | h1 <;> rcases List.mem_cons.mp he' with h2 | h2
    · rw [h1, h2]
    · exact absurd (hmem _ h2 hk') (hnot (h1 ▸ hk))
    · exact absurd (hmem _ h1 hk) (hnot (h2 ▸ hk'))
    · exact ih hd' h1 h2

theorem find_of_mem {m : Patch} (hd : m.keys.Nodup) {k : Name} {v : PValue} (h : (k, v) ∈ m) : m.find k = some v := by
  induction m with
  | nil => cases h
  | cons p m ih =>
    obtain ⟨q, w⟩ := p
    have hd' : q ∉ Patch.keys m ∧ (Patch.keys m).Nodup := by simpa [Patch.keys] using hd
    rcases List.mem_cons.mp h with h | h
    · cases h; simp [Patch.find]
    · have : q ≠ k := by
        rintro rfl
        exact hd'.1 (List.mem_map.mpr ⟨_, h, rfl⟩)
      simp only [Patch.find, if_neg this]
      exact ih hd'.2 h

/-- The value of an entry's name in the decoded patch (43_field_mapper R164). -/
theorem find_decodedPatch {c : Config} (hc : schemaWellFormed c.spanBits c.schema = true) {S : List Byte} {e : Entry}
    {k : Name} (he : e ∈ c.schema) (hk : e.name = some k) :
    Patch.find (decodedPatch c S) k = some (entryValue S e) := by
  have hd := decodedPatch_keys_nodup hc S
  unfold decodedPatch
  rw [Patch.find_normal _ _ hd]
  exact find_of_mem hd (List.mem_filterMap.mpr ⟨e, he, by simp [hk]⟩)

theorem mem_keys_decodedPatch {c : Config} (hc : schemaWellFormed c.spanBits c.schema = true) {S : List Byte} {k : Name} :
    k ∈ Patch.keys (decodedPatch c S) ↔ KeyKnown c k := by
  have hd := decodedPatch_keys_nodup hc S
  rw [← Patch.find_isSome_iff]
  constructor
  · intro h
    unfold decodedPatch at h
    rw [Patch.find_normal _ _ hd, Patch.find_isSome_iff] at h
    obtain ⟨p, hp, rfl⟩ := List.mem_map.mp h
    obtain ⟨e, he, hpe⟩ := List.mem_filterMap.mp hp
    rw [Option.map_eq_some_iff] at hpe
    obtain ⟨k, hk, rfl⟩ := hpe
    refine ⟨e, he, ?_, hk⟩
    intro hr
    rw [Entry.name_none (schemaWellFormed_entry hc he).2.1 hr] at hk
    cases hk
  · rintro ⟨e, he, -, hk⟩
    rw [find_decodedPatch hc he hk]
    rfl

theorem wf_decodedPatch (c : Config) (S : List Byte) : Patch.wf (decodedPatch c S) = true := Patch.wf_normal _

/-- A decoded patch passes both passes of FIELD_ENCODE (43_field_mapper R165). -/
theorem decodedPatch_ok {c : Config} (hc : schemaWellFormed c.spanBits c.schema = true) {S : List Byte}
    (hS : StreamOk c S) : PatchOk c (decodedPatch c S) := by
  refine ⟨?_, fun k hk => (mem_keys_decodedPatch hc).mp hk⟩
  intro e he hk
  obtain ⟨k, hname⟩ := Entry.name_some (schemaWellFormed_entry hc he).2.1 hk
  refine ⟨k, entryValue S e, hname, find_decodedPatch hc he hname, ?_, ?_⟩
  · unfold ShapeFits entryValue
    cases hkind : e.kind <;> simp [hkind] at hk ⊢
  · have := hS.2 e he
    unfold EntryDecodes at this
    unfold entryValue
    cases hkind : e.kind with
    | reserved => exact absurd hkind hk
    | scalar =>
      simp only [hkind] at this
      simpa [PValue.ints] using this
    | array =>
      simp only [hkind] at this
      simp only [PValue.ints, List.mem_map, List.mem_range]
      rintro v ⟨i, hi, rfl⟩
      exact this i hi

/-- Under CHECK the stream a patch was decoded from holds it (43_field_mapper R163, R171). -/
theorem StreamHolds_decodedPatch {c : Config} (hc : schemaWellFormed c.spanBits c.schema = true) {S : List Byte}
    (hS : StreamOk c S) (hz : ∀ e ∈ c.schema, e.kind = .reserved → elemVal S e 0 = 0) :
    StreamHolds c (decodedPatch c S) S := by
  refine streamHolds_iff.mpr ⟨hS.1, fun e he => ?_⟩
  unfold EntryHolds
  cases hkind : e.kind with
  | reserved => exact hz e he hkind
  | scalar =>
    intro k v h1 h2
    rw [find_decodedPatch hc he h1] at h2
    simp only [entryValue, hkind, Option.some.injEq, PValue.scalar.injEq] at h2
    exact h2
  | array =>
    intro k vs h1 h2 i v h3
    rw [find_decodedPatch hc he h1] at h2
    simp only [entryValue, hkind, Option.some.injEq, PValue.array.injEq] at h2
    subst h2
    rw [List.getElem?_map, Option.map_eq_some_iff] at h3
    obtain ⟨x, hx, rfl⟩ := h3
    rw [List.getElem?_eq_some_iff] at hx
    obtain ⟨hx1, rfl⟩ := hx
    simp

/-- The stream that holds a patch passes FIELD_DECODE's checks (43_field_mapper R171). -/
theorem StreamOk_of_holds {c : Config} {m : Patch} {S : List Byte}
    (hm : PatchOk c m) (h : StreamHolds c m S) : StreamOk c S := by
  rw [streamHolds_iff] at h
  refine ⟨h.1, fun e he => ?_⟩
  have ha := h.2 e he
  unfold EntryHolds at ha
  unfold EntryDecodes
  cases hkind : e.kind with
  | reserved => simp only [hkind] at ha; exact fun _ => ha
  | scalar =>
    simp only [hkind] at ha
    obtain ⟨n, pv, h5, h6, h7, h8⟩ := hm.1 e he (by simp [hkind])
    cases pv with
    | array vs => simp [ShapeFits, hkind] at h7
    | scalar v => simp only; rw [ha n v h5 h6]; exact h8 v (by simp [PValue.ints])
  | array =>
    simp only [hkind] at ha
    obtain ⟨n, pv, h5, h6, h7, h8⟩ := hm.1 e he (by simp [hkind])
    cases pv with
    | scalar v => simp [ShapeFits, hkind] at h7
    | array vs =>
      have hlen : vs.length = e.count := by simpa [ShapeFits, hkind] using h7
      intro k hk
      have hget : vs[k]? = some vs[k] := List.getElem?_eq_getElem (by omega)
      rw [ha n vs h5 h6 k _ hget]
      exact h8 _ (by simp [PValue.ints])

/-- The stream that holds a canonical patch decodes to it (43_field_mapper R171). -/
theorem decodedPatch_of_holds {c : Config} (hc : schemaWellFormed c.spanBits c.schema = true) {m : Patch}
    {S : List Byte} (hwf : Patch.wf m = true) (hm : PatchOk c m) (h : StreamHolds c m S) : decodedPatch c S = m := by
  rw [streamHolds_iff] at h
  refine Patch.ext_find (wf_decodedPatch c S) hwf fun k => ?_
  by_cases hk : KeyKnown c k
  · obtain ⟨e, he, hr, hname⟩ := hk
    obtain ⟨n, pv, h5, h6, h7, -⟩ := hm.1 e he hr
    rw [hname] at h5; cases h5
    rw [find_decodedPatch hc he hname, h6]
    have ha := h.2 e he
    unfold EntryHolds at ha
    unfold entryValue
    cases hkind : e.kind with
    | reserved => exact absurd hkind hr
    | scalar =>
      simp only [hkind] at ha
      cases pv with
      | array vs => simp [ShapeFits, hkind] at h7
      | scalar v => simp only; rw [ha k v hname h6]
    | array =>
      simp only [hkind] at ha
      cases pv with
      | scalar v => simp [ShapeFits, hkind] at h7
      | array vs =>
        have hlen : vs.length = e.count := by simpa [ShapeFits, hkind] using h7
        simp only [Option.some.injEq, PValue.array.injEq]
        apply List.ext_getElem?
        intro i
        rw [List.getElem?_map]
        by_cases hi : i < vs.length
        · rw [List.getElem?_range (by omega), Option.map_some,
            ha k vs hname h6 i _ (List.getElem?_eq_getElem hi), List.getElem?_eq_getElem hi]
        · rw [List.getElem?_eq_none (by simp; omega), List.getElem?_eq_none (by omega)]
          rfl
  · have h1 : Patch.find (decodedPatch c S) k = none := by
      have := mt (mem_keys_decodedPatch hc (S := S)).mp hk
      rw [← Patch.find_isSome_iff] at this
      simpa using this
    have h2 : Patch.find m k = none := by
      have := mt (hm.2 k) hk
      rw [← Patch.find_isSome_iff] at this
      simpa using this
    rw [h1, h2]

end Sys2Proof.Machine
end

