-- ==== Sys2Proof/Laws/State.lean ====
section
/-! SUPPORT. What every update of State leaves in every field: one lemma a field an update. -/

namespace Sys2Proof.Machine

/-! ### raise -/

@[simp] theorem State.raise_cfg (s : State) (e : ErrorRecord) : (s.raise e).cfg = s.cfg := rfl
@[simp] theorem State.raise_status (s : State) (e : ErrorRecord) :
    (s.raise e).status = statusRaised s.status := rfl
@[simp] theorem State.raise_errCode (s : State) (e : ErrorRecord) :
    (s.raise e).errCode = errCodeWord e.kind := rfl
@[simp] theorem State.raise_errIndex (s : State) (e : ErrorRecord) :
    (s.raise e).errIndex = errIndexWord e.elem e.index := rfl
@[simp] theorem State.raise_errOffset (s : State) (e : ErrorRecord) :
    (s.raise e).errOffset = BitVec.ofNat 32 e.offset := rfl
@[simp] theorem State.raise_errExpected (s : State) (e : ErrorRecord) :
    (s.raise e).errExpected = BitVec.ofNat 32 e.expected := rfl
@[simp] theorem State.raise_errActual (s : State) (e : ErrorRecord) :
    (s.raise e).errActual = BitVec.ofNat 32 e.actual := rfl
@[simp] theorem State.raise_errName (s : State) (e : ErrorRecord) : (s.raise e).errName = e.name := rfl
@[simp] theorem State.raise_ckValue (s : State) (e : ErrorRecord) : (s.raise e).ckValue = s.ckValue := rfl
@[simp] theorem State.raise_ckByte (s : State) (e : ErrorRecord) : (s.raise e).ckByte = s.ckByte := rfl
@[simp] theorem State.raise_mem (s : State) (e : ErrorRecord) : (s.raise e).mem = s.mem := rfl
@[simp] theorem State.raise_patch (s : State) (e : ErrorRecord) : (s.raise e).patch = s.patch := rfl
@[simp] theorem State.raise_pending (s : State) (e : ErrorRecord) : (s.raise e).pending = s.pending := rfl
@[simp] theorem State.raise_answer (s : State) (e : ErrorRecord) : (s.raise e).answer = s.answer := rfl

/-! ### complete -/

@[simp] theorem State.complete_cfg (s : State) (u : Updates) : (s.complete u).cfg = s.cfg := rfl
@[simp] theorem State.complete_status (s : State) (u : Updates) :
    (s.complete u).status = statusCompleted s.status u.verifyOk := rfl
@[simp] theorem State.complete_errCode (s : State) (u : Updates) : (s.complete u).errCode = 0#32 := rfl
@[simp] theorem State.complete_errIndex (s : State) (u : Updates) : (s.complete u).errIndex = 0xFFFF#32 := rfl
@[simp] theorem State.complete_errOffset (s : State) (u : Updates) : (s.complete u).errOffset = 0#32 := rfl
@[simp] theorem State.complete_errExpected (s : State) (u : Updates) :
    (s.complete u).errExpected = 0#32 := rfl
@[simp] theorem State.complete_errActual (s : State) (u : Updates) : (s.complete u).errActual = 0#32 := rfl
@[simp] theorem State.complete_errName (s : State) (u : Updates) : (s.complete u).errName = none := rfl
@[simp] theorem State.complete_ckValue (s : State) (u : Updates) :
    (s.complete u).ckValue = (u.ckValue.map (BitVec.setWidth 32)).getD s.ckValue := rfl
@[simp] theorem State.complete_ckByte (s : State) (u : Updates) :
    (s.complete u).ckByte = (u.ckByte.map (BitVec.setWidth 32)).getD s.ckByte := rfl
@[simp] theorem State.complete_frame (s : State) (u : Updates) :
    (s.complete u).mem.frame = u.frame.getD s.mem.frame := rfl
@[simp] theorem State.complete_pkd (s : State) (u : Updates) :
    (s.complete u).mem.pkd = u.pkd.getD s.mem.pkd := rfl
@[simp] theorem State.complete_unp (s : State) (u : Updates) :
    (s.complete u).mem.unp = u.unp.getD s.mem.unp := rfl
@[simp] theorem State.complete_patch (s : State) (u : Updates) :
    (s.complete u).patch = u.patch.getD s.patch := rfl
@[simp] theorem State.complete_pending (s : State) (u : Updates) : (s.complete u).pending = s.pending := rfl
@[simp] theorem State.complete_answer (s : State) (u : Updates) : (s.complete u).answer = s.answer := rfl

/-! ### buffers -/

@[simp] theorem Memory.buf_setBuf_same (m : Memory) (x : BufName) (l : List Byte) :
    (m.setBuf x l).buf x = l := by cases x <;> rfl

theorem Memory.buf_setBuf_other (m : Memory) {x y : BufName} (l : List Byte) (h : y ≠ x) :
    (m.setBuf x l).buf y = m.buf y := by
  cases x <;> cases y <;> first | rfl | exact absurd rfl h

/-- Equal buffers under every name are equal memories. -/
theorem Memory.ext_buf {m m' : Memory} (h : ∀ x, m.buf x = m'.buf x) : m = m' := by
  obtain ⟨f, p, u⟩ := m
  obtain ⟨f', p', u'⟩ := m'
  have hf : f = f' := h .frame
  have hp : p = p' := h .pkd
  have hu : u = u' := h .unp
  rw [hf, hp, hu]

/-! ### reset -/

@[simp] theorem State.resetWith_cfg (c : Config) : (State.resetWith c).cfg = c := rfl
@[simp] theorem State.resetWith_mem (c : Config) : (State.resetWith c).mem = ⟨[], [], []⟩ := rfl
@[simp] theorem State.resetWith_patch (c : Config) : (State.resetWith c).patch = [] := rfl
@[simp] theorem State.resetWith_status (c : Config) : (State.resetWith c).status = 0#32 := rfl
@[simp] theorem State.resetWith_errCode (c : Config) : (State.resetWith c).errCode = 0#32 := rfl
@[simp] theorem State.resetWith_errIndex (c : Config) : (State.resetWith c).errIndex = 0xFFFF#32 := rfl
@[simp] theorem State.resetWith_errOffset (c : Config) : (State.resetWith c).errOffset = 0#32 := rfl
@[simp] theorem State.resetWith_errExpected (c : Config) : (State.resetWith c).errExpected = 0#32 := rfl
@[simp] theorem State.resetWith_errActual (c : Config) : (State.resetWith c).errActual = 0#32 := rfl
@[simp] theorem State.resetWith_errName (c : Config) : (State.resetWith c).errName = none := rfl
@[simp] theorem State.resetWith_ckValue (c : Config) : (State.resetWith c).ckValue = 0#32 := rfl
@[simp] theorem State.resetWith_ckByte (c : Config) : (State.resetWith c).ckByte = 0#32 := rfl

end Sys2Proof.Machine
end

