-- ==== Sys2Proof/Laws/Ops.lean ====
section
/-! SUPPORT. One lemma for each shared operation that says once everything it can do. -/

namespace Sys2Proof.Machine

/-! ### finish -/

@[simp] theorem State.finish_error (s : State) (e : ErrorRecord) :
    s.finish (.error e) = .next (s.raise e) := rfl

@[simp] theorem State.finish_ok (s : State) (u : Updates) :
    s.finish (.ok u) = .next (s.complete u) := rfl

/-- A command's end: an error was raised, or the updates were applied. -/
theorem State.finish_cases {s t : State} {r : Result Updates} (h : s.finish r = .next t) :
    (∃ e, r = .error e ∧ t = s.raise e) ∨ (∃ u, r = .ok u ∧ t = s.complete u) := by
  cases r with
  | error e => exact .inl ⟨e, rfl, by simpa using h.symm⟩
  | ok u => exact .inr ⟨u, rfl, by simpa using h.symm⟩

/-- A command never stops: it ends in a next state. -/
theorem State.finish_next (s : State) (r : Result Updates) : ∃ t, s.finish r = .next t := by
  cases r <;> simp

/-! ### STATUS and ERR_CODE as words -/

theorem statusWord_done (d e v : Bool) : (statusWord d e v).getLsbD 0 = d := by
  cases d <;> cases e <;> cases v <;> decide

theorem statusWord_err (d e v : Bool) : (statusWord d e v).getLsbD 1 = e := by
  cases d <;> cases e <;> cases v <;> decide

theorem statusWord_verifyOk (d e v : Bool) : (statusWord d e v).getLsbD 2 = v := by
  cases d <;> cases e <;> cases v <;> decide

theorem statusWord_high (d e v : Bool) (i : Nat) (h : 3 ≤ i) : (statusWord d e v).getLsbD i = false := by
  by_cases hi : i < 32
  · have key : ∀ d e v : Bool, ∀ k : Fin 32, 3 ≤ k.val → (statusWord d e v).getLsbD k.val = false := by
      decide
    exact key d e v ⟨i, hi⟩ h
  · exact BitVec.getLsbD_of_ge _ _ (by omega)

@[simp] theorem State.raise_done (s : State) (e : ErrorRecord) : (s.raise e).done = false :=
  statusWord_done _ _ _
@[simp] theorem State.raise_err (s : State) (e : ErrorRecord) : (s.raise e).err = true :=
  statusWord_err _ _ _
@[simp] theorem State.raise_verifyOk (s : State) (e : ErrorRecord) : (s.raise e).verifyOk = s.verifyOk :=
  statusWord_verifyOk _ _ _
@[simp] theorem State.complete_done (s : State) (u : Updates) : (s.complete u).done = true :=
  statusWord_done _ _ _
@[simp] theorem State.complete_err (s : State) (u : Updates) : (s.complete u).err = false :=
  statusWord_err _ _ _
@[simp] theorem State.complete_verifyOk (s : State) (u : Updates) :
    (s.complete u).verifyOk = u.verifyOk.getD s.verifyOk := by
  show (statusWord true false _).getLsbD 2 = _
  rw [statusWord_verifyOk]
  rfl

/-- `raise` in the terms of the claims: the record of 60_exceptions R204. -/
theorem State.raise_eq_recorded (s : State) (e : ErrorRecord) (hi : e.index < 65536) :
    s.raise e = s.recorded e.kind.code e.kind.sub e.index e.elem e.offset e.expected e.actual e.name := by
  have hstatus : statusRaised s.status = if s.verifyOk then 0x00000006#32 else 0x00000002#32 := by
    show statusWord false true (s.status.getLsbD 2) = _
    unfold State.verifyOk
    cases s.status.getLsbD 2 <;> decide
  have hcode : errCodeWord e.kind = BitVec.ofNat 32 (e.kind.sub * 256 + e.kind.code) := by
    cases e.kind with
    | format cause => cases cause <;> decide
    | validation cause => cases cause <;> decide
    | deviceMismatch => decide
    | checksum => decide
    | missingField => decide
    | unknownField => decide
    | illegalCommand => decide
  have hindex : errIndexWord e.elem e.index = BitVec.ofNat 32 (e.elem * 65536 + e.index) := by
    unfold errIndexWord
    rw [← Nat.shiftLeft_add_eq_or_of_lt (by simpa using hi), Nat.shiftLeft_eq]
  simp only [State.raise, State.recorded, hstatus, hcode, hindex]

/-- `complete` in the terms of the claims: the record of 60_exceptions R205 and the listed updates. -/
theorem State.complete_eq_succeeded (s : State) (u : Updates) :
    s.complete u =
      { (s.succeeded (u.verifyOk.getD s.verifyOk)) with
        ckValue := (u.ckValue.map (BitVec.setWidth 32)).getD s.ckValue
        ckByte := (u.ckByte.map (BitVec.setWidth 32)).getD s.ckByte
        mem := ⟨u.frame.getD s.mem.frame, u.pkd.getD s.mem.pkd, u.unp.getD s.mem.unp⟩
        patch := u.patch.getD s.patch } := by
  have hstatus : statusCompleted s.status u.verifyOk =
      if u.verifyOk.getD s.verifyOk then 0x00000005#32 else 0x00000001#32 := by
    show statusWord true false (u.verifyOk.getD s.verifyOk) = _
    cases u.verifyOk.getD s.verifyOk <;> decide
  simp only [State.complete, State.succeeded, hstatus]

/-! ### Every command is a `finish` of a body -/

/-- The body of each command, over the operands 30_encoding R74 lists. -/
def bodyOf (i : Instr) (s : State) : Result Updates :=
  match i with
  | .frameParse => (frameParse s.cfg s.mem.frame).map (fun dc => { pkd := some dc.1, ckByte := some dc.2 })
  | .frameBuild => (frameBuild s.cfg s.mem.pkd s.ckByteField).map (fun F => { frame := some F })
  | .unpack => (unpack s.cfg s.mem.pkd).map (fun U => { unp := some U })
  | .pack => (pack s.cfg s.mem.unp).map (fun D => { pkd := some D })
  | .ckCompute => (ck s.cfg s.mem.pkd s.mem.unp).map (fun v => { ckValue := some v })
  | .ckVerify => (ck s.cfg s.mem.pkd s.mem.unp).map
      (fun v => { ckValue := some v, verifyOk := some (decide (v = s.ckByteField)) })
  | .ckAppend => (ck s.cfg s.mem.pkd s.mem.unp).map (fun v => { ckValue := some v, ckByte := some v })
  | .fieldDecode => (fieldDecode s.cfg s.mem.unp).map (fun m => { patch := some m })
  | .fieldEncode => (fieldEncode s.cfg s.patch).map (fun S => { unp := some S })
  | .decode => decodeFrame s.cfg s.mem.frame
  | .encode => encodePatch s.cfg s.patch

theorem exec_eq_finish (i : Instr) (s : State) : exec i s = s.finish (bodyOf i s) := by
  cases i <;> rfl

/-- What a command can do: raise the error of its body, or apply its body's updates. -/
theorem exec_cases {i : Instr} {s t : State} (h : exec i s = .next t) :
    (∃ e, bodyOf i s = .error e ∧ t = s.raise e) ∨ (∃ u, bodyOf i s = .ok u ∧ t = s.complete u) :=
  State.finish_cases (exec_eq_finish i s ▸ h)

/-! ### The host's actions -/

/-- What a step can do: nothing, for want of an action, or the first action of the run. -/
theorem step_cases {s t : State} (h : step s = .next t) :
    s.cfg.WF ∧ ((s.pending = [] ∧ t = s) ∨
      ∃ a rest, s.pending = a :: rest ∧
        hostAct a { s with pending := rest, answer := .nothing } = .next t) := by
  have hb : stepBody s = .next t := h
  unfold stepBody at hb
  split at hb
  · refine ⟨‹_›, ?_⟩
    split at hb
    · exact .inl ⟨‹_›, by simpa using hb.symm⟩
    · exact .inr ⟨_, _, ‹_›, hb⟩
  · cases hb

/-- What WriteBuf can do. -/
theorem writeBuf_cases {x : BufName} {l : List Int} {s t : State} (h : writeBuf x l s = .next t) :
    l.length ≤ s.cfg.bufMax ∧ ∃ bs, bytesOf l = some bs ∧ t = { s with mem := s.mem.setBuf x bs } := by
  unfold writeBuf at h
  split at h
  · cases h
  · refine ⟨by omega, ?_⟩
    split at h
    · cases h
    · exact ⟨_, ‹_›, by simpa using h.symm⟩

/-- What RegWrite can do: run a command, or write CK_BYTE or nothing. -/
theorem regWrite_cases {n : Nat} {v : Word} {s t : State} (h : regWrite n v s = .next t) :
    (n = 0 ∧ runCommand v s = .next t) ∨ (n ≠ 0 ∧ n < 16 ∧ t = s.writeReg n v) := by
  unfold regWrite at h
  split at h
  · cases h
  · split at h
    · exact .inl ⟨‹_›, h⟩
    · exact .inr ⟨‹_›, by omega, by simpa using h.symm⟩

/-- What a CMD write can do: run the command its word decodes to, or record IllegalCommand. -/
theorem runCommand_cases {w : Word} {s t : State} (h : runCommand w s = .next t) :
    (∃ i, decode w = some i ∧ exec i s = .next t) ∨
      (decode w = none ∧ t = s.raise (illegalCommand w)) := by
  unfold runCommand at h
  split at h
  · exact .inl ⟨_, ‹_›, h⟩
  · exact .inr ⟨‹_›, by simpa using h.symm⟩

/-- What RegRead can do. -/
theorem regRead_cases {n : Nat} {s t : State} (h : regRead n s = .next t) :
    n < 16 ∧ t = { s with answer := .word (s.readReg n) } := by
  unfold regRead at h
  split at h
  · cases h
  · exact ⟨by omega, by simpa using h.symm⟩

/-- A RegWrite to a register other than CMD and CK_BYTE changes nothing. -/
theorem State.writeReg_ignored (s : State) (n : Nat) (v : Word) (h : n ≠ 8) : s.writeReg n v = s := by
  unfold State.writeReg
  split
  · exact absurd rfl h
  · rfl

@[simp] theorem State.writeReg_ckByte (s : State) (v : Word) :
    s.writeReg 8 v = { s with ckByte := (v.setWidth 7).setWidth 32 } := rfl

/-! ### The canonical form of memory -/

/-- Reading one byte of a buffer that was not replaced. -/
theorem Memory.memRead_setBuf_other (m : Memory) {x y : BufName} (l : List Byte) (h : y ≠ x) (i : Nat) :
    (m.setBuf x l).memRead y i = m.memRead y i := by
  simp only [Memory.memRead, Memory.buf_setBuf_other m l h]

/-- Reading one byte of the buffer that was replaced. -/
theorem Memory.memRead_setBuf_same (m : Memory) (x : BufName) (l : List Byte) (i : Nat) :
    (m.setBuf x l).memRead x i = l[i]? := by
  simp only [Memory.memRead, Memory.buf_setBuf_same]

theorem Memory.wf_iff (n : Nat) (m : Memory) : m.wf n = true ↔ ∀ x, (m.buf x).length ≤ n := by
  constructor
  · intro h x
    simp only [Memory.wf, Bool.and_eq_true, decide_eq_true_eq] at h
    cases x
    · exact h.1.1
    · exact h.1.2
    · exact h.2
  · intro h
    simp only [Memory.wf, Bool.and_eq_true, decide_eq_true_eq]
    exact ⟨⟨h .frame, h .pkd⟩, h .unp⟩

/-- Replacing a buffer by a list of at most BUF_MAX bytes keeps the form. -/
theorem Memory.wf_setBuf {n : Nat} {m : Memory} {x : BufName} {l : List Byte} (hm : m.wf n = true)
    (hl : l.length ≤ n) : (m.setBuf x l).wf n = true := by
  rw [Memory.wf_iff] at hm ⊢
  intro y
  by_cases h : y = x
  · subst h; simpa using hl
  · rw [Memory.buf_setBuf_other m l h]; exact hm y

/-- Completing a command whose new buffers have at most BUF_MAX bytes keeps the form. -/
theorem Memory.wf_complete {n : Nat} {s : State} {u : Updates} (hm : s.mem.wf n = true)
    (hf : ∀ l, u.frame = some l → l.length ≤ n) (hp : ∀ l, u.pkd = some l → l.length ≤ n)
    (hu : ∀ l, u.unp = some l → l.length ≤ n) : (s.complete u).mem.wf n = true := by
  have part : ∀ (o : Option (List Byte)) (old : List Byte), old.length ≤ n →
      (∀ l, o = some l → l.length ≤ n) → (o.getD old).length ≤ n := by
    intro o old hold h
    cases o with
    | none => exact hold
    | some l => exact h l rfl
  rw [Memory.wf_iff] at hm ⊢
  intro x
  cases x with
  | frame => exact part _ _ (hm .frame) hf
  | pkd => exact part _ _ (hm .pkd) hp
  | unp => exact part _ _ (hm .unp) hu

/-- Recording an error leaves memory alone, so it keeps the form. -/
theorem Memory.wf_raise {n : Nat} {s : State} (e : ErrorRecord) (hm : s.mem.wf n = true) :
    (s.raise e).mem.wf n = true := hm

/-- The reset memory has the form. -/
theorem Memory.wf_reset : State.reset.mem.wf State.reset.cfg.bufMax = true := by decide

end Sys2Proof.Machine
end

