-- ==== Sys2Proof/Laws/Framer.lean ====
section
/-! SUPPORT. What FRAME_PARSE and FRAME_BUILD accept, give and raise. -/

namespace Sys2Proof.Machine

/-! ### frames -/

theorem frameOf_length (c : Config) (D : List Byte) (C : Byte) :
    (frameOf c D C).length = c.idLen + D.length + 3 := by
  simp [frameOf, Config.idLen]; omega

/-- A list of at least two bytes is its first byte, its interior and its last byte. -/
theorem eq_ends_interior {F : List Byte} (h : 2 ≤ F.length) :
    F = F.getD 0 0#8 :: slice F 1 (F.length - 1) ++ [F.getD (F.length - 1) 0#8] := by
  apply List.ext_getElem?
  intro i
  rcases Nat.lt_trichotomy i (F.length - 1) with hi | hi | hi
  · cases i with
    | zero => simp [List.getD_eq_getElem?_getD]; rw [List.getElem?_eq_getElem (by omega)]; simp
    | succ k =>
      rw [List.cons_append, List.getElem?_cons_succ, List.getElem?_append_left (by rw [slice_length _ _ _ (by omega)]; omega),
        slice_getElem? _ _ _ _ (by omega), Nat.add_comm]
  · subst hi
    rw [List.getElem?_append_right (by simp [slice_length]; omega)]
    simp only [List.length_cons, slice_length F 1 (F.length - 1) (by omega)]
    rw [show F.length - 1 - (F.length - 1 - 1 + 1) = 0 by omega]
    rw [List.getElem?_eq_getElem (by omega)]
    simp [List.getD_eq_getElem?_getD, List.getElem?_eq_getElem (show F.length - 1 < F.length by omega)]
  · rw [List.getElem?_eq_none (by omega), List.getElem?_eq_none (by simp [slice_length]; omega)]

theorem isHigh_false {b : Byte} : isHigh b = false ↔ b.toNat ≤ 0x7F := by
  simp [isHigh]; omega

theorem isHigh_true {b : Byte} : isHigh b = true ↔ 0x80 ≤ b.toNat := by
  simp [isHigh]

/-- What FRAME_PARSE accepts: exactly the frames of the layout with the device's identifiers and 7-bit bytes
between the markers (40_framer R100, R101). -/
theorem frameParse_ok_iff {c : Config} {F D : List Byte} {C : Ck} :
    frameParse c F = .ok (D, C) ↔
      ∃ b : Byte, F = frameOf c D b ∧ C = b.setWidth 7 ∧ b.toNat ≤ 0x7F ∧ ∀ x ∈ c.ident ++ D, x.toNat ≤ 0x7F := by
  constructor
  · intro h
    unfold frameParse at h
    simp only at h
    split at h
    · cases h
    rename_i hmin
    split at h
    · cases h
    rename_i hstart
    split at h
    · cases h
    rename_i hend
    split at h
    · cases h
    rename_i hhigh
    split at h
    · cases h
    rename_i hid
    simp only [ne_eq, not_not] at hstart hend
    have hlen : c.ident.length + 3 ≤ F.length := by
      simpa [Config.minFrameLen, Config.idLen] using hmin
    have hI := slice_length F 1 (F.length - 1) (by omega)
    rw [firstMismatch_none (by omega)] at hid
    rw [firstWhere_none] at hhigh
    have hF := eq_ends_interior (F := F) (by omega)
    rw [hstart, hend] at hF
    have hDC : slice F 1 (F.length - 1) = c.ident ++ slice F (1 + c.idLen) (F.length - 2) ++ [F.getD (F.length - 2) 0#8] := by
      apply List.ext_getElem?
      intro i
      by_cases h1 : i < c.ident.length
      · rw [List.append_assoc, List.getElem?_append_left h1]
        conv_rhs => rw [← hid]
        rw [List.getElem?_take_of_lt h1]
      · by_cases h2 : i < F.length - 3
        · rw [List.getElem?_append_left (by rw [List.length_append, slice_length _ _ _ (by omega), Config.idLen]; omega),
            List.getElem?_append_right (by omega), slice_getElem? _ _ _ _ (by omega), slice_getElem? _ _ _ _ (by rw [Config.idLen]; omega)]
          congr 1; rw [Config.idLen]; omega
        · by_cases h3 : i = F.length - 3
          · rw [List.getElem?_append_right (by rw [List.length_append, slice_length _ _ _ (by omega), Config.idLen]; omega),
              slice_getElem? _ _ _ _ (by omega), List.length_append, slice_length _ _ _ (by omega), Config.idLen]
            rw [show i - (c.ident.length + (F.length - 2 - (1 + c.ident.length))) = 0 by omega,
              show 1 + i = F.length - 2 by omega, List.getElem?_eq_getElem (by omega)]
            simp [List.getD_eq_getElem?_getD, List.getElem?_eq_getElem (show F.length - 2 < F.length by omega)]
          · rw [List.getElem?_eq_none (by omega), List.getElem?_eq_none]
            rw [List.length_append, List.length_append, slice_length _ _ _ (by omega), Config.idLen, List.length_singleton]
            omega
    simp only [Except.ok.injEq, Prod.mk.injEq] at h
    obtain ⟨rfl, rfl⟩ := h
    refine ⟨F.getD (F.length - 2) 0#8, ?_, rfl, ?_, ?_⟩
    · rw [hDC] at hF
      conv_lhs => rw [hF]
      simp [frameOf]
    · exact isHigh_false.mp (hhigh _ (by rw [hDC]; simp))
    · intro x hx
      exact isHigh_false.mp (hhigh _ (by rw [hDC]; exact List.mem_append_left _ hx))
  · rintro ⟨b, rfl, rfl, hb, hall⟩
    have hlen := frameOf_length c D b
    have hslice : slice (frameOf c D b) 1 ((frameOf c D b).length - 1) = c.ident ++ D ++ [b] := by
      have hd : (frameOf c D b).drop 1 = (c.ident ++ D ++ [b]) ++ [c.endByte] := by simp [frameOf]
      rw [slice_eq_drop_take, hlen, hd]
      rw [show c.idLen + D.length + 3 - 1 - 1 = (c.ident ++ D ++ [b]).length by simp [Config.idLen]; omega]
      rw [List.take_left]
    have hlast : ∀ k, k = c.idLen + D.length + 3 - 1 → (frameOf c D b).getD k 0#8 = c.endByte := by
      rintro k rfl
      rw [List.getD_eq_getElem?_getD, frameOf, List.getElem?_append_right (by simp [Config.idLen]; omega)]
      rw [show c.idLen + D.length + 3 - 1 - ([c.startByte] ++ c.ident ++ D ++ [b]).length = 0 by
        simp [Config.idLen]]
      rfl
    have hck : ∀ k, k = c.idLen + D.length + 3 - 2 → (frameOf c D b).getD k 0#8 = b := by
      rintro k rfl
      rw [List.getD_eq_getElem?_getD, frameOf, List.append_assoc, List.getElem?_append_right (by simp [Config.idLen])]
      rw [show c.idLen + D.length + 3 - 2 - ([c.startByte] ++ c.ident ++ D).length = 0 by
        simp [Config.idLen]]
      rfl
    unfold frameParse
    simp only
    rw [if_neg (by rw [hlen, Config.minFrameLen]; omega), if_neg (by simp [frameOf]), hslice]
    rw [if_neg (by rw [hlast _ (by rw [hlen])]; simp)]
    rw [firstWhere_none.mpr (by
      intro x hx
      rw [isHigh_false]
      rcases List.mem_append.mp hx with hx | hx
      · exact hall x hx
      · rw [List.mem_singleton.mp hx]; exact hb)]
    simp only
    rw [(firstMismatch_none (by simp [List.append_assoc])).mpr (by rw [List.append_assoc, List.take_left])]
    simp only [Except.ok.injEq, Prod.mk.injEq]
    constructor
    · rw [slice_eq_drop_take, hlen]
      have : (frameOf c D b).drop (1 + c.idLen) = D ++ ([b] ++ [c.endByte]) := by
        rw [frameOf, List.append_assoc, List.append_assoc,
          List.drop_left' (by simp [Config.idLen]; omega)]
      rw [this, show c.idLen + D.length + 3 - 2 - (1 + c.idLen) = D.length by omega, List.take_left]
    · rw [hck _ (by rw [hlen])]

/-- The errors of FRAME_PARSE are FORMAT and DEVICE_MISMATCH ones that concern no entry (60_exceptions R200). -/
theorem frameParse_error {c : Config} {F : List Byte} {e : ErrorRecord} (h : frameParse c F = .error e) :
    ((∃ cause, e.kind = .format cause) ∨ e.kind = .deviceMismatch) ∧ e.index = 0xFFFF := by
  unfold frameParse at h
  simp only at h
  repeat' split at h
  all_goals first
    | (cases h; exact ⟨.inl ⟨_, rfl⟩, rfl⟩)
    | (cases h; exact ⟨.inr rfl, rfl⟩)
    | cases h

theorem frameBuild_ok_iff {c : Config} {D F : List Byte} {C : Ck} :
    frameBuild c D C = .ok F ↔ D.length = c.pkdLen ∧ F = frameOf c D (C.setWidth 8) := by
  unfold frameBuild
  split
  · simp_all
  · simp_all [frameOf, eq_comm]

theorem frameBuild_error {c : Config} {D : List Byte} {C : Ck} {e : ErrorRecord} (h : frameBuild c D C = .error e) :
    D.length ≠ c.pkdLen ∧ e = formatError .payloadLength D.length c.pkdLen D.length := by
  unfold frameBuild at h
  split at h
  · cases h; exact ⟨‹_›, rfl⟩
  · cases h

/-- The data part of an accepted frame is shorter than the frame. -/
theorem frameParse_length {c : Config} {F D : List Byte} {C : Ck} (h : frameParse c F = .ok (D, C)) :
    F.length = c.idLen + D.length + 3 := by
  obtain ⟨b, rfl, -⟩ := frameParse_ok_iff.mp h
  exact frameOf_length c D b

end Sys2Proof.Machine
end

