-- ==== Sys2Proof/Laws/Packer.lean ====
section
/-! SUPPORT. What UNPACK and PACK accept, give and raise, and that their group functions are inverse. -/

namespace Sys2Proof.Machine

/-! ### Single bytes -/

theorem shiftRight_and_one (f : Byte) (p : Nat) : (f >>> p) &&& 1#8 = if f.getLsbD p then 1#8 else 0#8 := by
  apply BitVec.eq_of_getLsbD_eq
  intro i hi
  rw [BitVec.getLsbD_and, BitVec.getLsbD_ushiftRight, BitVec.getLsbD_one]
  by_cases h : i = 0
  · subst h
    cases f.getLsbD p <;> simp
  · cases f.getLsbD p <;> simp [h]

theorem getLsbD_seven (b : Byte) : b.getLsbD 7 = decide (0x80 ≤ b.toNat) := by
  revert b; decide +kernel

theorem high_ite (x : Bool) : (if x then 1#8 else 0#8) <<< 7 = if x then 0x80#8 else 0#8 := by
  cases x <;> decide

theorem or_high_low (b : Byte) (x : Bool) (h : b.toNat ≤ 0x7F) :
    (b ||| (if x then 0x80#8 else 0#8)) &&& 0x7F#8 = b ∧ (b ||| (if x then 0x80#8 else 0#8)).getLsbD 7 = x := by
  revert b x; decide +kernel

theorem low_or_high (u : Byte) : (u &&& 0x7F#8) ||| (if u.getLsbD 7 then 0x80#8 else 0#8) = u := by
  revert u; decide +kernel

theorem and_low_le (u : Byte) : (u &&& 0x7F#8).toNat ≤ 0x7F := by
  revert u; decide +kernel

theorem nibbles_le (u : Byte) : (u >>> 4).toNat ≤ 0x0F ∧ (u &&& 0x0F#8).toNat ≤ 0x0F := by
  revert u; decide +kernel

theorem nibbles_join (u : Byte) : ((u >>> 4) <<< 4) ||| (u &&& 0x0F#8) = u := by
  revert u; decide +kernel

theorem nibbles_split (a b : Byte) (ha : a.toNat ≤ 0x0F) (hb : b.toNat ≤ 0x0F) :
    ((a <<< 4) ||| b) >>> 4 = a ∧ ((a <<< 4) ||| b) &&& 0x0F#8 = b := by
  have key : ∀ x y : Fin 16, ((BitVec.ofNat 8 x.val <<< 4) ||| BitVec.ofNat 8 y.val) >>> 4 = BitVec.ofNat 8 x.val ∧
      ((BitVec.ofNat 8 x.val <<< 4) ||| BitVec.ofNat 8 y.val) &&& 0x0F#8 = BitVec.ofNat 8 y.val := by decide +kernel
  have := key ⟨a.toNat, by omega⟩ ⟨b.toNat, by omega⟩
  simpa using this

/-! ### FLAG7 groups -/

theorem unflag_length (o : FlagBitOrder) (f : Byte) (k : Nat) (bs : List Byte) :
    (unflag o f k bs).length = bs.length := by
  induction bs generalizing k with
  | nil => rfl
  | cons b bs ih => simp [unflag, ih]

theorem unflag_getElem? (o : FlagBitOrder) (f : Byte) (k i : Nat) (bs : List Byte) :
    (unflag o f k bs)[i]? = bs[i]?.map (fun b => b ||| (((f >>> flagPos o (k + i)) &&& 1#8) <<< 7)) := by
  induction bs generalizing k i with
  | nil => simp [unflag]
  | cons b bs ih =>
    cases i with
    | zero => simp [unflag]
    | succ i => simp only [unflag, List.getElem?_cons_succ, ih]; rw [show k + 1 + i = k + (i + 1) by omega]

/-- Bit p of the flag byte is set exactly if some logical byte with that flag bit has its bit 7 set. -/
theorem flagByte_getLsbD (o : FlagBitOrder) (k p : Nat) (us : List Byte) (hp : p < 8) :
    (flagByte o k us).getLsbD p = us.zipIdx.any (fun ui => ui.1.getLsbD 7 && decide (flagPos o (k + ui.2) = p)) := by
  have one : ∀ (x : Bool) (n : Nat), ((if x then 1#8 else 0#8) <<< n).getLsbD p = (x && decide (n = p)) := by
    intro x n
    cases x
    · simp
    · rw [if_pos rfl, BitVec.getLsbD_shiftLeft, BitVec.getLsbD_one]
      by_cases h : n = p
      · subst h; simp [hp]
      · by_cases h2 : p < n
        · simp [h, h2]
        · simp [h, h2, hp]; omega
  have gen : ∀ (us : List Byte) (k m : Nat), (flagByte o (k + m) us).getLsbD p =
      (us.zipIdx m).any (fun ui => ui.1.getLsbD 7 && decide (flagPos o (k + ui.2) = p)) := by
    intro us
    induction us with
    | nil => intro k m; simp [flagByte]
    | cons u us ih =>
      intro k m
      rw [flagByte, BitVec.getLsbD_or, shiftRight_and_one, one, List.zipIdx_cons, List.any_cons,
        show k + m + 1 = k + (m + 1) by omega, ih]
  simpa using gen us k 0

theorem length_seven {l : List Byte} (h : l.length = 7) :
    ∃ a b c d e f g, l = [a, b, c, d, e, f, g] := by
  match l, h with
  | [a, b, c, d, e, f, g], _ => exact ⟨a, b, c, d, e, f, g, rfl⟩

theorem flagByte_seven_low (o : FlagBitOrder) (us : List Byte) (hl : us.length = 7) :
    (flagByte o 0 us).getLsbD 7 = false := by
  rw [flagByte_getLsbD _ _ _ _ (by omega)]
  obtain ⟨a, b, c, d, e, f, g, rfl⟩ := length_seven hl
  cases o <;> simp [flagPos, List.zipIdx_cons]

theorem flagByte_seven_bit (o : FlagBitOrder) (us : List Byte) (k : Nat) (hl : us.length = 7) (hk : k < 7) :
    (flagByte o 0 us).getLsbD (flagPos o k) = (us.getD k 0#8).getLsbD 7 := by
  rw [flagByte_getLsbD _ _ _ _ (by cases o <;> simp [flagPos] <;> omega)]
  obtain ⟨a, b, c, d, e, f, g, rfl⟩ := length_seven hl
  cases o <;> interval_cases k <;> simp [flagPos, List.zipIdx_cons]

theorem packGroup_flag7_unpack {o : FlagBitOrder} {f : Byte} {bs : List Byte} (hl : bs.length = 7)
    (hf : f.toNat ≤ 0x7F) (hb : ∀ b ∈ bs, b.toNat ≤ 0x7F) :
    flagByte o 0 (unflag o f 0 bs) = f ∧ (unflag o f 0 bs).map (fun u => u &&& 0x7F#8) = bs := by
  have hel : ∀ i b, bs[i]? = some b → (unflag o f 0 bs)[i]? =
      some (b ||| (if f.getLsbD (flagPos o i) then 0x80#8 else 0#8)) := by
    intro i b hi
    rw [unflag_getElem?, hi]
    simp only [Option.map_some, Nat.zero_add, shiftRight_and_one, high_ite]
  constructor
  · apply BitVec.eq_of_getLsbD_eq
    intro p hp
    by_cases h7 : p = 7
    · subst h7
      rw [flagByte_seven_low _ _ (by rw [unflag_length, hl]), getLsbD_seven]
      simp; omega
    · have hpos : ∃ k, k < 7 ∧ flagPos o k = p := by
        cases o
        · exact ⟨p, by omega, rfl⟩
        · exact ⟨6 - p, by omega, by simp [flagPos]; omega⟩
      obtain ⟨k, hk, rfl⟩ := hpos
      rw [flagByte_seven_bit _ _ _ (by rw [unflag_length, hl]) hk, List.getD_eq_getElem?_getD,
        hel k bs[k] (List.getElem?_eq_getElem (by omega)), Option.getD_some]
      exact (or_high_low _ _ (hb _ (List.getElem_mem _))).2
  · apply List.ext_getElem?
    intro i
    rw [List.getElem?_map]
    by_cases hi : i < bs.length
    · rw [hel i bs[i] (List.getElem?_eq_getElem hi), List.getElem?_eq_getElem hi, Option.map_some]
      rw [(or_high_low _ _ (hb _ (List.getElem_mem _))).1]
    · rw [List.getElem?_eq_none (by rw [unflag_length]; omega), List.getElem?_eq_none (by omega)]
      rfl

theorem unflag_packed {o : FlagBitOrder} {us : List Byte} (hl : us.length = 7) :
    unflag o (flagByte o 0 us) 0 (us.map (fun u => u &&& 0x7F#8)) = us := by
  apply List.ext_getElem?
  intro i
  rw [unflag_getElem?, List.getElem?_map]
  by_cases hi : i < us.length
  · rw [List.getElem?_eq_getElem hi]
    simp only [Option.map_some, Nat.zero_add, shiftRight_and_one, high_ite]
    rw [flagByte_seven_bit _ _ _ hl (by omega), List.getD_eq_getElem?_getD, List.getElem?_eq_getElem hi,
      Option.getD_some, low_or_high]
  · rw [List.getElem?_eq_none (by omega)]
    rfl

/-! ### Groups of either scheme -/

theorem gp_pos (c : Config) : 0 < c.gp := by
  unfold Config.gp PackScheme.gp; cases c.packScheme <;> simp

theorem gl_pos (c : Config) : 0 < c.gl := by
  unfold Config.gl PackScheme.gl; cases c.packScheme <;> simp

theorem unpackGroup_length {c : Config} {g : List Byte} (h : g.length = c.gp) : (unpackGroup c g).length = c.gl := by
  unfold Config.gp PackScheme.gp at h
  unfold unpackGroup Config.gl PackScheme.gl
  cases hs : c.packScheme <;> simp only [hs] at h ⊢
  · match g, h with
    | f :: bs, h => simpa [unflag_length] using h
  · match g, h with
    | [a, b], _ => cases c.nibbleOrder <;> rfl

theorem packGroup_length {c : Config} {us : List Byte} (h : us.length = c.gl) : (packGroup c us).length = c.gp := by
  unfold Config.gl PackScheme.gl at h
  unfold packGroup Config.gp PackScheme.gp
  cases hs : c.packScheme <;> simp only [hs] at h ⊢
  · simp [h]
  · match us, h with
    | [u], _ => cases c.nibbleOrder <;> rfl

theorem isBadPacked_false {c : Config} {b : Byte} :
    isBadPacked c b = false ↔ match c.packScheme with
      | .flag7 => b.toNat ≤ 0x7F
      | .nibble => b.toNat ≤ 0x0F := by
  unfold isBadPacked isHigh
  cases c.packScheme
  · simp; omega
  · simp

theorem packedOk_iff {c : Config} {D : List Byte} :
    PackedOk c D ↔ D.length % c.gp = 0 ∧ ∀ b ∈ D, isBadPacked c b = false := by
  simp only [PackedOk, isBadPacked_false]
  cases c.packScheme <;> simp

theorem packGroup_unpackGroup {c : Config} {g : List Byte} (h : g.length = c.gp)
    (hb : ∀ b ∈ g, isBadPacked c b = false) : packGroup c (unpackGroup c g) = g := by
  unfold Config.gp PackScheme.gp at h
  simp only [isBadPacked_false] at hb
  unfold packGroup unpackGroup
  cases hs : c.packScheme <;> simp only [hs] at h hb ⊢
  · match g, h with
    | f :: bs, h =>
      have := packGroup_flag7_unpack (o := c.flagBitOrder) (f := f) (bs := bs) (by simpa using h) (hb f (by simp))
        (fun b hb' => hb b (by simp [hb']))
      simp only [this.1, this.2]
  · match g, h with
    | [a, b], _ =>
      have hab := nibbles_split a b (hb a (by simp)) (hb b (by simp))
      have hba := nibbles_split b a (hb b (by simp)) (hb a (by simp))
      cases c.nibbleOrder
      · simp only [hab.1, hab.2]
      · simp only [hba.1, hba.2]

theorem unpackGroup_packGroup {c : Config} {us : List Byte} (h : us.length = c.gl) :
    unpackGroup c (packGroup c us) = us := by
  unfold Config.gl PackScheme.gl at h
  unfold packGroup unpackGroup
  cases hs : c.packScheme <;> simp only [hs] at h ⊢
  · exact unflag_packed h
  · match us, h with
    | [u], _ => cases c.nibbleOrder <;> simp only [nibbles_join]

theorem packGroup_good {c : Config} {us : List Byte} (h : us.length = c.gl) :
    ∀ b ∈ packGroup c us, isBadPacked c b = false := by
  unfold Config.gl PackScheme.gl at h
  simp only [isBadPacked_false]
  unfold packGroup
  cases hs : c.packScheme <;> simp only [hs] at h ⊢
  · intro b hb
    rcases List.mem_cons.mp hb with rfl | hb
    · have := flagByte_seven_low c.flagBitOrder us h
      rw [getLsbD_seven] at this
      simp at this; omega
    · obtain ⟨u, -, rfl⟩ := List.mem_map.mp hb
      exact and_low_le u
  · match us, h with
    | [u], _ =>
      cases c.nibbleOrder <;> simp only [List.mem_cons, List.not_mem_nil, or_false]
      · rintro b (rfl | rfl)
        · exact (nibbles_le u).1
        · exact (nibbles_le u).2
      · rintro b (rfl | rfl)
        · exact (nibbles_le u).2
        · exact (nibbles_le u).1

/-! ### Streams -/

theorem div_mul_of_mod {n k : Nat} (h : n % k = 0) : n / k * k = n := by
  rw [Nat.mul_comm]; exact Nat.mul_div_cancel' (Nat.dvd_of_mod_eq_zero h)

theorem groupsOf_facts {size n : Nat} {l g : List Byte} (hl : l.length = n * size) (h : g ∈ groupsOf size n l) :
    g.length = size ∧ ∀ b ∈ g, b ∈ l := mem_groupsOf h (by omega)

/-- UNPACK gives GL bytes a group (41_packer R127). -/
theorem unpackStream_length {c : Config} {D : List Byte} (h : D.length % c.gp = 0) :
    (unpackStream c D).length = D.length / c.gp * c.gl :=
  flatMap_groupsOf_length _ fun _ hg => unpackGroup_length (groupsOf_facts (div_mul_of_mod h).symm hg).1

/-- PACK gives GP bytes a group (41_packer R127). -/
theorem packStream_length {c : Config} {U : List Byte} (h : U.length % c.gl = 0) :
    (packStream c U).length = U.length / c.gl * c.gp :=
  flatMap_groupsOf_length _ fun _ hg => packGroup_length (groupsOf_facts (div_mul_of_mod h).symm hg).1

theorem packStream_unpackStream {c : Config} {D : List Byte} (h : PackedOk c D) :
    packStream c (unpackStream c D) = D := by
  obtain ⟨hm, hb⟩ := packedOk_iff.mp h
  have hl := (div_mul_of_mod hm).symm
  unfold packStream
  rw [unpackStream_length hm, Nat.mul_div_cancel _ (gl_pos c)]
  exact flatMap_groupsOf_inverse _ _ hl (fun g hg => unpackGroup_length (groupsOf_facts hl hg).1)
    (fun g hg => packGroup_unpackGroup (groupsOf_facts hl hg).1 fun b hb' => hb b ((groupsOf_facts hl hg).2 b hb'))

theorem unpackStream_packStream {c : Config} {U : List Byte} (h : U.length % c.gl = 0) :
    unpackStream c (packStream c U) = U := by
  have hl := (div_mul_of_mod h).symm
  unfold unpackStream
  rw [packStream_length h, Nat.mul_div_cancel _ (gp_pos c)]
  exact flatMap_groupsOf_inverse _ _ hl (fun g hg => packGroup_length (groupsOf_facts hl hg).1)
    (fun g hg => unpackGroup_packGroup (groupsOf_facts hl hg).1)

/-- What PACK writes is well-formed packed data (41_packer R123, R125). -/
theorem packStream_packedOk {c : Config} {U : List Byte} (h : U.length % c.gl = 0) : PackedOk c (packStream c U) := by
  have hl := (div_mul_of_mod h).symm
  refine packedOk_iff.mpr ⟨by rw [packStream_length h]; exact Nat.mul_mod_left _ _, ?_⟩
  intro b hb
  obtain ⟨g, hg, hbg⟩ := List.mem_flatMap.mp hb
  exact packGroup_good (groupsOf_facts hl hg).1 b hbg

/-- UNPACK accepts exactly the well-formed packed data (41_packer R123, R124). -/
theorem unpack_ok_iff {c : Config} {D U : List Byte} :
    unpack c D = .ok U ↔ PackedOk c D ∧ U = unpackStream c D := by
  rw [packedOk_iff]
  unfold unpack
  split
  · simp_all
  · split
    · rename_i i b hf
      have := (firstWhere_some.mp hf).2
      simp only [reduceCtorEq, false_iff, not_and]
      rintro ⟨-, hall⟩
      have hb := hall b (List.mem_of_getElem? this.1)
      rw [hb] at this
      simp at this
    · rename_i hf
      rw [firstWhere_none] at hf
      constructor
      · intro h
        cases h
        exact ⟨⟨by simpa using ‹¬ _ ≠ 0›, hf⟩, rfl⟩
      · rintro ⟨-, rfl⟩
        rfl

theorem unpack_error {c : Config} {D : List Byte} {e : ErrorRecord} (h : unpack c D = .error e) :
    (∃ cause, e.kind = .format cause) ∧ e.index = 0xFFFF := by
  unfold unpack badPackedError at h
  repeat' split at h
  all_goals first
    | (cases h; exact ⟨⟨_, rfl⟩, rfl⟩)
    | cases h

theorem pack_ok_iff {c : Config} {U D : List Byte} :
    pack c U = .ok D ↔ U.length % c.gl = 0 ∧ U.length / c.gl * c.gp ≤ c.bufMax ∧ D = packStream c U := by
  unfold pack
  constructor
  · intro h
    split at h
    · cases h
    · split at h
      · cases h
      · cases h
        exact ⟨by simpa using ‹¬ _ ≠ 0›, by omega, rfl⟩
  · rintro ⟨h1, h2, rfl⟩
    rw [if_neg (by simpa using h1), if_neg (by omega)]

theorem pack_error {c : Config} {U : List Byte} {e : ErrorRecord} (h : pack c U = .error e) :
    (∃ cause, e.kind = .format cause) ∧ e.index = 0xFFFF := by
  unfold pack at h
  repeat' split at h
  all_goals first
    | (cases h; exact ⟨⟨_, rfl⟩, rfl⟩)
    | cases h

end Sys2Proof.Machine
end

