-- ==== Sys2Proof/Laws/Composite.lean ====
section
/-! SUPPORT. What the whole-pipeline commands accept, give and raise, in terms of the unit bodies. -/

namespace Sys2Proof.Machine

/-! ### DECODE -/

/-- DECODE completes exactly if every unit body does and the checksum is the frame's (44_composite R190). -/
theorem decodeFrame_ok_iff {c : Config} {F : List Byte} {u : Updates} :
    decodeFrame c F = .ok u ↔
      ∃ D C U m, frameParse c F = .ok (D, C) ∧ unpack c D = .ok U ∧ ck c D U = .ok C ∧ fieldDecode c U = .ok m ∧
        u = { pkd := some D, ckByte := some C, unp := some U, ckValue := some C,
              verifyOk := some true, patch := some m } := by
  constructor
  · intro h
    unfold decodeFrame at h
    split at h
    · cases h
    rename_i D C hp
    split at h
    · cases h
    rename_i U hu
    split at h
    · cases h
    rename_i v hv
    split at h
    · cases h
    rename_i hvC
    split at h
    · cases h
    rename_i m hm
    have hvC : v = C := not_not.mp hvC
    subst hvC
    exact ⟨D, v, U, m, hp, hu, hv, hm, by simpa using h.symm⟩
  · rintro ⟨D, C, U, m, hp, hu, hv, hm, rfl⟩
    unfold decodeFrame
    simp [hp, hu, hv, hm]

/-- Where DECODE's error comes from (44_composite R190). -/
theorem decodeFrame_error {c : Config} {F : List Byte} {e : ErrorRecord} (h : decodeFrame c F = .error e) :
    frameParse c F = .error e ∨
      ∃ D C, frameParse c F = .ok (D, C) ∧
        (unpack c D = .error e ∨
          ∃ U, unpack c D = .ok U ∧
            (ck c D U = .error e ∨
              ∃ v, ck c D U = .ok v ∧
                ((v ≠ C ∧
                    e = { kind := .checksum, offset := F.length - 2, expected := v.toNat, actual := C.toNat }) ∨
                  (v = C ∧ fieldDecode c U = .error e)))) := by
  unfold decodeFrame at h
  split at h
  · rename_i hp; cases h; exact .inl hp
  rename_i D C hp
  refine .inr ⟨D, C, hp, ?_⟩
  split at h
  · rename_i hu; cases h; exact .inl hu
  rename_i U hu
  refine .inr ⟨U, hu, ?_⟩
  split at h
  · rename_i hv; cases h; exact .inl hv
  rename_i v hv
  refine .inr ⟨v, hv, ?_⟩
  split at h
  · rename_i hvC; cases h; exact .inl ⟨hvC, rfl⟩
  rename_i hvC
  refine .inr ⟨not_not.mp hvC, ?_⟩
  split at h
  · rename_i hm; cases h; exact hm
  · cases h

/-! ### ENCODE -/

/-- The stream FIELD_ENCODE writes has UNP_LEN bytes, which is N_GROUPS groups. -/
theorem fieldEncode_length {c : Config} {m : Patch} {U : List Byte} (h : fieldEncode c m = .ok U) :
    U.length = c.nGroups * c.gl := by
  obtain ⟨-, rfl⟩ := fieldEncode_ok_iff.mp h
  unfold writeEntries
  have : ∀ (es : List Entry) (S : List Byte), (es.foldl (writeEntry m) S).length = S.length := by
    intro es
    induction es with
    | nil => intro S; rfl
    | cons e es ih => intro S; rw [List.foldl_cons, ih, writeEntry_length]
  rw [this, zeros_length]
  rfl

/-- After FIELD_ENCODE the units of a well-formed configuration all complete (44_composite R192). -/
theorem units_after_fieldEncode {c : Config} (hc : c.WF) {m : Patch} {U : List Byte} (h : fieldEncode c m = .ok U) :
    ∃ v, pack c U = .ok (packStream c U) ∧ (packStream c U).length = c.pkdLen ∧
      ck c (packStream c U) U = .ok v ∧
      frameBuild c (packStream c U) v = .ok (frameOf c (packStream c U) (v.setWidth 8)) := by
  have hl := fieldEncode_length h
  have hmod : U.length % c.gl = 0 := by rw [hl]; exact Nat.mul_mod_left _ _
  have hdiv : U.length / c.gl = c.nGroups := by rw [hl]; exact Nat.mul_div_cancel _ (gl_pos c)
  have hp : (packStream c U).length = c.pkdLen := by rw [packStream_length hmod, hdiv]; rfl
  have hb := Config.WF.bufMax hc
  have hd : (domainBuf c (packStream c U) U).length = c.ckBufLen := by
    unfold domainBuf Config.ckBufLen
    cases c.ckDomain
    · exact hp
    · exact hl
  refine ⟨formula c.ckAlgo (slice (domainBuf c (packStream c U) U) c.ckLo c.ckHi), ?_, hp, ?_, ?_⟩
  · refine pack_ok_iff.mpr ⟨hmod, ?_, rfl⟩
    rw [hdiv]
    unfold Config.frameLenFixed Config.pkdLen at hb
    omega
  · unfold ck
    simp only
    rw [if_neg (by simpa using hd)]
  · exact frameBuild_ok_iff.mpr ⟨hp, rfl⟩

/-- ENCODE completes exactly if FIELD_ENCODE does (44_composite R192). -/
theorem encodePatch_ok_iff {c : Config} (hc : c.WF) {m : Patch} {u : Updates} :
    encodePatch c m = .ok u ↔
      ∃ U v, fieldEncode c m = .ok U ∧ ck c (packStream c U) U = .ok v ∧
        u = { unp := some U, pkd := some (packStream c U), ckValue := some v, ckByte := some v,
              frame := some (frameOf c (packStream c U) (v.setWidth 8)) } := by
  unfold encodePatch
  cases h : fieldEncode c m with
  | error e => simp
  | ok U =>
    obtain ⟨v, h1, -, h2, h3⟩ := units_after_fieldEncode hc h
    simp only [h1, h2, h3]
    constructor
    · intro hu
      exact ⟨U, v, rfl, h2, by simpa using hu.symm⟩
    · rintro ⟨U', v', hU, hv, rfl⟩
      cases hU
      rw [h2] at hv
      cases hv
      rfl

/-- ENCODE raises exactly what FIELD_ENCODE raises (44_composite R192). -/
theorem encodePatch_error_iff {c : Config} (hc : c.WF) {m : Patch} {e : ErrorRecord} :
    encodePatch c m = .error e ↔ fieldEncode c m = .error e := by
  unfold encodePatch
  cases h : fieldEncode c m with
  | error e' => simp
  | ok U =>
    obtain ⟨v, h1, -, h2, h3⟩ := units_after_fieldEncode hc h
    simp only [h1, h2, h3, reduceCtorEq]

end Sys2Proof.Machine
end

