-- ==== Sys2Proof/Laws/PerInstr.lean ====
section
/-! SUPPORT. A family of statements made instruction by instruction: the command word of each command (30_encoding R70). -/

namespace Sys2Proof.Laws.CommandWord

/-- The instruction is well formed, its command word has a zero MBZ field and its opcode below it, and the opcode is one of
the eleven of 30_encoding R72. -/
def Statement (i : Instr) : Prop :=
  i.wellFormed = true ∧ mbzField (encode i) = 0#24 ∧ opcodeField (encode i) = opcode i ∧
    0x01 ≤ (opcode i).toNat ∧ (opcode i).toNat ≤ 0x0B

theorem frameParse : Statement .frameParse := by unfold Statement; decide
theorem frameBuild : Statement .frameBuild := by unfold Statement; decide
theorem unpack : Statement .unpack := by unfold Statement; decide
theorem pack : Statement .pack := by unfold Statement; decide
theorem ckCompute : Statement .ckCompute := by unfold Statement; decide
theorem ckVerify : Statement .ckVerify := by unfold Statement; decide
theorem ckAppend : Statement .ckAppend := by unfold Statement; decide
theorem fieldDecode : Statement .fieldDecode := by unfold Statement; decide
theorem fieldEncode : Statement .fieldEncode := by unfold Statement; decide
theorem decode : Statement .decode := by unfold Statement; decide
theorem encode : Statement .encode := by unfold Statement; decide

end Sys2Proof.Laws.CommandWord
end

