-- ==== Sys2Proof/Tests/Slice0.lean ====
section
/-! SUPPORT. Tests of the checks, the decoder, single commands and single host actions, with expected values from
spec/95_test_vectors.md or written out by hand from the rule named; and, for each statement with hypotheses, states that
meet them. -/

namespace Sys2Proof.Machine.Tests

/-! ### Well-formedness: one ill-formed term for each check -/

theorem test_ref_wellFormed : Config.ref.wellFormed = true := by decide

theorem test_no_manufacturer_refused :
    ({ Config.ref with mfrId := [] } : Config).mfrIdOk = false ∧
      ({ Config.ref with mfrId := [] } : Config).wellFormed = false := by decide

theorem test_high_identifier_refused :
    ({ Config.ref with devId := [0x80#8] } : Config).bytesOk = false ∧
      ({ Config.ref with devId := [0x80#8] } : Config).wellFormed = false := by decide

theorem test_low_start_refused :
    ({ Config.ref with startByte := 0x7F#8 } : Config).bytesOk = false ∧
      ({ Config.ref with startByte := 0x7F#8 } : Config).wellFormed = false := by decide

theorem test_low_end_refused :
    ({ Config.ref with endByte := 0x7F#8 } : Config).bytesOk = false ∧
      ({ Config.ref with endByte := 0x7F#8 } : Config).wellFormed = false := by decide

theorem test_no_groups_refused :
    ({ Config.ref with nGroups := 0 } : Config).groupsOk = false ∧
      ({ Config.ref with nGroups := 0 } : Config).wellFormed = false := by decide

theorem test_crossed_region_refused :
    ({ Config.ref with ckLo := 8, ckHi := 7 } : Config).regionOk = false ∧
      ({ Config.ref with ckLo := 8, ckHi := 7 } : Config).wellFormed = false := by decide

theorem test_long_region_refused :
    ({ Config.ref with ckHi := 9 } : Config).regionOk = false ∧
      ({ Config.ref with ckHi := 9 } : Config).wellFormed = false := by decide

theorem test_small_buffer_refused :
    ({ Config.ref with bufMax := 13 } : Config).bufMaxOk = false ∧
      ({ Config.ref with bufMax := 14 } : Config).bufMaxOk = true ∧
      ({ Config.ref with bufMax := 13 } : Config).wellFormed = false := by decide

/-- A one-entry schema over one byte, which the tests below spoil one field at a time. -/
def entryV : Entry := ⟨some ⟨'v', []⟩, .scalar, 0, 8, 1, .range 0 255⟩

theorem test_entryV_wellFormed : schemaWellFormed 8 [entryV] = true := by decide

theorem test_zero_width_refused :
    ({ entryV with width := 0, count := 1 } : Entry).sizeOk = false ∧
      schemaWellFormed 0 [{ entryV with width := 0, cons := .range 0 0 }] = false := by decide

theorem test_wide_width_refused :
    ({ entryV with width := 33 } : Entry).sizeOk = false ∧ ({ entryV with width := 32 } : Entry).sizeOk = true ∧
      schemaWellFormed 33 [{ entryV with width := 33 }] = false := by decide

theorem test_scalar_count_refused :
    ({ entryV with count := 2 } : Entry).sizeOk = false ∧ schemaWellFormed 16 [{ entryV with count := 2 }] = false := by
  decide

theorem test_empty_array_refused :
    ({ entryV with kind := .array, count := 0 } : Entry).sizeOk = false ∧
      schemaWellFormed 0 [{ entryV with kind := .array, count := 0 }] = false := by decide

theorem test_nameless_scalar_refused :
    ({ entryV with name := none } : Entry).nameOk = false ∧ schemaWellFormed 8 [{ entryV with name := none }] = false := by
  decide

theorem test_named_reserved_refused :
    ({ entryV with kind := .reserved, cons := .none } : Entry).nameOk = false ∧
      schemaWellFormed 8 [{ entryV with kind := .reserved, cons := .none }] = false := by decide

theorem test_repeated_name_refused :
    namesDistinct (schemaNames [entryV, { entryV with off := 8 }]) = false ∧
      schemaWellFormed 16 [entryV, { entryV with off := 8 }] = false := by decide

theorem test_crossed_range_refused :
    ({ entryV with cons := .range 2 1 } : Entry).consOk = false ∧
      schemaWellFormed 8 [{ entryV with cons := .range 2 1 }] = false := by decide

theorem test_range_past_width_refused :
    ({ entryV with cons := .range 0 256 } : Entry).consOk = false ∧
      schemaWellFormed 8 [{ entryV with cons := .range 0 256 }] = false := by decide

theorem test_empty_enum_refused :
    ({ entryV with cons := .enum [] } : Entry).consOk = false ∧ schemaWellFormed 8 [{ entryV with cons := .enum [] }] = false := by
  decide

theorem test_enum_past_width_refused :
    ({ entryV with cons := .enum [0, 256] } : Entry).consOk = false ∧
      schemaWellFormed 8 [{ entryV with cons := .enum [0, 256] }] = false := by decide

theorem test_gap_refused :
    tilesFrom 17 0 [entryV, { entryV with off := 9, name := some ⟨'w', []⟩ }] = false ∧
      schemaWellFormed 17 [entryV, { entryV with off := 9, name := some ⟨'w', []⟩ }] = false := by decide

theorem test_short_span_refused :
    tilesFrom 16 0 [entryV] = false ∧ schemaWellFormed 16 [entryV] = false := by decide

theorem test_empty_schema_refused : schemaLengthOk [] = false ∧ schemaWellFormed 0 [] = false := by decide

/-! ### Decoding: words written out from 30_encoding R70 and R72 (MBZ in bits 31:8, OPCODE in bits 7:0) -/

theorem test_decode_framer :
    decode 0b00000000000000000000000000000001#32 = some .frameParse ∧
      decode 0b00000000000000000000000000000010#32 = some .frameBuild := by decide

theorem test_decode_packer :
    decode 0b00000000000000000000000000000011#32 = some .unpack ∧
      decode 0b00000000000000000000000000000100#32 = some .pack := by decide

theorem test_decode_checksum :
    decode 0b00000000000000000000000000000101#32 = some .ckCompute ∧
      decode 0b00000000000000000000000000000110#32 = some .ckVerify ∧
      decode 0b00000000000000000000000000000111#32 = some .ckAppend := by decide

theorem test_decode_mapper :
    decode 0b00000000000000000000000000001000#32 = some .fieldDecode ∧
      decode 0b00000000000000000000000000001001#32 = some .fieldEncode := by decide

theorem test_decode_composite :
    decode 0b00000000000000000000000000001010#32 = some .decode ∧
      decode 0b00000000000000000000000000001011#32 = some .encode := by decide

/-- The illegal words of spec/95_test_vectors.md section 7, and one with the highest MBZ bit. -/
theorem test_decode_illegal :
    decode 0x00000000#32 = none ∧ decode 0x0000000C#32 = none ∧ decode 0x000000FF#32 = none ∧
      decode 0x00000101#32 = none ∧ decode 0x80000001#32 = none := by decide

theorem test_decodeTableWord :
    decodeTableWord 32 0x0000000A = some .decode ∧ decodeTableWord 32 0x00000101 = none ∧
      decodeTableWord 32 0x0000000C = none ∧ decodeTableWord 40 0x0100000001 = none := by decide

/-! ### Small states -/

/-- What an outcome leaves, if it is a next state. -/
def nextOf (o : Host.Outcome State Fault Refusal) : Option State :=
  match o with
  | .next t => some t
  | .fault _ => none
  | .refused _ => none

/-- An evaluated next state with a checked property. -/
theorem next_of {o : Host.Outcome State Fault Refusal} {p : State → Bool} (h : (nextOf o).any p = true) :
    ∃ t, o = .next t ∧ p t = true := by
  cases o with
  | next t => exact ⟨t, rfl, by simpa [nextOf] using h⟩
  | fault r => cases h
  | refused r => cases h

/-- A machine of configuration c with the buffers given, CK_BYTE k and the patch m. -/
def machine (c : Config) (frame pkd unp : List Byte) (k : Word) (m : Patch) : State :=
  { State.resetWith c with mem := ⟨frame, pkd, unp⟩, ckByte := k, patch := m }

def volume : Name := ⟨'v', ['o', 'l', 'u', 'm', 'e']⟩
def enable : Name := ⟨'e', ['n', 'a', 'b', 'l', 'e']⟩
def mode : Name := ⟨'m', ['o', 'd', 'e']⟩
def levels : Name := ⟨'l', ['e', 'v', 'e', 'l', 's']⟩
def bank : Name := ⟨'b', ['a', 'n', 'k']⟩
def tempo : Name := ⟨'t', ['e', 'm', 'p', 'o']⟩

/-- P0, F0 and the packed data and stream between them (spec/95_test_vectors.md, head). -/
def P0 : Patch :=
  [(bank, .scalar 1443), (enable, .scalar 1), (levels, .array [16, 200, 0]), (mode, .scalar 5), (volume, .scalar 100)]

def F0 : List Byte :=
  [0xF0#8, 0x7D#8, 0x00#8, 0x01#8, 0x29#8, 0x64#8, 0x05#8, 0x10#8, 0x48#8, 0x00#8, 0x23#8, 0x05#8, 0x6E#8, 0xF7#8]

def D0 : List Byte := [0x29#8, 0x64#8, 0x05#8, 0x10#8, 0x48#8, 0x00#8, 0x23#8, 0x05#8]

def U0 : List Byte := [0xE4#8, 0x05#8, 0x10#8, 0xC8#8, 0x00#8, 0xA3#8, 0x05#8]

/-- The second vector of packed data and stream (spec/95_test_vectors.md 1.2). -/
def D1 : List Byte := [0x13#8, 0x05#8, 0x00#8, 0x00#8, 0x7F#8, 0x7F#8, 0x01#8, 0x43#8]

def U1 : List Byte := [0x85#8, 0x80#8, 0x00#8, 0x7F#8, 0xFF#8, 0x01#8, 0x43#8]

/-- The variants of spec/95_test_vectors.md. -/
def refMsb : Config := { Config.ref with flagBitOrder := .msbFirst }
def refNibble : Config := { Config.ref with packScheme := .nibble, nGroups := 7, ckHi := 14 }
def refNibbleLow : Config := { refNibble with nibbleOrder := .lowFirst }
def refUnpacked : Config := { Config.ref with ckDomain := .unpacked, ckHi := 7 }
def refXor : Config := { Config.ref with ckAlgo := .xor7 }
def refSum : Config := { Config.ref with ckAlgo := .sum7 }
def refIgnore : Config := { Config.ref with reservedPolicy := .ignore }

theorem test_variants_wellFormed :
    refMsb.WF ∧ refNibble.WF ∧ refNibbleLow.WF ∧ refUnpacked.WF ∧ refXor.WF ∧ refSum.WF ∧ refIgnore.WF := by
  decide

def withFrame (F : List Byte) : State := machine Config.ref F [] [] 0#32 []
def withPkd (c : Config) (D : List Byte) (k : Word) : State := machine c [] D [] k []
def withUnp (c : Config) (U : List Byte) : State := machine c [] [] U 0#32 []
def withPatch (m : Patch) : State := machine Config.ref [] [] [] 0#32 m

/-- The error record as numbers: CODE, SUB, INDEX, ELEM, offset, expected, actual. -/
def errorOf (s : State) : List Nat :=
  [s.code, s.sub, s.errIndex.toNat % 65536, s.errIndex.toNat / 65536, s.errOffset.toNat, s.errExpected.toNat,
    s.errActual.toNat]

/-! ### One step of each command (spec/95_test_vectors.md 2 to 6; the section is named at each) -/

/-- 2.1: F0, and a MIN_FRAME_LEN frame. -/
theorem test_frameParse_completes :
    (nextOf (exec .frameParse (withFrame F0))).any (fun t =>
      decide (t.mem.pkd = D0 ∧ t.ckByte = 0x6E#32 ∧ t.status = 0x1#32 ∧ t.mem.frame = F0)) = true := by decide

/-- 2.1: byte 3 = 0x02 and byte 6 = 0x80: the 7-bit check precedes the identifier check. -/
theorem test_frameParse_highBit_first :
    (nextOf (exec .frameParse (withFrame ((F0.set 3 0x02#8).set 6 0x80#8)))).any (fun t =>
      decide (errorOf t = [1, 4, 0xFFFF, 0, 6, 0x7F, 0x80] ∧ t.mem.pkd = [] ∧ t.status = 0x2#32)) = true := by
  decide

/-- 2.2. -/
theorem test_frameBuild_completes :
    (nextOf (exec .frameBuild (withPkd Config.ref D1 0x26#32))).any (fun t =>
      decide (t.mem.frame = [0xF0#8, 0x7D#8, 0x00#8, 0x01#8] ++ D1 ++ [0x26#8, 0xF7#8])) = true := by decide

/-- 2.2: seven bytes. -/
theorem test_frameBuild_payloadLength :
    (nextOf (exec .frameBuild (withPkd Config.ref (zeros 7) 0x26#32))).any (fun t =>
      decide (errorOf t = [1, 7, 0xFFFF, 0, 7, 8, 7] ∧ t.mem.frame = [])) = true := by decide

/-- 3.1: two groups under MSB_FIRST. -/
theorem test_unpack_msbFirst :
    (nextOf (exec .unpack (withPkd refMsb
      [0x01#8, 0x11#8, 0#8, 0#8, 0#8, 0#8, 0#8, 0#8, 0x40#8, 0#8, 0#8, 0#8, 0#8, 0#8, 0#8, 0x22#8] 0#32))).any
      (fun t => decide (t.mem.unp =
        [0x11#8, 0#8, 0#8, 0#8, 0#8, 0#8, 0x80#8, 0x80#8, 0#8, 0#8, 0#8, 0#8, 0#8, 0x22#8])) = true := by
  decide

/-- 3.1: NIBBLE, LOW_FIRST. -/
theorem test_unpack_lowFirst :
    (nextOf (exec .unpack (withPkd refNibbleLow [0x0A#8, 0x05#8, 0x00#8, 0x0F#8] 0#32))).any
      (fun t => decide (t.mem.unp = [0x5A#8, 0xF0#8])) = true := by decide

/-- 3.2: MSB_FIRST. -/
theorem test_pack_msbFirst :
    (nextOf (exec .pack (withUnp refMsb U1))).any
      (fun t => decide (t.mem.pkd = [0x64#8, 0x05#8, 0x00#8, 0x00#8, 0x7F#8, 0x7F#8, 0x01#8, 0x43#8])) = true := by
  decide

/-- 3.2: 63 bytes would pack to 72, more than BUF_MAX. -/
theorem test_pack_bufOverflow :
    (nextOf (exec .pack (withUnp Config.ref (zeros 63)))).any
      (fun t => decide (errorOf t = [1, 10, 0xFFFF, 0, 63, 64, 72])) = true := by decide

/-- 4: SUM_NEG7. -/
theorem test_ckCompute_completes :
    (nextOf (exec .ckCompute (withPkd Config.ref D1 0#32))).any
      (fun t => decide (t.ckValue = 0x26#32 ∧ t.ckByte = 0#32)) = true := by decide

/-- 4: XOR7 and SUM7 of the same data. -/
theorem test_ckCompute_formulas :
    (nextOf (exec .ckCompute (withPkd refXor D1 0#32))).any (fun t => decide (t.ckValue = 0x54#32)) = true ∧
      (nextOf (exec .ckCompute (withPkd refSum D1 0#32))).any (fun t => decide (t.ckValue = 0x5A#32)) = true := by
  decide

/-- 4: a match sets VERIFY_OK. -/
theorem test_ckVerify_match :
    (nextOf (exec .ckVerify (withPkd Config.ref D1 0x26#32))).any
      (fun t => decide (t.status = 0x5#32 ∧ t.ckValue = 0x26#32)) = true := by decide

/-- 4: a mismatch clears VERIFY_OK and is no error. -/
theorem test_ckVerify_mismatch :
    (nextOf (exec .ckVerify { withPkd Config.ref D1 0x27#32 with status := 0x5#32 })).any
      (fun t => decide (t.status = 0x1#32 ∧ t.ckValue = 0x26#32)) = true := by decide

/-- 4: CK_DOMAIN = UNPACKED. -/
theorem test_ckAppend_unpacked :
    (nextOf (exec .ckAppend (withUnp refUnpacked U1))).any
      (fun t => decide (t.ckValue = 0x39#32 ∧ t.ckByte = 0x39#32 ∧ t.mem.unp = U1)) = true := by decide

/-- 4: an empty PKD. -/
theorem test_ckAppend_ckLength :
    (nextOf (exec .ckAppend (withUnp Config.ref U1))).any
      (fun t => decide (errorOf t = [1, 9, 0xFFFF, 0, 0, 8, 0])) = true := by decide

/-- 5.1. -/
theorem test_fieldDecode_completes :
    (nextOf (exec .fieldDecode (withUnp Config.ref U0))).any (fun t => decide (t.patch = P0)) = true := by
  decide

/-- 5.1: levels[1] = 0xC9. -/
theorem test_fieldDecode_range :
    (nextOf (exec .fieldDecode (withUnp Config.ref [0#8, 0#8, 0#8, 0xC9#8, 0#8, 0#8, 0#8]))).any
      (fun t => decide (errorOf t = [4, 1, 4, 1, 24, 0xC8, 0xC9] ∧ t.errName = some levels ∧ t.patch = [])) = true := by
  decide

/-- 5.2: P0. -/
theorem test_fieldEncode_completes :
    (nextOf (exec .fieldEncode (withPatch P0))).any (fun t => decide (t.mem.unp = U0)) = true := by decide

/-- 5.2: volume = -1 fails its range with actual = v mod 2^32. -/
theorem test_fieldEncode_negative :
    (nextOf (exec .fieldEncode (withPatch (P0.put volume (.scalar (-1)))))).any
      (fun t => decide (errorOf t = [4, 1, 0, 0, 0, 0, 0xFFFFFFFF] ∧ t.errName = some volume)) = true := by
  decide

/-- 6.1: F0. -/
theorem test_decode_completes :
    (nextOf (exec .decode (withFrame F0))).any (fun t =>
      decide (t.mem = ⟨F0, D0, U0⟩ ∧ t.ckByte = 0x6E#32 ∧ t.ckValue = 0x6E#32 ∧ t.status = 0x5#32 ∧ t.patch = P0)) =
      true := by decide

/-- 6.1 and program P3: a wrong checksum byte; nothing is written. -/
theorem test_decode_checksum_mismatch :
    (nextOf (exec .decode (withFrame (F0.set 12 0x6F#8)))).any (fun t =>
      decide (errorOf t = [3, 0, 0xFFFF, 0, 12, 0x6E, 0x6F] ∧ t.mem.pkd = [] ∧ t.patch = [] ∧ t.ckByte = 0#32)) =
      true := by decide

/-- 6.3: P0 under NIBBLE, HIGH_FIRST. -/
theorem test_encode_nibble :
    (nextOf (exec .encode (machine refNibble [] [] [] 0#32 P0))).any (fun t =>
      decide (t.mem.frame = [0xF0#8, 0x7D#8, 0x00#8, 0x01#8, 0x0E#8, 0x04#8, 0x00#8, 0x05#8, 0x01#8, 0x00#8, 0x0C#8,
        0x08#8, 0x00#8, 0x00#8, 0x0A#8, 0x03#8, 0x00#8, 0x05#8, 0x42#8, 0xF7#8])) = true := by decide

/-- 6.3: an unknown key. -/
theorem test_encode_unknown :
    (nextOf (exec .encode (withPatch (P0.put tempo (.scalar 120))))).any (fun t =>
      decide (errorOf t = [6, 0, 0xFFFF, 0, 0, 0, 0] ∧ t.errName = some tempo ∧ t.mem.frame = [])) = true := by
  decide

/-! ### One host action (spec/95_test_vectors.md 7) -/

/-- Reset with the host's actions given. -/
def host (as : List HostAction) : State := { State.reset with pending := as }

theorem test_reset_state :
    State.reset.status = 0#32 ∧ State.reset.errIndex = 0x0000FFFF#32 ∧ State.reset.readReg 9 = 0#32 ∧
      State.reset.readReg 10 = 7#32 ∧ State.reset.mem = ⟨[], [], []⟩ ∧ State.reset.patch = [] := by decide

theorem test_illegal_word :
    (nextOf (step (host [.regWrite 0 0x00000101#32]))).any (fun t =>
      decide (t.status = 0x2#32 ∧ t.errCode = 0x7#32 ∧ t.errActual = 0x101#32)) = true := by decide

theorem test_withFetchWord_runs :
    (nextOf (step (State.withFetchWord { State.reset with mem := ⟨F0, [], []⟩ } 32 0x0000000A))).any
      (fun t => decide (t.patch = P0 ∧ t.pending = [])) = true := by decide

theorem test_ckByte_write :
    (nextOf (step (host [.regWrite 8 0x000001FF#32]))).any (fun t => decide (t.readReg 8 = 0x7F#32)) = true := by
  decide

theorem test_refused_actions :
    (step (host [.regRead 16]) = .refused .noSuchRegister) ∧
      (step (host [.writeBuf .frame (List.replicate 65 0)]) = .refused .bufferTooLong) ∧
      (step (host [.writeBuf .pkd [0, 256]]) = .refused .byteOutOfRange) := ⟨rfl, rfl, rfl⟩

/-- A later pair of the host's list wins (log 7). -/
theorem test_writePatch_normal :
    (nextOf (step (host [.writePatch [(volume, .scalar 1), (bank, .scalar 2), (volume, .scalar 3)]]))).any
      (fun t => decide (t.patch = [(bank, .scalar 2), (volume, .scalar 3)])) = true := by decide

/-- REF with its first entry RESERVED. -/
def refReservedFirst : Config := { Config.ref with schema := refSchema.set 0 ⟨none, .reserved, 0, 7, 1, .none⟩ }

/-! ### States that meet the hypotheses of the statements in Certificates/Slice0/Obligations.lean

One theorem a statement, named after it; every clause at a boundary of its range. -/

/-- IllegalWordsRaiseIllegalCommand: each of its three ways to be illegal, at its boundary. -/
theorem test_meets_IllegalWordsRaiseIllegalCommand :
    (host [.regWrite 0 0x100#32]).cfg.WF ∧ (0x100#32).toNat / 256 ≠ 0 ∧ (0x0#32).toNat % 256 = 0 ∧
      0x0C ≤ (0x0C#32).toNat % 256 ∧ 0x0C ≤ (0xFF#32).toNat % 256 ∧
      ((host [.regWrite 0 0x100#32]).pending = .regWrite 0 0x100#32 :: []) := by decide

theorem test_meets_StepRunsDecodedCommand :
    (host [.regWrite 0 0xB#32]).cfg.WF ∧ (host [.regWrite 0 0xB#32]).pending = .regWrite 0 0xB#32 :: [] ∧
      decode 0xB#32 = some .encode := by decide

theorem test_meets_ReadsAnswerAndChangeNothing :
    (host [.readBuf .unp]).cfg.WF ∧ (host [.readBuf .unp]).pending = .readBuf .unp :: [] ∧
      (host [.readPatch]).pending = .readPatch :: [] ∧ (host [.readErrName]).pending = .readErrName :: [] ∧
      (host [.regRead 0]).pending = .regRead 0 :: [] ∧ (host [.regRead 15]).pending = .regRead 15 :: [] := by decide

/-- WritesReplaceWhatTheyName: a buffer of exactly BUF_MAX bytes, a canonical patch, CK_BYTE, and the first and last
register that ignores a write. -/
theorem test_meets_WritesReplaceWhatTheyName :
    Config.ref.WF ∧ (List.replicate 64 0xFF#8).length ≤ Config.ref.bufMax ∧ Patch.wf P0 = true ∧
      (host [.writePatch P0]).pending = .writePatch P0 :: [] ∧
      (host [.regWrite 8 0x1FF#32]).pending = .regWrite 8 0x1FF#32 :: [] ∧
      (host [.regWrite 1 0#32]).pending = .regWrite 1 0#32 :: [] ∧
      (host [.regWrite 15 0#32]).pending = .regWrite 15 0#32 :: [] := by decide

theorem test_meets_ReservedRegisterNumbers :
    (host [.regRead 11]).cfg.WF ∧ (host [.regRead 11]).pending = .regRead 11 :: [] ∧
      (host [.regRead 15]).pending = .regRead 15 :: [] ∧
      (host [.regWrite 11 1#32]).pending = .regWrite 11 1#32 :: [] ∧
      (host [.regRead 16]).pending = .regRead 16 :: [] ∧
      (host [.regWrite 16 1#32]).pending = .regWrite 16 1#32 :: [] := by decide

/-- OverlongOrNonByteWritesRefused: 65 bytes; the elements -1 and 256 next to the range. -/
theorem test_meets_OverlongOrNonByteWritesRefused :
    Config.ref.WF ∧ Config.ref.bufMax < (List.replicate 65 (0 : Int)).length ∧
      (host [.writeBuf .pkd [-1]]).pending = .writeBuf .pkd [-1] :: [] ∧ ([-1] : List Int).length ≤ Config.ref.bufMax ∧
      (∃ v ∈ ([-1] : List Int), v < 0 ∨ 255 < v) ∧ (∃ v ∈ ([0, 256] : List Int), v < 0 ∨ 255 < v) := by decide

theorem test_meets_ResetGivesResetState :
    ({ machine Config.ref F0 D0 U0 0x6E#32 P0 with pending := [.reset] } : State).cfg.WF ∧
      ({ machine Config.ref F0 D0 U0 0x6E#32 P0 with pending := [.reset] } : State).pending = .reset :: [] := by decide

theorem test_meets_ConstantRegistersReflectConfiguration :
    Config.ref.WF ∧ refNibbleLow.WF ∧ (host [.regRead 9]).pending = .regRead 9 :: [] ∧
      (host [.regRead 10]).pending = .regRead 10 :: [] ∧ (host [.regWrite 9 1#32]).pending = .regWrite 9 1#32 :: [] ∧
      (host [.regWrite 10 1#32]).pending = .regWrite 10 1#32 :: [] := by decide

theorem test_meets_IllFormedConfigurationRefused : ¬ (State.resetWith { Config.ref with nGroups := 0 }).cfg.WF := by decide

theorem test_meets_IdleStepHoldsState : State.reset.cfg.WF ∧ State.reset.pending = [] := by decide

theorem high_bits {w : Word} {n : Nat} (h : w.toNat < 2 ^ n) (i : Nat) (hi : n ≤ i) : w.getLsbD i = false := by
  rw [BitVec.getLsbD]
  exact Nat.testBit_lt_two_pow (lt_of_lt_of_le h (Nat.pow_le_pow_right (by decide) hi))

/-- A state that is not the reset state and has the invariant: F0 parsed by hand, DECODE waiting. -/
def loaded : State :=
  { machine Config.ref F0 D0 U0 0x6E#32 P0 with status := 0x5#32, pending := [cmdAction .decode] }

theorem test_meets_StepKeepsInvariant : loaded.Inv ∧ ∃ t, step loaded = .next t ∧ t.done = true := by
  refine ⟨⟨by decide, by decide, ⟨high_bits (by decide), ?_, high_bits (by decide), high_bits (by decide)⟩,
    by decide, by decide, fun _ => ⟨rfl, rfl, rfl, rfl, rfl, rfl⟩⟩, next_of (by decide)⟩
  intro i _
  show (0x00000000#32).getLsbD i = false
  simp

theorem test_meets_StepKeepsConfiguration : ∃ t, step loaded = .next t ∧ t.pending = [] := by
  obtain ⟨t, h, ht⟩ := next_of (o := step loaded) (p := fun t => decide (t.pending = [])) (by decide)
  exact ⟨t, h, by simpa using ht⟩

/-- RunEndsUnlessAnActionIsRefused: a run with a full buffer of the largest byte, the last register, and a command that
raises an error. -/
theorem test_meets_RunEndsUnlessAnActionIsRefused :
    State.reset.cfg.WF ∧
      ∀ a ∈ [HostAction.writeBuf .pkd (List.replicate 64 255), .regRead 15, .regWrite 15 0#32, cmdAction .unpack],
        (∀ x l, a = .writeBuf x l → l.length ≤ State.reset.cfg.bufMax ∧ ∀ v ∈ l, 0 ≤ v ∧ v ≤ 255) ∧
        (∀ n, a = .regRead n → n < 16) ∧ (∀ n v, a = .regWrite n v → n < 16) := by
  refine ⟨by decide, ?_⟩
  simp only [List.forall_mem_cons, cmdAction]
  refine ⟨⟨?_, by simp, by simp⟩, ⟨by simp, by simp, by simp⟩, ⟨by simp, by simp, by simp⟩, ⟨by simp, by simp, by simp⟩, by simp⟩
  intro x l h
  cases h
  decide

/-- ErrorRecordingWritesItsRecord: the largest INDEX and ERR_ACTUAL, and an entry's error with the largest ELEM. -/
theorem test_meets_ErrorRecordingWritesItsRecord :
    (illegalCommand 0xFFFFFFFF#32).index = 0xFFFF ∧ (illegalCommand 0xFFFFFFFF#32).elem ≤ 0xFFFF ∧
      (illegalCommand 0xFFFFFFFF#32).actual = 2 ^ 32 - 1 ∧
      (valueError 0xFFFD entryV 0xFFFF 256).index ≤ 0xFFFF ∧ (valueError 0xFFFD entryV 0xFFFF 256).elem = 0xFFFF ∧
      (valueError 0xFFFD entryV 0xFFFF 256).offset < 2 ^ 32 ∧ (valueError 0xFFFD entryV 0xFFFF 256).expected < 2 ^ 32 ∧
      (valueError 0xFFFD entryV 0xFFFF 256).actual < 2 ^ 32 := by decide

/-- CompletionWritesItsRecord: an error ends in a next state, which its first half is about. -/
theorem test_meets_CompletionWritesItsRecord :
    State.reset.finish (.error (illegalCommand 0#32)) = .next (State.reset.raise (illegalCommand 0#32)) := rfl

/-- CommandsRunFromReset: entry 0 of REF is not RESERVED; and a schema whose first entry is. -/
theorem test_meets_CommandsRunFromReset :
    Config.ref.WF ∧ State.reset = State.resetWith Config.ref ∧
      (∃ e, Config.ref.schema[0]? = some e ∧ e.kind ≠ .reserved ∧ e.name = some volume) ∧ refReservedFirst.WF ∧
      (∃ e, refReservedFirst.schema[1]? = some e ∧ e.kind ≠ .reserved ∧ e.name = some enable) ∧
      ∀ i e', i < 1 → refReservedFirst.schema[i]? = some e' → e'.kind = .reserved := by
  refine ⟨by decide, rfl, ⟨_, rfl, by decide, rfl⟩, by decide, ⟨_, rfl, by decide, rfl⟩, ?_⟩
  intro i e' hi he
  obtain rfl : i = 0 := by omega
  cases he
  rfl

theorem test_meets_CommandRaisesOrCompletes : State.reset.cfg.WF := by decide

/-- ErrorKindsOfEachCommand: every command has a state in which it raises an error. -/
theorem test_meets_ErrorKindsOfEachCommand (i : Instr) :
    ∃ s t, s.cfg.WF ∧ exec i s = .next t ∧ t.err = true := by
  have key : ∀ s : State, s.cfg.WF → (nextOf (exec i s)).any State.err = true →
      ∃ s t, s.cfg.WF ∧ exec i s = .next t ∧ t.err = true :=
    fun s hs h => ⟨s, _, hs, (next_of h).choose_spec⟩
  cases i with
  | frameParse => exact key (withFrame (F0.set 3 0x02#8)) (by decide) (by decide)
  | frameBuild => exact key State.reset (by decide) (by decide)
  | unpack => exact key (withPkd Config.ref (zeros 7) 0#32) (by decide) (by decide)
  | pack => exact key (withUnp Config.ref (zeros 6)) (by decide) (by decide)
  | ckCompute => exact key State.reset (by decide) (by decide)
  | ckVerify => exact key State.reset (by decide) (by decide)
  | ckAppend => exact key State.reset (by decide) (by decide)
  | fieldDecode => exact key (withUnp Config.ref U1) (by decide) (by decide)
  | fieldEncode => exact key State.reset (by decide) (by decide)
  | decode => exact key (withFrame (F0.set 12 0x6F#8)) (by decide) (by decide)
  | encode => exact key (withPatch (P0.put tempo (.scalar 120))) (by decide) (by decide)

theorem test_meets_OnlyVerifyAndDecodeChangeVerifyOk :
    (host [cmdAction .decode]).verifyOk = false ∧
      ∃ t, step { withFrame F0 with pending := [cmdAction .decode] } = .next t ∧ t.verifyOk = true :=
  ⟨by decide, next_of (by decide)⟩

theorem test_meets_OnlyCommandsAndResetChangeStatus :
    (∃ t, step (host [cmdAction .unpack]) = .next t ∧ t.done = true) ∧ (host [cmdAction .unpack]).done = false ∧
      loaded.done = true ∧ ∃ t, step { loaded with pending := [.reset] } = .next t ∧ (!t.done) = true :=
  ⟨next_of (by decide), by decide, by decide, next_of (by decide)⟩

/-- CommandsIgnoreEarlierErrors: after an error and without one. -/
theorem test_meets_CommandsIgnoreEarlierErrors :
    ∃ e : ErrorRecord, (withFrame F0).raise e ≠ withFrame F0 ∧ ((withFrame F0).raise e).mem = (withFrame F0).mem ∧
      (∃ t, exec .decode (withFrame F0) = .next t ∧ t.done = true) ∧
      ∃ t, exec .decode ((withFrame F0).raise e) = .next t ∧ t.done = true :=
  ⟨illegalCommand 0#32, by decide, rfl, next_of (by decide), next_of (by decide)⟩

theorem test_meets_RetryAfterErrorGivesSameError (i : Instr) : ∃ s t, exec i s = .next t ∧ t.err = true := by
  obtain ⟨s, t, -, h⟩ := test_meets_ErrorKindsOfEachCommand i
  exact ⟨s, t, h⟩

theorem test_meets_GroupMembersAreIndependent :
    (stepMember 1 [State.reset, loaded, State.reset]).isSome = true := by decide

/-- Every command has a state in which it completes; the four frame statements are met by it. -/
theorem test_meets_frames (i : Instr) : ∃ s t, s.cfg.WF ∧ exec i s = .next t ∧ t.done = true := by
  have key : ∀ s : State, s.cfg.WF → (nextOf (exec i s)).any State.done = true →
      ∃ s t, s.cfg.WF ∧ exec i s = .next t ∧ t.done = true :=
    fun s hs h => ⟨s, _, hs, (next_of h).choose_spec⟩
  cases i with
  | frameParse => exact key (withFrame F0) (by decide) (by decide)
  | frameBuild => exact key (withPkd Config.ref D0 0x6E#32) (by decide) (by decide)
  | unpack => exact key (withPkd Config.ref D0 0#32) (by decide) (by decide)
  | pack => exact key (withUnp Config.ref U0) (by decide) (by decide)
  | ckCompute => exact key (withPkd Config.ref D0 0#32) (by decide) (by decide)
  | ckVerify => exact key (withPkd Config.ref D0 0#32) (by decide) (by decide)
  | ckAppend => exact key (withPkd Config.ref D0 0#32) (by decide) (by decide)
  | fieldDecode => exact key (withUnp Config.ref U0) (by decide) (by decide)
  | fieldEncode => exact key (withPatch P0) (by decide) (by decide)
  | decode => exact key (withFrame F0) (by decide) (by decide)
  | encode => exact key (withPatch P0) (by decide) (by decide)

theorem test_meets_FramerAndPackerFrame :
    ∀ i ∈ [Instr.frameParse, .frameBuild, .unpack, .pack], ∃ s t, exec i s = .next t ∧ t.done = true :=
  fun i _ => let ⟨s, t, _, h⟩ := test_meets_frames i; ⟨s, t, h⟩

theorem test_meets_ChecksumFrame :
    ∀ i ∈ [Instr.ckCompute, .ckVerify, .ckAppend], ∃ s t, exec i s = .next t ∧ t.done = true :=
  fun i _ => let ⟨s, t, _, h⟩ := test_meets_frames i; ⟨s, t, h⟩

theorem test_meets_MapperFrame :
    ∀ i ∈ [Instr.fieldDecode, .fieldEncode], ∃ s t, exec i s = .next t ∧ t.done = true :=
  fun i _ => let ⟨s, t, _, h⟩ := test_meets_frames i; ⟨s, t, h⟩

theorem test_meets_WholePipelineFrame :
    ∀ i ∈ [Instr.decode, .encode], ∃ s t, exec i s = .next t ∧ t.done = true :=
  fun i _ => let ⟨s, t, _, h⟩ := test_meets_frames i; ⟨s, t, h⟩

/-- FrameParseFollowsItsRule, its clauses in order: five bytes; a start marker 0xF1; an end marker 0xF6 at the last
offset; a high bit at offset 1 and at offset n-2; the first and the last identifier byte; and a frame without data. -/
theorem test_meets_FrameParseFollowsItsRule :
    (withFrame (F0.take 5)).cfg.WF ∧ (F0.take 5).length < Config.ref.minFrameLen ∧
      Config.ref.minFrameLen ≤ F0.length ∧ (F0.set 0 0xF1#8)[0]? = some 0xF1#8 ∧ 0xF1#8 ≠ Config.ref.startByte ∧
      F0[0]? = some Config.ref.startByte ∧ (F0.set 13 0xF6#8)[14 - 1]? = some 0xF6#8 ∧ 0xF6#8 ≠ Config.ref.endByte ∧
      F0[14 - 1]? = some Config.ref.endByte ∧ (F0.set 1 0x80#8)[1]? = some 0x80#8 ∧
      (F0.set 12 0x80#8)[14 - 2]? = some 0x80#8 ∧ 0x80 ≤ (0x80#8).toNat ∧
      (∀ j < 12, ((F0.set 12 0x80#8).drop 1 |>.getD j 0#8).toNat ≤ 0x7F ∨ j = 11) ∧
      Config.ref.ident[0]? = some 0x7D#8 ∧ (F0.set 1 0x41#8)[1 + 0]? = some 0x41#8 ∧
      Config.ref.ident[2]? = some 0x01#8 ∧ (F0.set 3 0x02#8)[1 + 2]? = some 0x02#8 ∧
      (∀ j < 2, (F0.set 3 0x02#8)[1 + j]? = Config.ref.ident[j]?) ∧
      (∀ j < 12, ((F0.set 3 0x02#8).getD (1 + j) 0#8).toNat ≤ 0x7F) ∧
      frameOf Config.ref [] 0x7F#8 = [0xF0#8, 0x7D#8, 0x00#8, 0x01#8, 0x7F#8, 0xF7#8] := by decide

theorem test_meets_AcceptedFramesHaveTheLayout :
    ∃ t, exec .frameParse (withFrame F0) = .next t ∧ t.done = true := next_of (by decide)

theorem test_meets_FrameBuildFollowsItsRule :
    (withPkd Config.ref (zeros 7) 0#32).mem.pkd.length ≠ Config.ref.pkdLen ∧
      (withPkd Config.ref (zeros 8) 0x7F#32).mem.pkd.length = Config.ref.pkdLen := by decide

/-- BuiltHighBytesFailParse: the lowest high byte at the first and at the last place of the data part. -/
theorem test_meets_BuiltHighBytesFailParse :
    Config.ref.WF ∧ ((zeros 8).set 0 0x80#8).length = Config.ref.pkdLen ∧
      (∃ b ∈ (zeros 8).set 0 0x80#8, 0x80 ≤ b.toNat) ∧ ∃ b ∈ (zeros 8).set 7 0x80#8, 0x80 ≤ b.toNat := by decide

theorem packedOk_of {c : Config} {D : List Byte} (h : (unpack c D).toBool = true) : PackedOk c D := by
  cases hu : unpack c D with
  | error e => rw [hu] at h; cases h
  | ok U => exact (unpack_ok_iff.mp hu).1

/-- UnpackFollowsItsRule: each error clause at its boundary value, and well-formed data under both schemes and both
nibble orders. -/
theorem test_meets_UnpackFollowsItsRule :
    (zeros 7).length % Config.ref.gp ≠ 0 ∧
      (([0#8, 0#8, 0x80#8, 0#8, 0#8, 0#8, 0#8, 0#8] : List Byte).length % Config.ref.gp = 0 ∧
        Config.ref.packScheme = .flag7 ∧ 0x80 ≤ (0x80#8).toNat) ∧
      (([0x01#8, 0x10#8] : List Byte).length % refNibble.gp = 0 ∧ refNibble.packScheme = .nibble ∧
        0x0F < (0x10#8).toNat) ∧
      PackedOk Config.ref D0 ∧ PackedOk refNibble [0x0A#8, 0x0F#8] ∧ refNibble.nibbleOrder = .highFirst ∧
      PackedOk refNibbleLow [0x0A#8, 0x0F#8] ∧ refNibbleLow.nibbleOrder = .lowFirst :=
  ⟨by decide, by decide, by decide, packedOk_of (by decide), packedOk_of (by decide), rfl, packedOk_of (by decide), rfl⟩

/-- PackFollowsItsRule: six bytes; 63 and 56 bytes on the two sides of BUF_MAX; one byte under either nibble order. -/
theorem test_meets_PackFollowsItsRule :
    (zeros 6).length % Config.ref.gl ≠ 0 ∧
      ((zeros 63).length % Config.ref.gl = 0 ∧ Config.ref.bufMax < (zeros 63).length / Config.ref.gl * Config.ref.gp) ∧
      ((zeros 56).length % Config.ref.gl = 0 ∧ (zeros 56).length / Config.ref.gl * Config.ref.gp ≤ Config.ref.bufMax) ∧
      ((zeros 32).length % refNibble.gl = 0 ∧ (zeros 32).length / refNibble.gl * refNibble.gp ≤ refNibble.bufMax) ∧
      refNibble.nibbleOrder = .highFirst ∧ refNibbleLow.nibbleOrder = .lowFirst ∧
      Config.ref.WF ∧ (zeros 7).length = Config.ref.unpLen := by decide

theorem test_meets_PackAndUnpackAreInverse :
    PackedOk Config.ref D1 ∧ D1.length ≤ Config.ref.bufMax ∧ U1.length % Config.ref.gl = 0 ∧
      U1.length / Config.ref.gl * Config.ref.gp ≤ Config.ref.bufMax :=
  ⟨packedOk_of (by decide), by decide, by decide, by decide⟩

/-- The three checksum statements: a domain buffer one byte short and one of CK_BUF_LEN, in either domain. -/
theorem test_meets_CkComputeFollowsItsRule :
    (withPkd Config.ref (zeros 7) 0#32).domain.length ≠ Config.ref.ckBufLen ∧
      (withPkd Config.ref D1 0#32).domain.length = Config.ref.ckBufLen ∧
      (withUnp refUnpacked U1).domain.length = refUnpacked.ckBufLen := by decide

theorem test_meets_CkVerifyFollowsItsRule :
    (withPkd Config.ref (zeros 7) 0#32).domain.length ≠ Config.ref.ckBufLen ∧
      (withPkd Config.ref D1 0x26#32).domain.length = Config.ref.ckBufLen := by decide

theorem test_meets_CkAppendFollowsItsRule :
    (withPkd Config.ref (zeros 7) 0#32).domain.length ≠ Config.ref.ckBufLen ∧
      (withPkd Config.ref D1 0#32).domain.length = Config.ref.ckBufLen ∧
      ∃ t, exec .ckAppend (withPkd Config.ref D1 0#32) = .next t ∧ t.done = true :=
  ⟨by decide, by decide, next_of (by decide)⟩

/-- VerifyBySum: F0's data and checksum sum to 384 = 3 * 128 (spec/95_test_vectors.md 4), and one off. -/
theorem test_meets_VerifyBySum :
    Config.ref.ckAlgo = .sumNeg7 ∧ (withPkd Config.ref D0 0x6E#32).domain.length = Config.ref.ckBufLen ∧
      (regionSum Config.ref D0 + (0x6E#32).toNat % 128) % 128 = 0 ∧
      (regionSum Config.ref D0 + (0x6F#32).toNat % 128) % 128 ≠ 0 := by decide

/-- SingleBitFlipsAreDetected: REF meets it, at the first and the last payload offset; and NIBBLE with a high bit of a
data byte. -/
theorem test_meets_SingleBitFlipsAreDetected :
    Config.ref.WF ∧ Config.ref.ckDomain = .packed ∧ Config.ref.ckLo = 0 ∧ Config.ref.ckHi = Config.ref.pkdLen ∧
      (∃ t, exec .decode (withFrame F0) = .next t ∧ t.done = true) ∧ 1 + Config.ref.idLen ≤ 4 ∧ 12 ≤ F0.length - 2 ∧
      refNibble.WF ∧ refNibble.ckLo = 0 ∧ refNibble.ckHi = refNibble.pkdLen ∧ refNibble.packScheme = .nibble ∧
      ∃ t, exec .decode (machine refNibble (frameOf refNibble (zeros 14) 0#8) [] [] 0#32 []) = .next t ∧ t.done = true :=
  ⟨by decide, rfl, rfl, by decide, next_of (by decide), by decide, by decide, by decide, rfl, by decide, rfl,
    next_of (by decide)⟩

/-- FieldsAreNumberedLeastSignificantBitFirst: the last 12 bits of a stream, and bits on both sides of a field's ends. -/
theorem test_meets_FieldsAreNumberedLeastSignificantBitFirst :
    44 + 12 ≤ 8 * (zeros 7).length ∧ (44 ≤ 44 ∧ 44 < 44 + 12) ∧ (44 ≤ 55 ∧ 55 < 44 + 12) ∧ ¬(44 ≤ 43) := by decide

theorem holds_of {cons : Constraint} {v : Int} (h : Constraint.admits cons v = true) : Constraint.Holds cons v :=
  Constraint.admits_iff.mp h

theorem not_holds_of {cons : Constraint} {v : Int} (h : Constraint.admits cons v = false) : ¬ Constraint.Holds cons v := by
  rw [← Constraint.admits_iff, h]; decide

theorem streamOk_of {c : Config} (hc : c.WF) {S : List Byte} (h : (fieldDecode c S).toBool = true) : StreamOk c S := by
  cases hd : fieldDecode c S with
  | error e => rw [hd] at h; cases h
  | ok m => exact ((fieldDecode_ok_iff (Config.WF.schema hc)).mp hd).1

theorem patchOk_of {c : Config} {m : Patch} (h : (fieldEncode c m).toBool = true) : PatchOk c m := by
  cases hd : fieldEncode c m with
  | error e => rw [hd] at h; cases h
  | ok S => exact (fieldEncode_ok_iff.mp hd).1

/-- The entries before entry n pass FIELD_DECODE's checks where the loop over them ends without an error. -/
theorem decodes_before {c : Config} {S : List Byte} {n : Nat} (h : (decodeEntries c S 0 (c.schema.take n) []).toBool = true) :
    ∀ i e, i < n → c.schema[i]? = some e → EntryDecodes c S e := by
  cases hd : decodeEntries c S 0 (c.schema.take n) [] with
  | error e => rw [hd] at h; cases h
  | ok m =>
    intro i e hi he
    refine (decodeEntries_ok_iff.mp hd).1 e (List.mem_of_getElem? (i := i) ?_)
    rw [List.getElem?_take_of_lt hi, he]

/-- The entries before entry n pass FIELD_ENCODE's first pass where it ends without an error over them. -/
theorem encodes_before {c : Config} {m : Patch} {n : Nat} (h : (checkEntries m 0 (c.schema.take n)).toBool = true) :
    ∀ i e, i < n → c.schema[i]? = some e → EntryEncodes m e := by
  cases hd : checkEntries m 0 (c.schema.take n) with
  | error e => rw [hd] at h; cases h
  | ok x =>
    intro i e hi he
    refine checkEntries_ok_iff.mp hd e (List.mem_of_getElem? (i := i) ?_)
    rw [List.getElem?_take_of_lt hi, he]

/-- FieldDecodeFollowsItsRule: a short stream; the reserved region of entry 3 just above 0; levels[1] = 201 one above its
range; mode = 3 between the members of its enumeration; and a stream that passes. -/
theorem test_meets_FieldDecodeFollowsItsRule :
    Config.ref.WF ∧ (zeros 6).length ≠ Config.ref.unpLen ∧
      (∃ e, Config.ref.schema[3]? = some e ∧ e.kind = .reserved ∧ Config.ref.reservedPolicy = .check ∧
        elemVal [0#8, 0x10#8, 0#8, 0#8, 0#8, 0#8, 0#8] e 0 = 1 ∧
        ∀ i e', i < 3 → Config.ref.schema[i]? = some e' → EntryDecodes Config.ref [0#8, 0x10#8, 0#8, 0#8, 0#8, 0#8, 0#8] e') ∧
      (∃ e, Config.ref.schema[4]? = some e ∧ e.kind ≠ .reserved ∧ 1 < e.count ∧ e.cons = .range 0 200 ∧
        Constraint.Holds e.cons (elemVal [0#8, 0#8, 0#8, 0xC9#8, 0#8, 0#8, 0#8] e 0) ∧
        ¬ Constraint.Holds e.cons (elemVal [0#8, 0#8, 0#8, 0xC9#8, 0#8, 0#8, 0#8] e 1) ∧
        ∀ i e', i < 4 → Config.ref.schema[i]? = some e' → EntryDecodes Config.ref [0#8, 0#8, 0#8, 0xC9#8, 0#8, 0#8, 0#8] e') ∧
      (∃ e, Config.ref.schema[2]? = some e ∧ e.cons = .enum [0, 1, 2, 5] ∧
        ¬ Constraint.Holds e.cons (elemVal [0#8, 3#8, 0#8, 0#8, 0#8, 0#8, 0#8] e 0) ∧
        ∀ i e', i < 2 → Config.ref.schema[i]? = some e' → EntryDecodes Config.ref [0#8, 3#8, 0#8, 0#8, 0#8, 0#8, 0#8] e') ∧
      StreamOk Config.ref U0 :=
  ⟨by decide, by decide,
    ⟨_, rfl, rfl, rfl, by decide, decodes_before (by decide)⟩,
    ⟨_, rfl, by decide, by decide, rfl, holds_of (by decide), not_holds_of (by decide), decodes_before (by decide)⟩,
    ⟨_, rfl, rfl, not_holds_of (by decide), decodes_before (by decide)⟩,
    streamOk_of (by decide) (by decide)⟩

theorem test_meets_DecodedPatchHasOneKeyPerEntry :
    Config.ref.WF ∧ ∃ t, exec .fieldDecode (withUnp Config.ref U0) = .next t ∧ t.done = true :=
  ⟨by decide, next_of (by decide)⟩

/-- FieldEncodeFollowsItsRule, at the first entry (volume): missing; an array for a scalar; 128 one above its range and -1
one below; at levels: a scalar, and an array one short; at mode: 3; then an unknown key; and P0. -/
theorem test_meets_FieldEncodeFollowsItsRule :
    Config.ref.WF ∧
      (∃ e, Config.ref.schema[0]? = some e ∧ e.kind = .scalar ∧ e.name = some volume ∧ Patch.find [] volume = none ∧
        Patch.find [(volume, .array [1])] volume = some (.array [1]) ∧
        ShapeFits e (.scalar 128) ∧ ¬ Constraint.Holds e.cons 128 ∧ ¬ Constraint.Holds e.cons (-1)) ∧
      (∃ e, Config.ref.schema[4]? = some e ∧ e.kind = .array ∧ e.name = some levels ∧
        Patch.find (P0.put levels (.scalar 7)) levels = some (.scalar 7) ∧ ([1, 2] : List Int).length ≠ e.count ∧
        (∀ i e', i < 4 → Config.ref.schema[i]? = some e' → EntryEncodes (P0.put levels (.scalar 7)) e') ∧
        (∀ i e', i < 4 → Config.ref.schema[i]? = some e' → EntryEncodes (P0.put levels (.array [1, 2])) e')) ∧
      (∃ e, Config.ref.schema[2]? = some e ∧ e.name = some mode ∧ e.cons = .enum [0, 1, 2, 5] ∧
        ¬ Constraint.Holds e.cons 3 ∧
        ∀ i e', i < 2 → Config.ref.schema[i]? = some e' → EntryEncodes (P0.put mode (.scalar 3)) e') ∧
      (∀ e ∈ Config.ref.schema, EntryEncodes (P0.put tempo (.scalar 120)) e) ∧
      tempo ∈ Patch.keys (P0.put tempo (.scalar 120)) ∧ ¬ KeyKnown Config.ref tempo ∧ PatchOk Config.ref P0 := by
  refine ⟨by decide,
    ⟨_, rfl, rfl, rfl, rfl, by decide, trivial, not_holds_of (by decide), not_holds_of (by decide)⟩,
    ⟨_, rfl, rfl, rfl, by decide, by decide, encodes_before (by decide), encodes_before (by decide)⟩,
    ⟨_, rfl, rfl, rfl, not_holds_of (by decide), encodes_before (by decide)⟩, ?_, by decide,
    entryOf_none_iff.mp (by decide), patchOk_of (by decide)⟩
  intro e he
  obtain ⟨i, hi⟩ := List.mem_iff_getElem?.mp he
  refine encodes_before (c := Config.ref) (n := 7) (by decide) i e ?_ hi
  by_contra h
  rw [List.getElem?_eq_none (by have : Config.ref.schema.length = 7 := rfl; omega)] at hi
  cases hi

theorem test_meets_DecodedPatchEncodes :
    Config.ref.WF ∧ ∃ t, exec .fieldDecode (withUnp Config.ref U0) = .next t ∧ t.done = true :=
  ⟨by decide, next_of (by decide)⟩

/-- A stream whose only bit is the highest of REF's second reserved region (entry 6, bits 52 to 55). -/
def reservedBit : List Byte := [0#8, 0#8, 0#8, 0#8, 0#8, 0#8, 0x80#8]

/-- MapperRoundTrips: both halves under either policy; under IGNORE also a stream with a reserved bit set. -/
theorem test_meets_MapperRoundTrips :
    Config.ref.WF ∧ refIgnore.WF ∧ Config.ref.reservedPolicy = .check ∧ Patch.wf P0 = true ∧
      (∃ t, exec .fieldDecode (withUnp Config.ref U0) = .next t ∧ t.done = true) ∧
      (∃ t, exec .fieldDecode (withUnp refIgnore reservedBit) = .next t ∧ t.done = true) ∧
      ¬ ReservedZero refIgnore reservedBit ∧
      (∃ t, exec .fieldEncode (withPatch P0) = .next t ∧ t.done = true) ∧
      ∃ t, exec .fieldEncode (machine refIgnore [] [] [] 0#32 P0) = .next t ∧ t.done = true := by
  refine ⟨by decide, by decide, rfl, by decide, next_of (by decide), next_of (by decide), ?_, next_of (by decide),
    next_of (by decide)⟩
  intro h
  exact absurd (h ⟨none, .reserved, 52, 4, 1, .none⟩ (by decide) rfl) (by decide)

/-- REF with a lower bound of 1 for volume. -/
def refLowBound : Config := { Config.ref with schema := refSchema.set 0 ⟨some volume, .scalar, 0, 7, 1, .range 1 127⟩ }

/-- AllZeroStream: REF admits 0 everywhere; a lower bound of 1 does not. -/
theorem test_meets_AllZeroStream :
    Config.ref.WF ∧ (withUnp Config.ref (zeros 7)).mem.unp = List.replicate Config.ref.unpLen 0#8 ∧
      (∀ e ∈ Config.ref.schema, Constraint.Holds e.cons 0) ∧ refLowBound.WF ∧
      ∃ e, refLowBound.schema[0]? = some e ∧ ¬ Constraint.Holds e.cons 0 := by
  refine ⟨by decide, rfl, ?_, by decide, _, rfl, not_holds_of (by decide)⟩
  have key : ∀ e ∈ Config.ref.schema, Constraint.admits e.cons 0 = true := by decide
  exact fun e he => holds_of (key e he)

theorem test_meets_DecodeCompletesOnValidFrames :
    Config.ref.WF ∧ F0 = frameOf Config.ref D0 0x6E#8 ∧ PackedOk Config.ref D0 ∧ D0.length = Config.ref.pkdLen ∧
      U0 = unpackStream Config.ref D0 ∧ StreamOk Config.ref U0 ∧
      (0x6E#8).toNat = checksumOf Config.ref (domainOf Config.ref D0 U0) :=
  ⟨by decide, by decide, packedOk_of (by decide), by decide, by decide, streamOk_of (by decide) (by decide), by decide⟩

/-- DecodeReportsChecksumMismatch: the highest 7-bit checksum byte, which is not F0's. -/
theorem test_meets_DecodeReportsChecksumMismatch :
    Config.ref.WF ∧ F0.set 12 0x7F#8 = frameOf Config.ref D0 0x7F#8 ∧ PackedOk Config.ref D0 ∧
      D0.length = Config.ref.pkdLen ∧ (0x7F#8).toNat ≤ 0x7F ∧
      (0x7F#8).toNat ≠ checksumOf Config.ref (domainOf Config.ref D0 (unpackStream Config.ref D0)) :=
  ⟨by decide, by decide, packedOk_of (by decide), by decide, by decide, by decide⟩

/-- DecodeIsItsUnitSequence: a DECODE that completes and one that raises. -/
theorem test_meets_DecodeIsItsUnitSequence :
    (∃ t, exec .decode (withFrame F0) = .next t ∧ t.done = true) ∧
      ∃ t, exec .decode (withFrame (F0.set 12 0x6F#8)) = .next t ∧ t.err = true :=
  ⟨next_of (by decide), next_of (by decide)⟩

/-- EncodeIsItsUnitSequence: a FIELD_ENCODE that completes and one that raises. -/
theorem test_meets_EncodeIsItsUnitSequence :
    Config.ref.WF ∧ (∃ a, exec .fieldEncode (withPatch P0) = .next a ∧ a.done = true) ∧
      ∃ a, exec .fieldEncode (withPatch []) = .next a ∧ a.err = true :=
  ⟨by decide, next_of (by decide), next_of (by decide)⟩

theorem test_meets_EncodeCompletesOnValidPatches : Config.ref.WF ∧ PatchOk Config.ref P0 :=
  ⟨by decide, patchOk_of (by decide)⟩

/-- FrameRoundTripIsByteExact, under either policy; under IGNORE on the frame of a stream with a reserved bit set. -/
theorem test_meets_FrameRoundTripIsByteExact :
    Config.ref.WF ∧ refIgnore.WF ∧ Config.ref.reservedPolicy = .check ∧
      (∃ t, exec .decode (withFrame F0) = .next t ∧ t.done = true) ∧
      ∃ t, exec .decode (machine refIgnore (frameOf refIgnore [0x40#8, 0#8, 0#8, 0#8, 0#8, 0#8, 0#8, 0#8] 0x40#8) [] [] 0#32 [])
        = .next t ∧ decide (t.done = true ∧ t.mem.unp = reservedBit) = true :=
  ⟨by decide, by decide, rfl, next_of (by decide), next_of (by decide)⟩

/-- PatchRoundTrip, under either policy. -/
theorem test_meets_PatchRoundTrip :
    Config.ref.WF ∧ refIgnore.WF ∧ Patch.wf P0 = true ∧
      (∃ t, exec .encode (withPatch P0) = .next t ∧ t.done = true) ∧
      ∃ t, exec .encode (machine refIgnore [] [] [] 0#32 P0) = .next t ∧ t.done = true :=
  ⟨by decide, by decide, by decide, next_of (by decide), next_of (by decide)⟩

end Sys2Proof.Machine.Tests
end

section
/-! PROOFS of the scope family (00_scope.md): what the configuration check says, and how a command ends. -/

namespace Sys2Proof.Machine

/-! ### The configuration check -/

theorem Config.bytesOk_iff {c : Config} :
    c.bytesOk = true ↔ (∀ b ∈ c.ident, b.toNat ≤ 0x7F) ∧ 0x80 ≤ c.startByte.toNat ∧ 0x80 ≤ c.endByte.toNat := by
  simp only [Config.bytesOk, Bool.and_eq_true, List.all_eq_true, decide_eq_true_eq, and_assoc]

theorem Config.regionOk_iff {c : Config} : c.regionOk = true ↔ c.ckLo ≤ c.ckHi ∧ c.ckHi ≤ c.ckBufLen := by
  simp only [Config.regionOk, Bool.and_eq_true, decide_eq_true_eq]

/-- The five conditions of 00_scope R7, with the length of MFR_ID from 00_scope R5. -/
theorem Config.wf_iff {c : Config} :
    c.WF ↔ 1 ≤ c.mfrId.length ∧
      ((∀ b ∈ c.ident, b.toNat ≤ 0x7F) ∧ 0x80 ≤ c.startByte.toNat ∧ 0x80 ≤ c.endByte.toNat) ∧
      1 ≤ c.nGroups ∧ (c.ckLo ≤ c.ckHi ∧ c.ckHi ≤ c.ckBufLen) ∧ c.frameLenFixed ≤ c.bufMax ∧
      schemaWellFormed c.spanBits c.schema = true := by
  unfold Config.WF Config.wellFormed
  simp only [Bool.and_eq_true, Config.bytesOk_iff, Config.regionOk_iff, Config.mfrIdOk, Config.groupsOk,
    Config.bufMaxOk, decide_eq_true_eq, and_assoc]

theorem step_of_not_wf {s : State} (h : ¬ s.cfg.WF) : step s = .refused .illFormedConfig := by
  show stepBody s = _
  unfold stepBody
  exact if_neg h

/-- Settles O12: the check says its rule, and a configuration it rejects has no step. -/
theorem illFormedConfigurationRefused : Obligations.IllFormedConfigurationRefused := by
  refine ⟨fun c => ?_, fun s h => step_of_not_wf h⟩
  rw [Config.wf_iff]
  simp only [Config.ident, Config.spanBits, and_assoc]

/-! ### The errors of a command -/

/-- The CODEs a command may raise (60_exceptions R200). -/
def errorCodes : Instr → List Nat
  | .frameParse => [1, 2]
  | .frameBuild => [1]
  | .unpack => [1]
  | .pack => [1]
  | .ckCompute => [1]
  | .ckVerify => [1]
  | .ckAppend => [1]
  | .fieldDecode => [1, 4]
  | .fieldEncode => [4, 5, 6]
  | .decode => [1, 2, 3, 4]
  | .encode => [4, 5, 6]

/-- An error of one of the given CODEs whose INDEX fits its field (10_state R28). -/
def ErrorRecord.HasCode (codes : List Nat) (e : ErrorRecord) : Prop :=
  e.kind.code ∈ codes ∧ e.index ≤ 0xFFFF

theorem ErrorRecord.HasCode.mono {codes codes' : List Nat} {e : ErrorRecord} (h : e.HasCode codes)
    (hsub : codes ⊆ codes') : e.HasCode codes' := ⟨hsub h.1, h.2⟩

theorem errorCodes_bounds {i : Instr} {n : Nat} (h : n ∈ errorCodes i) : 1 ≤ n ∧ n ≤ 6 := by
  have key : ∀ n ∈ errorCodes i, 1 ≤ n ∧ n ≤ 6 := by cases i <;> decide
  exact key n h

theorem ErrorKind.sub_le (k : ErrorKind) : k.sub ≤ 10 := by
  cases k with
  | format cause => cases cause <;> decide
  | validation cause => cases cause <;> decide
  | deviceMismatch => decide
  | checksum => decide
  | missingField => decide
  | unknownField => decide
  | illegalCommand => decide

theorem formatError_hasCode (cause : FormatCause) (offset expected actual : Nat) :
    (formatError cause offset expected actual).HasCode [1] := ⟨List.mem_singleton.mpr rfl, le_rfl⟩

/-- A FORMAT error that names no entry has CODE 1. -/
theorem ErrorRecord.hasCode_of_format {e : ErrorRecord} (hk : ∃ cause, e.kind = .format cause)
    (hi : e.index = 0xFFFF) : e.HasCode [1] := by
  obtain ⟨cause, hk⟩ := hk
  exact ⟨by simp [hk, ErrorKind.code], hi.le⟩

/-- A VALIDATION error at an entry of a well-formed schema has CODE 4. -/
theorem ErrorRecord.hasCode_of_validation {c : Config} (hc : c.WF) {e : ErrorRecord}
    (hk : ∃ cause, e.kind = .validation cause) (hi : e.index < c.schema.length) : e.HasCode [4] := by
  obtain ⟨cause, hk⟩ := hk
  have hlen := (schemaWellFormed_length (Config.WF.schema hc)).2
  exact ⟨by simp [hk, ErrorKind.code], by omega⟩

theorem frameParse_error_hasCode {c : Config} {F : List Byte} {e : ErrorRecord} (h : frameParse c F = .error e) :
    e.HasCode [1, 2] := by
  obtain ⟨hk | hk, hi⟩ := frameParse_error h
  · exact (ErrorRecord.hasCode_of_format hk hi).mono (by decide)
  · exact ⟨by simp [hk, ErrorKind.code], hi.le⟩

theorem frameBuild_error_hasCode {c : Config} {D : List Byte} {C : Ck} {e : ErrorRecord}
    (h : frameBuild c D C = .error e) : e.HasCode [1] := by
  rw [(frameBuild_error h).2]
  exact formatError_hasCode ..

theorem unpack_error_hasCode {c : Config} {D : List Byte} {e : ErrorRecord} (h : unpack c D = .error e) :
    e.HasCode [1] :=
  ErrorRecord.hasCode_of_format (unpack_error h).1 (unpack_error h).2

theorem pack_error_hasCode {c : Config} {U : List Byte} {e : ErrorRecord} (h : pack c U = .error e) :
    e.HasCode [1] :=
  ErrorRecord.hasCode_of_format (pack_error h).1 (pack_error h).2

theorem ck_error_hasCode {c : Config} {D U : List Byte} {e : ErrorRecord} (h : ck c D U = .error e) :
    e.HasCode [1] := by
  rw [(ck_error_iff.mp h).2]
  exact formatError_hasCode ..

theorem fieldDecode_error_hasCode {c : Config} (hc : c.WF) {S : List Byte} {e : ErrorRecord}
    (h : fieldDecode c S = .error e) : e.HasCode [1, 4] := by
  obtain ⟨hk, hi⟩ | ⟨hk, hi⟩ := fieldDecode_error h
  · exact (ErrorRecord.hasCode_of_format hk hi).mono (by decide)
  · exact (ErrorRecord.hasCode_of_validation hc hk hi).mono (by decide)

theorem fieldEncode_error_hasCode {c : Config} (hc : c.WF) {m : Patch} {e : ErrorRecord}
    (h : fieldEncode c m = .error e) : e.HasCode [4, 5, 6] := by
  obtain ⟨hk | hk, hi⟩ | ⟨hk, hi⟩ := fieldEncode_error h
  · exact (ErrorRecord.hasCode_of_validation hc hk hi).mono (by decide)
  · have hlen := (schemaWellFormed_length (Config.WF.schema hc)).2
    exact ⟨by simp [hk, ErrorKind.code], by omega⟩
  · exact ⟨by simp [hk, ErrorKind.code], hi.le⟩

/-- DECODE raises the errors of the units it runs, and CHECKSUM (44_composite R190). -/
theorem decodeFrame_error_hasCode {c : Config} (hc : c.WF) {F : List Byte} {e : ErrorRecord}
    (h : decodeFrame c F = .error e) : e.HasCode [1, 2, 3, 4] := by
  obtain hp | ⟨D, C, -, hu | ⟨U, -, hv | ⟨v, -, ⟨-, rfl⟩ | ⟨-, hm⟩⟩⟩⟩ := decodeFrame_error h
  · exact (frameParse_error_hasCode hp).mono (by decide)
  · exact (unpack_error_hasCode hu).mono (by decide)
  · exact (ck_error_hasCode hv).mono (by decide)
  · exact ⟨by simp [ErrorKind.code], le_rfl⟩
  · exact (fieldDecode_error_hasCode hc hm).mono (by decide)

theorem Result.map_error_iff {α β : Type} {r : Result α} {f : α → β} {e : ErrorRecord} :
    r.map f = .error e ↔ r = .error e := by
  cases r <;> simp [Except.map]

/-- Each command raises only the CODEs of its rows, at an INDEX that fits its field. -/
theorem bodyOf_error_hasCode {i : Instr} {s : State} (hc : s.cfg.WF) {e : ErrorRecord}
    (h : bodyOf i s = .error e) : e.HasCode (errorCodes i) := by
  cases i with
  | frameParse => exact frameParse_error_hasCode (Result.map_error_iff.mp h)
  | frameBuild => exact frameBuild_error_hasCode (Result.map_error_iff.mp h)
  | unpack => exact unpack_error_hasCode (Result.map_error_iff.mp h)
  | pack => exact pack_error_hasCode (Result.map_error_iff.mp h)
  | ckCompute => exact ck_error_hasCode (Result.map_error_iff.mp h)
  | ckVerify => exact ck_error_hasCode (Result.map_error_iff.mp h)
  | ckAppend => exact ck_error_hasCode (Result.map_error_iff.mp h)
  | fieldDecode => exact fieldDecode_error_hasCode hc (Result.map_error_iff.mp h)
  | fieldEncode => exact fieldEncode_error_hasCode hc (Result.map_error_iff.mp h)
  | decode => exact decodeFrame_error_hasCode hc h
  | encode => exact fieldEncode_error_hasCode hc ((encodePatch_error_iff hc).mp h)

/-- Settles O20: a command's body gives an error, which is recorded and nothing else, or updates, which are written with
the success record. -/
theorem commandRaisesOrCompletes : Obligations.CommandRaisesOrCompletes := by
  intro i s hc
  rw [exec_eq_finish]
  cases hb : bodyOf i s with
  | error e =>
    obtain ⟨hcode, hindex⟩ := bodyOf_error_hasCode hc hb
    obtain ⟨hlo, hhi⟩ := errorCodes_bounds hcode
    have hnext : s.finish (.error e) = .next (s.recorded e.kind.code e.kind.sub e.index e.elem e.offset e.expected
        e.actual e.name) := by
      rw [State.finish_error, State.raise_eq_recorded s e (by omega)]
    exact .inl ⟨_, _, _, _, _, _, _, _, hlo, hhi, e.kind.sub_le, hindex, hnext⟩
  | ok u =>
    exact .inr ⟨_, _, _, _, _, by rw [State.finish_ok, State.complete_eq_succeeded]⟩

end Sys2Proof.Machine
end

section
/-! PROOFS of the state family (10_state.md): the invariant of every step, the constant and the reserved registers, the
schema check, and what commands read and write of STATUS. -/

namespace Sys2Proof.Machine

/-! ### What an error writes to ERR_CODE -/

theorem ErrorKind.code_bounds (k : ErrorKind) : 1 ≤ k.code ∧ k.code ≤ 7 := by
  cases k <;> simp [ErrorKind.code]

/-- SUB stands in bits 15:8 of ERR_CODE and CODE in bits 3:0 (10_state R27, 60_exceptions R204). -/
theorem errCodeWord_toNat (k : ErrorKind) : (errCodeWord k).toNat = 2 ^ 8 * k.sub + k.code := by
  have hcode := k.code_bounds
  have hsub := k.sub_le
  unfold errCodeWord
  rw [← Nat.shiftLeft_add_eq_or_of_lt (by omega), Nat.shiftLeft_eq, BitVec.toNat_ofNat]
  omega

/-- The bits 10_state R27 does not list read 0 after an error. -/
theorem errCodeWord_reserved (k : ErrorKind) {i : Nat} (hi : (4 ≤ i ∧ i < 8) ∨ 16 ≤ i) :
    (errCodeWord k).getLsbD i = false := by
  have hcode : k.code < 2 ^ 4 := by have := k.code_bounds; omega
  have hsub : k.sub < 2 ^ 8 := by have := k.sub_le; omega
  rw [← BitVec.testBit_toNat, errCodeWord_toNat, Nat.testBit_two_pow_mul_add _ (by omega)]
  obtain ⟨h4, h8⟩ | h16 := hi
  · rw [if_pos h8]
    exact Nat.testBit_lt_two_pow (hcode.trans_le (Nat.pow_le_pow_right (by decide) h4))
  · rw [if_neg (by omega)]
    exact Nat.testBit_lt_two_pow (hsub.trans_le (Nat.pow_le_pow_right (by decide) (by omega)))

theorem State.raise_code (s : State) (e : ErrorRecord) : (s.raise e).code = e.kind.code := by
  have hcode := e.kind.code_bounds
  unfold State.code
  rw [State.raise_errCode, errCodeWord_toNat]
  omega

/-! ### The invariant under the shared operations -/

/-- A seven-bit value written to CK_VALUE or CK_BYTE leaves bits 31:7 at 0 (10_state R32, R33). -/
theorem setWidth_ck_high (v : Ck) {i : Nat} (hi : 7 ≤ i) : (v.setWidth 32).getLsbD i = false := by
  rw [BitVec.getLsbD_setWidth, BitVec.getLsbD_of_ge v i hi, Bool.and_false]

/-- A register that takes a seven-bit value or keeps its own keeps bits 31:7 at 0. -/
theorem updated_ck_high {o : Option Ck} {w : Word} (hw : ∀ i, 7 ≤ i → w.getLsbD i = false) {i : Nat} (hi : 7 ≤ i) :
    ((o.map (BitVec.setWidth 32)).getD w).getLsbD i = false := by
  cases o with
  | none => exact hw i hi
  | some v => exact setWidth_ck_high v hi

/-- A command's updates that fit the state: no new buffer is longer than `n`, and a new patch is canonical. -/
structure Updates.Fit (n : Nat) (u : Updates) : Prop where
  frame : ∀ l, u.frame = some l → l.length ≤ n
  pkd   : ∀ l, u.pkd = some l → l.length ≤ n
  unp   : ∀ l, u.unp = some l → l.length ≤ n
  patch : ∀ m, u.patch = some m → Patch.wf m = true

theorem State.complete_inv {s : State} {u : Updates} (hs : s.Inv) (hu : u.Fit s.cfg.bufMax) : (s.complete u).Inv := by
  obtain ⟨hmem, hpatch, ⟨-, -, hckValue, hckByte⟩, -⟩ := hs
  have hpatch' : Patch.wf (s.complete u).patch = true := by
    rw [State.complete_patch]
    cases hm : u.patch with
    | none => exact hpatch
    | some m => exact hu.patch m hm
  refine ⟨Memory.wf_complete hmem hu.frame hu.pkd hu.unp, hpatch', ⟨?_, ?_, ?_, ?_⟩, ?_, ?_, ?_⟩
  · exact fun i hi => statusWord_high _ _ _ i hi
  · exact fun i _ => BitVec.getLsbD_zero
  · exact fun i hi => updated_ck_high hckValue hi
  · exact fun i hi => updated_ck_high hckByte hi
  · simp
  · simp [State.code]
  · exact fun _ => ⟨rfl, rfl, rfl, rfl, rfl, rfl⟩

theorem State.raise_inv {s : State} (e : ErrorRecord) (hs : s.Inv) : (s.raise e).Inv := by
  obtain ⟨hmem, hpatch, ⟨-, -, hckValue, hckByte⟩, -⟩ := hs
  have hcode : (s.raise e).code ≠ 0 := by
    rw [State.raise_code]
    have := e.kind.code_bounds
    omega
  refine ⟨hmem, hpatch, ⟨?_, ?_, hckValue, hckByte⟩, ?_, ?_, ?_⟩
  · exact fun i hi => statusWord_high _ _ _ i hi
  · exact fun i hi => errCodeWord_reserved e.kind hi
  · simp
  · simp [hcode]
  · simp

theorem State.writeReg_inv {s : State} (n : Nat) (v : Word) (hs : s.Inv) : (s.writeReg n v).Inv := by
  by_cases hn : n = 8
  · subst hn
    obtain ⟨hmem, hpatch, ⟨hstatus, herrCode, hckValue, -⟩, hflags⟩ := hs
    exact ⟨hmem, hpatch, ⟨hstatus, herrCode, hckValue, fun i hi => setWidth_ck_high _ hi⟩, hflags⟩
  · rwa [State.writeReg_ignored s n v hn]

theorem State.resetWith_inv (c : Config) : (State.resetWith c).Inv := by
  have hzero : ∀ i, (0#32).getLsbD i = false := fun i => BitVec.getLsbD_zero
  refine ⟨by simp [Memory.wf], rfl, ⟨fun i _ => hzero i, fun i _ => hzero i, fun i _ => hzero i, fun i _ => hzero i⟩,
    ?_, ?_, fun _ => ⟨rfl, rfl, rfl, rfl, rfl, rfl⟩⟩
  · simp [State.done]
  · simp [State.err, State.code]

/-! ### What a command writes fits -/

theorem gl_le_gp (c : Config) : c.gl ≤ c.gp := by
  unfold Config.gl Config.gp
  cases c.packScheme <;> decide

/-- UNPACK gives no more bytes than it reads (41_packer R120). -/
theorem unpack_length_le {c : Config} {D U : List Byte} (h : unpack c D = .ok U) : U.length ≤ D.length := by
  obtain ⟨⟨hmod, -⟩, rfl⟩ := unpack_ok_iff.mp h
  rw [unpackStream_length hmod]
  calc D.length / c.gp * c.gl ≤ D.length / c.gp * c.gp := Nat.mul_le_mul_left _ (gl_le_gp c)
    _ = D.length := div_mul_of_mod hmod

theorem pack_length_le {c : Config} {U D : List Byte} (h : pack c U = .ok D) : D.length ≤ c.bufMax := by
  obtain ⟨hmod, hmax, rfl⟩ := pack_ok_iff.mp h
  rwa [packStream_length hmod]

theorem frameParse_length_le {c : Config} {F D : List Byte} {C : Ck} (h : frameParse c F = .ok (D, C)) :
    D.length ≤ F.length := by
  have := frameParse_length h
  omega

/-- A frame of the configured data length fits BUF_MAX (00_scope R7 condition 4). -/
theorem frameBuild_length_le {c : Config} (hc : c.WF) {D F : List Byte} {C : Ck} (h : frameBuild c D C = .ok F) :
    F.length ≤ c.bufMax := by
  obtain ⟨hD, rfl⟩ := frameBuild_ok_iff.mp h
  have hmax := Config.WF.bufMax hc
  unfold Config.frameLenFixed at hmax
  rw [frameOf_length, hD]
  exact hmax

theorem fieldEncode_length_le {c : Config} (hc : c.WF) {m : Patch} {U : List Byte} (h : fieldEncode c m = .ok U) :
    U.length ≤ c.bufMax := by
  have hmax := Config.WF.bufMax hc
  have hgl : c.nGroups * c.gl ≤ c.nGroups * c.gp := Nat.mul_le_mul_left _ (gl_le_gp c)
  unfold Config.frameLenFixed Config.pkdLen at hmax
  rw [fieldEncode_length h]
  omega

theorem fieldDecode_wf {c : Config} (hc : c.WF) {S : List Byte} {m : Patch} (h : fieldDecode c S = .ok m) :
    Patch.wf m = true := by
  rw [((fieldDecode_ok_iff (Config.WF.schema hc)).mp h).2]
  exact wf_decodedPatch c S

theorem Result.map_ok_iff {α β : Type} {r : Result α} {f : α → β} {b : β} :
    r.map f = .ok b ↔ ∃ a, r = .ok a ∧ f a = b := by
  cases r <;> simp [Except.map]

theorem decodeFrame_fit {c : Config} (hc : c.WF) {F : List Byte} {u : Updates} (hF : F.length ≤ c.bufMax)
    (h : decodeFrame c F = .ok u) : u.Fit c.bufMax := by
  obtain ⟨D, C, U, m, hD, hU, -, hm, rfl⟩ := decodeFrame_ok_iff.mp h
  have hDlen := (frameParse_length_le hD).trans hF
  have hUlen := (unpack_length_le hU).trans hDlen
  have hmwf := fieldDecode_wf hc hm
  constructor <;> simp [hDlen, hUlen, hmwf]

theorem encodePatch_fit {c : Config} (hc : c.WF) {m : Patch} {u : Updates} (h : encodePatch c m = .ok u) :
    u.Fit c.bufMax := by
  obtain ⟨U, v, hU, -, rfl⟩ := (encodePatch_ok_iff hc).mp h
  obtain ⟨v', hpack, -, -, hbuild⟩ := units_after_fieldEncode hc hU
  have hUlen := fieldEncode_length_le hc hU
  have hDlen := pack_length_le hpack
  have hFlen := frameBuild_length_le hc hbuild
  rw [frameOf_length] at hFlen
  constructor <;> simp [hUlen, hDlen, hFlen, frameOf_length]

/-- The updates of every command fit a state whose buffers do (10_state R38). -/
theorem bodyOf_fit {i : Instr} {s : State} (hc : s.cfg.WF) (hmem : s.mem.wf s.cfg.bufMax = true) {u : Updates}
    (h : bodyOf i s = .ok u) : u.Fit s.cfg.bufMax := by
  have hbuf := (Memory.wf_iff _ _).mp hmem
  cases i with
  | frameParse =>
    obtain ⟨⟨D, C⟩, hD, rfl⟩ := Result.map_ok_iff.mp h
    have hlen := (frameParse_length_le hD).trans (hbuf .frame)
    constructor <;> simp [hlen]
  | frameBuild =>
    obtain ⟨F, hF, rfl⟩ := Result.map_ok_iff.mp h
    have hlen := frameBuild_length_le hc hF
    constructor <;> simp [hlen]
  | unpack =>
    obtain ⟨U, hU, rfl⟩ := Result.map_ok_iff.mp h
    have hlen := (unpack_length_le hU).trans (hbuf .pkd)
    constructor <;> simp [hlen]
  | pack =>
    obtain ⟨D, hD, rfl⟩ := Result.map_ok_iff.mp h
    have hlen := pack_length_le hD
    constructor <;> simp [hlen]
  | ckCompute =>
    obtain ⟨v, -, rfl⟩ := Result.map_ok_iff.mp h
    constructor <;> simp
  | ckVerify =>
    obtain ⟨v, -, rfl⟩ := Result.map_ok_iff.mp h
    constructor <;> simp
  | ckAppend =>
    obtain ⟨v, -, rfl⟩ := Result.map_ok_iff.mp h
    constructor <;> simp
  | fieldDecode =>
    obtain ⟨m, hm, rfl⟩ := Result.map_ok_iff.mp h
    have hwf := fieldDecode_wf hc hm
    constructor <;> simp [hwf]
  | fieldEncode =>
    obtain ⟨U, hU, rfl⟩ := Result.map_ok_iff.mp h
    have hlen := fieldEncode_length_le hc hU
    constructor <;> simp [hlen]
  | decode => exact decodeFrame_fit hc (hbuf .frame) h
  | encode => exact encodePatch_fit hc h

/-! ### The invariant under every step -/

theorem exec_inv {i : Instr} {s t : State} (hc : s.cfg.WF) (hs : s.Inv) (h : exec i s = .next t) : t.Inv := by
  obtain ⟨e, -, rfl⟩ | ⟨u, hu, rfl⟩ := exec_cases h
  · exact State.raise_inv e hs
  · exact State.complete_inv hs (bodyOf_fit hc hs.1 hu)

theorem runCommand_inv {w : Word} {s t : State} (hc : s.cfg.WF) (hs : s.Inv) (h : runCommand w s = .next t) :
    t.Inv := by
  obtain ⟨i, -, hi⟩ | ⟨-, rfl⟩ := runCommand_cases h
  · exact exec_inv hc hs hi
  · exact State.raise_inv _ hs

theorem writeBuf_inv {x : BufName} {l : List Int} {s t : State} (hs : s.Inv) (h : writeBuf x l s = .next t) :
    t.Inv := by
  obtain ⟨hl, bs, hbs, rfl⟩ := writeBuf_cases h
  obtain ⟨hmem, hpatch, hbits, hflags⟩ := hs
  exact ⟨Memory.wf_setBuf hmem (bytesOf_length hbs ▸ hl), hpatch, hbits, hflags⟩

/-- The invariant speaks neither of the answer nor of the actions still to come. -/
theorem hostAct_inv {a : HostAction} {s t : State} (hc : s.cfg.WF) (hs : s.Inv) (h : hostAct a s = .next t) :
    t.Inv := by
  cases a with
  | writeBuf x l => exact writeBuf_inv hs h
  | readBuf x => cases h; exact hs
  | writePatch m =>
    cases h
    obtain ⟨hmem, -, hbits, hflags⟩ := hs
    exact ⟨hmem, Patch.wf_normal m, hbits, hflags⟩
  | readPatch => cases h; exact hs
  | readErrName => cases h; exact hs
  | regRead n =>
    obtain ⟨-, rfl⟩ := regRead_cases h
    exact hs
  | regWrite n v =>
    obtain ⟨-, hrun⟩ | ⟨-, -, rfl⟩ := regWrite_cases h
    · exact runCommand_inv hc hs hrun
    · exact State.writeReg_inv n v hs
  | reset =>
    cases h
    exact State.resetWith_inv s.cfg

/-- Settles O15: an idle step keeps the state, and every action of the host keeps the invariant. -/
theorem stepKeepsInvariant : Obligations.StepKeepsInvariant := by
  intro s t hs h
  obtain ⟨hc, ⟨-, rfl⟩ | ⟨a, rest, -, ha⟩⟩ := step_cases h
  · exact hs
  · exact hostAct_inv (s := { s with pending := rest, answer := .nothing }) hc hs ha

/-! ### Single steps -/

/-- The step of a well-formed machine is its next host action, with the answer cleared (logs 2 and 4). -/
theorem step_of_pending {s : State} {a : HostAction} {rest : List HostAction} (hc : s.cfg.WF)
    (hp : s.pending = a :: rest) : step s = hostAct a { s with pending := rest, answer := .nothing } := by
  show stepBody s = _
  unfold stepBody
  rw [if_pos hc, hp]

theorem regRead_of_lt {n : Nat} (hn : n < 16) (s : State) :
    regRead n s = .next { s with answer := .word (s.readReg n) } := if_neg (by omega)

theorem regRead_of_ge {n : Nat} (hn : 16 ≤ n) (s : State) : regRead n s = .refused .noSuchRegister := if_pos hn

theorem regWrite_of_ge {n : Nat} (hn : 16 ≤ n) (v : Word) (s : State) : regWrite n v s = .refused .noSuchRegister :=
  if_pos hn

/-- A RegWrite to a register other than CMD and CK_BYTE is ignored (20_memory R55). -/
theorem regWrite_ignored {n : Nat} (hn : n < 16) (h0 : n ≠ 0) (h8 : n ≠ 8) (v : Word) (s : State) :
    regWrite n v s = .next s := by
  unfold regWrite
  rw [if_neg (by omega), if_neg h0, State.writeReg_ignored s n v h8]

theorem State.readReg_reserved (s : State) {n : Nat} (hn : 11 ≤ n) : s.readReg n = 0#32 := by
  obtain ⟨k, rfl⟩ := Nat.exists_eq_add_of_le' hn
  rfl

theorem runCommand_of_decode {w : Word} {i : Instr} (h : decode w = some i) (s : State) :
    runCommand w s = exec i s := by
  unfold runCommand
  rw [h]

theorem decode_encode (i : Instr) : decode (encode i) = some i := by
  cases i <;> decide

/-- `withFetchWord` of a command's word makes its CMD write the next action (log 2). -/
theorem State.withFetchWord_encode (s : State) (i : Instr) :
    s.withFetchWord 32 (encode i).toNat = { s with pending := cmdAction i :: s.pending } := by
  unfold State.withFetchWord withCommandWord cmdAction
  rw [Nat.mod_eq_of_lt (encode i).isLt, BitVec.ofNat_toNat, BitVec.setWidth_eq]

/-- A step whose action is a CMD write of a legal word is the command. -/
theorem step_of_command {s : State} {rest : List HostAction} {w : Word} {i : Instr} (hc : s.cfg.WF)
    (hp : s.pending = .regWrite 0 w :: rest) (hw : decode w = some i) :
    step s = exec i { s with pending := rest, answer := .nothing } :=
  (step_of_pending hc hp).trans (runCommand_of_decode hw _)

/-- Settles O4: the step runs the decoded command, and `withFetchWord` places such a step. -/
theorem stepRunsDecodedCommand : Obligations.StepRunsDecodedCommand := by
  refine ⟨fun s rest w i => step_of_command, fun s i hc => ?_⟩
  rw [State.withFetchWord_encode]
  exact step_of_command hc rfl (decode_encode i)

/-- Settles O7: a reserved register reads 0 and takes no write, and from 16 on there is no register. -/
theorem reservedRegisterNumbers : Obligations.ReservedRegisterNumbers := by
  intro s rest n v hc
  refine ⟨fun h11 h16 hp => ?_, fun h11 h16 hp => ?_, fun h16 hp => ?_⟩
  · refine (step_of_pending hc hp).trans ((regRead_of_lt h16 _).trans ?_)
    rw [State.readReg_reserved _ h11]
  · exact (step_of_pending hc hp).trans (regWrite_ignored h16 (by omega) (by omega) v _)
  · obtain hp | hp := hp
    · exact (step_of_pending hc hp).trans (regRead_of_ge h16 _)
    · exact (step_of_pending hc hp).trans (regWrite_of_ge h16 v _)

/-! ### CONFIG and SCHEMA_COUNT (10_state R34, R35) -/

theorem PackScheme.bits_bound (p : PackScheme) : p.bits ≤ 1 ∧ (p.bits = 1 ↔ p = .nibble) := by cases p <;> decide

theorem FlagBitOrder.bits_bound (o : FlagBitOrder) : o.bits ≤ 1 ∧ (o.bits = 1 ↔ o = .msbFirst) := by
  cases o <;> decide

theorem NibbleOrder.bits_bound (o : NibbleOrder) : o.bits ≤ 1 ∧ (o.bits = 1 ↔ o = .lowFirst) := by
  cases o <;> decide

theorem CkAlgo.bits_bound (a : CkAlgo) : a.bits ≤ 2 ∧ (a.bits = 1 ↔ a = .sum7) ∧ (a.bits = 2 ↔ a = .xor7) := by
  cases a <;> decide

theorem CkDomain.bits_bound (d : CkDomain) : d.bits ≤ 1 ∧ (d.bits = 1 ↔ d = .unpacked) := by cases d <;> decide

theorem ReservedPolicy.bits_bound (r : ReservedPolicy) : r.bits ≤ 1 ∧ (r.bits = 1 ↔ r = .ignore) := by
  cases r <;> decide

/-- Every bit of CONFIG against its configuration field, and the zero bits above (10_state R34). -/
theorem Config.configWord_bits (c : Config) :
    (c.configWord.getLsbD 0 = true ↔ c.packScheme = .nibble) ∧
    (c.configWord.getLsbD 1 = true ↔ c.flagBitOrder = .msbFirst) ∧
    (c.configWord.getLsbD 2 = true ↔ c.nibbleOrder = .lowFirst) ∧
    (c.configWord.getLsbD 3 = true ↔ c.ckAlgo = .sum7) ∧
    (c.configWord.getLsbD 4 = true ↔ c.ckAlgo = .xor7) ∧
    (c.configWord.getLsbD 5 = true ↔ c.ckDomain = .unpacked) ∧
    (c.configWord.getLsbD 6 = true ↔ c.reservedPolicy = .ignore) ∧
    ∀ i, 7 ≤ i → c.configWord.getLsbD i = false := by
  obtain ⟨hp, hp1⟩ := PackScheme.bits_bound c.packScheme
  obtain ⟨ho, ho1⟩ := FlagBitOrder.bits_bound c.flagBitOrder
  obtain ⟨hn, hn1⟩ := NibbleOrder.bits_bound c.nibbleOrder
  obtain ⟨ha, ha1, ha2⟩ := CkAlgo.bits_bound c.ckAlgo
  obtain ⟨hd, hd1⟩ := CkDomain.bits_bound c.ckDomain
  obtain ⟨hr, hr1⟩ := ReservedPolicy.bits_bound c.reservedPolicy
  have hbit : ∀ i, c.configWord.getLsbD i = true ↔ i < 32 ∧ (c.packScheme.bits + 2 * c.flagBitOrder.bits +
      4 * c.nibbleOrder.bits + 8 * c.ckAlgo.bits + 32 * c.ckDomain.bits + 64 * c.reservedPolicy.bits) / 2 ^ i % 2 = 1 := by
    intro i
    rw [Config.configWord, BitVec.getLsbD_ofNat, Nat.testBit_eq_decide_div_mod_eq, Bool.and_eq_true,
      decide_eq_true_eq, decide_eq_true_eq]
  simp only [hbit, ← hp1, ← ho1, ← hn1, ← ha1, ← ha2, ← hd1, ← hr1]
  refine ⟨by omega, by omega, by omega, by omega, by omega, by omega, by omega, fun i hi => ?_⟩
  rw [← Bool.not_eq_true, hbit, Nat.div_eq_of_lt]
  · simp
  · exact lt_of_lt_of_le (by omega) (Nat.pow_le_pow_right (by decide) hi)

/-- len(SCHEMA) fits the sixteen bits of SCHEMA_COUNT (10_state R42 condition 5). -/
theorem Config.schemaCountWord_toNat {c : Config} (hc : c.WF) : c.schemaCountWord.toNat = c.schema.length := by
  have hlen := (schemaWellFormed_length (Config.WF.schema hc)).2
  unfold Config.schemaCountWord
  rw [BitVec.toNat_setWidth, BitVec.toNat_ofNat]
  omega

/-- Settles O10: the bits of CONFIG, the number in SCHEMA_COUNT, their reads, and the writes they ignore. -/
theorem constantRegistersReflectConfiguration : Obligations.ConstantRegistersReflectConfiguration := by
  refine ⟨fun c hc => ?_, fun s rest n v hc hn => ⟨fun hp => ?_, fun hp => ?_⟩, rfl, rfl⟩
  · obtain ⟨h0, h1, h2, h3, h4, h5, h6, hhigh⟩ := Config.configWord_bits c
    exact ⟨h0, h1, h2, h3, h4, h5, h6, hhigh, Config.schemaCountWord_toNat hc⟩
  · refine (step_of_pending hc hp).trans ((regRead_of_lt (by omega) _).trans ?_)
    obtain rfl | rfl := hn <;> rfl
  · exact (step_of_pending hc hp).trans (regWrite_ignored (by omega) (by omega) (by omega) v _)

/-! ### The schema check (10_state R42) -/

/-- 10_state R42 condition 1. -/
theorem Entry.sizeOk_iff {e : Entry} :
    e.sizeOk = true ↔
      1 ≤ e.width ∧ e.width ≤ 32 ∧ (e.kind = .array → 1 ≤ e.count) ∧ (e.kind ≠ .array → e.count = 1) := by
  unfold Entry.sizeOk fieldWidthMax
  cases e.kind <;> simp [and_assoc]

/-- 10_state R42 condition 2, for one entry. -/
theorem Entry.nameOk_iff {e : Entry} : e.nameOk = true ↔ (e.name.isSome = true ↔ e.kind ≠ .reserved) := by
  unfold Entry.nameOk
  cases e.kind <;> simp

/-- 10_state R42 condition 3. -/
theorem Entry.consOk_iff {e : Entry} :
    e.consOk = true ↔ (e.cons = .none ↔ e.kind = .reserved) ∧
      (∀ lo hi, e.cons = .range lo hi → lo ≤ hi ∧ hi ≤ 2 ^ e.width - 1) ∧
      (∀ ms, e.cons = .enum ms → ms ≠ [] ∧ ∀ m ∈ ms, m ≤ 2 ^ e.width - 1) := by
  unfold Entry.consOk
  cases e.kind <;> cases e.cons <;> simp

/-- 10_state R42 condition 2 across entries: no two positions of the schema hold one name. -/
theorem namesDistinct_schemaNames_iff {es : List Entry} :
    namesDistinct (schemaNames es) = true ↔
      ∀ (i j : Nat) (e e' : Entry) (k : Name),
        i ≠ j → es[i]? = some e → es[j]? = some e' → e.name = some k → e'.name ≠ some k := by
  rw [namesDistinct_iff, schemaNames, List.Nodup, List.pairwise_filterMap, List.pairwise_iff_getElem]
  constructor
  · intro h i j e e' k hij hi hj hk hk'
    obtain ⟨hi', rfl⟩ := List.getElem?_eq_some_iff.mp hi
    obtain ⟨hj', rfl⟩ := List.getElem?_eq_some_iff.mp hj
    obtain hlt | hgt := Nat.lt_or_gt_of_ne hij
    · exact h i j hi' hj' hlt k hk k hk' rfl
    · exact h j i hj' hi' hgt k hk' k hk rfl
  · rintro h i j hi hj hij k hk k' hk' rfl
    exact h i j _ _ k hij.ne (List.getElem?_eq_getElem hi) (List.getElem?_eq_getElem hj) hk hk'

/-- 10_state R42 condition 4: a non-empty list of entries tiles the bits from `pos` to `span` exactly if it starts at
`pos`, each entry starts where the one before ends, and the last ends at `span`. -/
theorem tilesFrom_cons_iff {span pos : Nat} {a : Entry} {es : List Entry} :
    tilesFrom span pos (a :: es) = true ↔
      a.off = pos ∧
      (∀ j e e', (a :: es)[j]? = some e → (a :: es)[j + 1]? = some e' → e'.off = e.off + e.width * e.count) ∧
      ∀ e, (a :: es).getLast? = some e → e.off + e.width * e.count = span := by
  induction es generalizing a pos with
  | nil =>
    simp only [tilesFrom, Bool.and_eq_true, decide_eq_true_eq]
    constructor
    · rintro ⟨rfl, hspan⟩
      exact ⟨rfl, by simp, by simpa using hspan⟩
    · rintro ⟨rfl, -, hlast⟩
      exact ⟨rfl, hlast a rfl⟩
  | cons b es ih =>
    rw [tilesFrom, Bool.and_eq_true, decide_eq_true_eq, ih, List.getLast?_cons_cons]
    constructor
    · rintro ⟨rfl, hb, hstep, hlast⟩
      refine ⟨rfl, fun j e e' he he' => ?_, hlast⟩
      cases j with
      | zero =>
        cases he
        cases he'
        exact hb
      | succ j => exact hstep j e e' he he'
    · rintro ⟨rfl, hstep, hlast⟩
      exact ⟨rfl, hstep 0 a b rfl rfl, fun j => hstep (j + 1), hlast⟩

theorem schemaLengthOk_iff {es : List Entry} : schemaLengthOk es = true ↔ 1 ≤ es.length ∧ es.length ≤ 0xFFFE := by
  simp only [schemaLengthOk, Bool.and_eq_true, decide_eq_true_eq]

/-- Conditions 4 and 5 together, in which the schema has a first entry. -/
theorem tilesFrom_and_length_iff {span : Nat} {es : List Entry} :
    tilesFrom span 0 es = true ∧ schemaLengthOk es = true ↔
      (∀ e, es[0]? = some e → e.off = 0) ∧
      (∀ j e e', es[j]? = some e → es[j + 1]? = some e' → e'.off = e.off + e.width * e.count) ∧
      (∀ e, es.getLast? = some e → e.off + e.width * e.count = span) ∧ 1 ≤ es.length ∧ es.length ≤ 0xFFFE := by
  rw [schemaLengthOk_iff]
  cases es with
  | nil => simp
  | cons a es =>
    have hfirst : (∀ e, (a :: es)[0]? = some e → e.off = 0) ↔ a.off = 0 := by simp
    rw [tilesFrom_cons_iff, hfirst, and_assoc, and_assoc]

/-- Settles O11: condition by condition. -/
theorem schemaCheckSaysItsRule : Obligations.SchemaCheckSaysItsRule := by
  intro span es
  simp only [schemaWellFormed, Bool.and_eq_true, and_assoc, tilesFrom_and_length_iff, namesDistinct_schemaNames_iff,
    List.all_eq_true, Entry.sizeOk_iff, Entry.nameOk_iff, Entry.consOk_iff]

/-! ### What changes VERIFY_OK, and what commands read -/

/-- Only a CMD write and Reset change STATUS or the error record (60_exceptions R208). -/
theorem hostAct_status {a : HostAction} {s t : State} (h : hostAct a s = .next t) :
    (t.status = s.status ∧ SameErrorRecord s t) ∨ a = .reset ∨ ∃ w, a = .regWrite 0 w := by
  have hsame : s.status = s.status ∧ SameErrorRecord s s := ⟨rfl, rfl, rfl, rfl, rfl, rfl, rfl⟩
  cases a with
  | writeBuf x l =>
    obtain ⟨-, bs, -, rfl⟩ := writeBuf_cases h
    exact .inl hsame
  | readBuf x => cases h; exact .inl hsame
  | writePatch m => cases h; exact .inl hsame
  | readPatch => cases h; exact .inl hsame
  | readErrName => cases h; exact .inl hsame
  | regRead n =>
    obtain ⟨-, rfl⟩ := regRead_cases h
    exact .inl hsame
  | regWrite n v =>
    obtain ⟨rfl, -⟩ | ⟨-, -, rfl⟩ := regWrite_cases h
    · exact .inr (.inr ⟨v, rfl⟩)
    · by_cases hn : n = 8
      · subst hn; exact .inl hsame
      · rw [State.writeReg_ignored s n v hn]; exact .inl hsame
  | reset => exact .inr (.inl rfl)

/-- Of the commands only CK_VERIFY and DECODE write VERIFY_OK (10_state R44). -/
theorem bodyOf_verifyOk {i : Instr} {s : State} (hc : s.cfg.WF) {u : Updates} (h : bodyOf i s = .ok u) :
    u.verifyOk = none ∨ i = .ckVerify ∨ i = .decode := by
  cases i with
  | frameParse => obtain ⟨_, -, rfl⟩ := Result.map_ok_iff.mp h; exact .inl rfl
  | frameBuild => obtain ⟨_, -, rfl⟩ := Result.map_ok_iff.mp h; exact .inl rfl
  | unpack => obtain ⟨_, -, rfl⟩ := Result.map_ok_iff.mp h; exact .inl rfl
  | pack => obtain ⟨_, -, rfl⟩ := Result.map_ok_iff.mp h; exact .inl rfl
  | ckCompute => obtain ⟨_, -, rfl⟩ := Result.map_ok_iff.mp h; exact .inl rfl
  | ckVerify => exact .inr (.inl rfl)
  | ckAppend => obtain ⟨_, -, rfl⟩ := Result.map_ok_iff.mp h; exact .inl rfl
  | fieldDecode => obtain ⟨_, -, rfl⟩ := Result.map_ok_iff.mp h; exact .inl rfl
  | fieldEncode => obtain ⟨_, -, rfl⟩ := Result.map_ok_iff.mp h; exact .inl rfl
  | decode => exact .inr (.inr rfl)
  | encode => obtain ⟨_, _, -, -, rfl⟩ := (encodePatch_ok_iff hc).mp h; exact .inl rfl

theorem exec_verifyOk {i : Instr} {s t : State} (hc : s.cfg.WF) (h : exec i s = .next t) :
    t.verifyOk = s.verifyOk ∨ i = .ckVerify ∨ i = .decode := by
  obtain ⟨e, -, rfl⟩ | ⟨u, hu, rfl⟩ := exec_cases h
  · exact .inl (State.raise_verifyOk s e)
  · refine (bodyOf_verifyOk hc hu).imp_left fun hnone => ?_
    rw [State.complete_verifyOk, hnone]
    rfl

theorem runCommand_verifyOk {w : Word} {s t : State} (hc : s.cfg.WF) (h : runCommand w s = .next t) :
    t.verifyOk = s.verifyOk ∨ decode w = some .ckVerify ∨ decode w = some .decode := by
  obtain ⟨i, hi, hexec⟩ | ⟨-, rfl⟩ := runCommand_cases h
  · rw [hi, Option.some_inj, Option.some_inj]
    exact exec_verifyOk hc hexec
  · exact .inl (State.raise_verifyOk s _)

/-- Settles O22: a changed STATUS leaves Reset and CMD writes, and of these CK_VERIFY and DECODE. -/
theorem onlyVerifyAndDecodeChangeVerifyOk : Obligations.OnlyVerifyAndDecodeChangeVerifyOk := by
  intro s t h hne
  obtain ⟨hc, ⟨-, rfl⟩ | ⟨a, rest, hp, ha⟩⟩ := step_cases h
  · exact absurd rfl hne
  refine ⟨rest, ?_⟩
  obtain ⟨hstatus, -⟩ | rfl | ⟨w, rfl⟩ := hostAct_status ha
  · exact absurd (congrArg (·.getLsbD 2) hstatus) hne
  · exact .inl hp
  · have hrun := runCommand_verifyOk (s := { s with pending := rest, answer := .nothing }) hc ha
    exact .inr ⟨w, hp, hrun.resolve_left hne⟩

/-- The body of a command is a function of the configuration, the buffers, the patch and CK_BYTE. -/
theorem bodyOf_congr (i : Instr) {s s' : State} (hcfg : s.cfg = s'.cfg) (hmem : s.mem = s'.mem)
    (hpatch : s.patch = s'.patch) (hckByte : s.ckByte = s'.ckByte) : bodyOf i s = bodyOf i s' := by
  have hfield : s.ckByteField = s'.ckByteField := congrArg (BitVec.setWidth 7) hckByte
  cases i <;> simp only [bodyOf, hcfg, hmem, hpatch, hfield]

/-- Settles O24: the two states give the body's operands alike, and the record depends on its result and VERIFY_OK. -/
theorem commandsIgnoreEarlierErrors : Obligations.CommandsIgnoreEarlierErrors := by
  intro i s s' t t' hcfg hmem hpatch hckByte hckValue hverify h h'
  have hverify : statusVerifyOk s.status = statusVerifyOk s'.status := hverify
  rw [exec_eq_finish, bodyOf_congr i hcfg hmem hpatch hckByte] at h
  rw [exec_eq_finish] at h'
  cases hb : bodyOf i s' with
  | error e =>
    rw [hb] at h h'
    cases h
    cases h'
    have hstatus : statusRaised s.status = statusRaised s'.status := by rw [statusRaised, hverify, statusRaised]
    exact ⟨hmem, hpatch, hckByte, hckValue, hstatus, rfl, rfl, rfl, rfl, rfl, rfl⟩
  | ok u =>
    rw [hb] at h h'
    cases h
    cases h'
    have hstatus : statusCompleted s.status u.verifyOk = statusCompleted s'.status u.verifyOk := by
      rw [statusCompleted, hverify, statusCompleted]
    refine ⟨?_, ?_, ?_, ?_, hstatus, rfl, rfl, rfl, rfl, rfl, rfl⟩
    · simp only [State.complete, hmem]
    · simp only [State.complete_patch, hpatch]
    · simp only [State.complete_ckByte, hckByte]
    · simp only [State.complete_ckValue, hckValue]

end Sys2Proof.Machine
end

section
/-! PROOFS of the memory family (20_memory.md): bit fields of a byte stream, the host's reads and writes, and groups of
independent machines. -/

namespace Sys2Proof.Machine

/-! ### Bit fields (20_memory R50) -/

/-- Settles O44: `bitS` is the bit the statement writes out. -/
theorem fieldsAreNumberedLeastSignificantBitFirst : Obligations.FieldsAreNumberedLeastSignificantBitFirst :=
  ⟨getBits_testBit_bitS, fun S off w v i h => ⟨putBits_length S off w v, bitS_putBits S off w v i h⟩⟩

/-! ### Reads (20_memory R55) -/

/-- A register reads as its entry of the list of sixteen (10_state R24). -/
theorem registerValues_getElem? (s : State) {n : Nat} (hn : n < 16) :
    (registerValues s)[n]? = some (s.readReg n) := by
  interval_cases n <;> rfl

/-- Settles O5: each read is its host action, and a register's value is its entry of the list. -/
theorem readsAnswerAndChangeNothing : Obligations.ReadsAnswerAndChangeNothing := by
  intro s rest hc
  refine ⟨fun x hp => step_of_pending hc hp, fun hp => step_of_pending hc hp, fun hp => step_of_pending hc hp,
    fun n w hp hw => ?_⟩
  obtain ⟨hn, -⟩ := List.getElem?_eq_some_iff.mp hw
  obtain rfl : s.readReg n = w := Option.some_inj.mp ((registerValues_getElem? s hn).symm.trans hw)
  exact (step_of_pending hc hp).trans (regRead_of_lt hn _)

/-! ### Writes (20_memory R55) -/

theorem writeBuf_of_bytes {x : BufName} {l : List Int} {bs : List Byte} {s : State} (hl : l.length ≤ s.cfg.bufMax)
    (hbs : bytesOf l = some bs) : writeBuf x l s = .next { s with mem := s.mem.setBuf x bs } := by
  unfold writeBuf
  rw [if_neg (by omega), hbs]

theorem writeBuf_of_overlong {x : BufName} {l : List Int} {s : State} (hl : s.cfg.bufMax < l.length) :
    writeBuf x l s = .refused .bufferTooLong := if_pos hl

theorem writeBuf_of_not_bytes {x : BufName} {l : List Int} {s : State} (hl : l.length ≤ s.cfg.bufMax)
    (hbs : bytesOf l = none) : writeBuf x l s = .refused .byteOutOfRange := by
  unfold writeBuf
  rw [if_neg (by omega), hbs]

/-- A RegWrite of CK_BYTE takes `v[6:0]` (10_state R33). -/
theorem regWrite_ckByte (v : Word) (s : State) :
    regWrite 8 v s = .next { s with ckByte := BitVec.ofNat 32 (v.toNat % 128) } := by
  have hlow : (v.setWidth 7).setWidth 32 = BitVec.ofNat 32 (v.toNat % 128) := by
    rw [setWidth_ck, BitVec.toNat_setWidth]
  rw [← hlow]
  rfl

/-- Settles O6: a list of bytes in range replaces the buffer, a canonical list is its own map, and of the registers only
CK_BYTE takes a write. -/
theorem writesReplaceWhatTheyName : Obligations.WritesReplaceWhatTheyName := by
  intro s rest hc
  refine ⟨fun x bs hp hlen => ?_, fun m hp hm => ?_, fun v hp => ?_, fun n v hp hn h0 h8 => ?_⟩
  · have hwrite := writeBuf_of_bytes (x := x) (s := { s with pending := rest, answer := .nothing })
      ((List.length_map _).trans_le hlen) (bytesOf_toNat bs)
    exact ⟨_, (step_of_pending hc hp).trans hwrite, rfl, Memory.memRead_setBuf_same s.mem x bs,
      fun _ hy => Memory.memRead_setBuf_other s.mem bs hy⟩
  · refine (step_of_pending hc hp).trans ?_
    rw [hostAct, Patch.normal_of_wf hm]
  · exact (step_of_pending hc hp).trans (regWrite_ckByte v _)
  · exact (step_of_pending hc hp).trans (regWrite_ignored hn h0 h8 v _)

/-- Settles O8: a list too long, and a list that is no list of bytes. -/
theorem overlongOrNonByteWritesRefused : Obligations.OverlongOrNonByteWritesRefused := by
  intro s rest x l hc hp
  rw [step_of_pending hc hp]
  exact ⟨fun hlong => writeBuf_of_overlong hlong, fun hl hv => writeBuf_of_not_bytes hl (bytesOf_none.mpr hv)⟩

/-! ### Groups (20_memory R63) -/

theorem runCommand_cfg_pending {w : Word} {s t : State} (h : runCommand w s = .next t) :
    t.cfg = s.cfg ∧ t.pending = s.pending := by
  obtain ⟨i, -, hi⟩ | ⟨-, rfl⟩ := runCommand_cases h
  · obtain ⟨e, -, rfl⟩ | ⟨u, -, rfl⟩ := exec_cases hi
    · exact ⟨rfl, rfl⟩
    · exact ⟨rfl, rfl⟩
  · exact ⟨rfl, rfl⟩

/-- No host action writes the configuration or the actions still to come (70_reset R232, log 2). -/
theorem hostAct_cfg_pending {a : HostAction} {s t : State} (h : hostAct a s = .next t) :
    t.cfg = s.cfg ∧ t.pending = s.pending := by
  cases a with
  | writeBuf x l =>
    obtain ⟨-, bs, -, rfl⟩ := writeBuf_cases h
    exact ⟨rfl, rfl⟩
  | readBuf x => cases h; exact ⟨rfl, rfl⟩
  | writePatch m => cases h; exact ⟨rfl, rfl⟩
  | readPatch => cases h; exact ⟨rfl, rfl⟩
  | readErrName => cases h; exact ⟨rfl, rfl⟩
  | regRead n =>
    obtain ⟨-, rfl⟩ := regRead_cases h
    exact ⟨rfl, rfl⟩
  | regWrite n v =>
    obtain ⟨-, hrun⟩ | ⟨-, -, rfl⟩ := regWrite_cases h
    · exact runCommand_cfg_pending hrun
    · by_cases hn : n = 8
      · subst hn; exact ⟨rfl, rfl⟩
      · rw [State.writeReg_ignored s n v hn]; exact ⟨rfl, rfl⟩
  | reset => cases h; exact ⟨rfl, rfl⟩

theorem step_cfg {s t : State} (h : step s = .next t) : t.cfg = s.cfg := by
  obtain ⟨-, ⟨-, rfl⟩ | ⟨a, rest, -, ha⟩⟩ := step_cases h
  · rfl
  · exact (hostAct_cfg_pending ha).1

/-- What a group's step can do: the i-th member makes its own step, in its place. -/
theorem stepMember_cases {i : Nat} {g g' : List State} (h : stepMember i g = some g') :
    ∃ s t, g[i]? = some s ∧ step s = .next t ∧ g' = g.set i t := by
  unfold stepMember at h
  split at h
  · cases h
  · split at h
    · exact ⟨_, _, ‹_›, ‹_›, (Option.some_inj.mp h).symm⟩
    · cases h
    · cases h

/-- Settles O26: replacing one member of a list leaves the others. -/
theorem groupMembersAreIndependent : Obligations.GroupMembersAreIndependent := by
  intro i g g' h
  obtain ⟨s, t, hs, hst, rfl⟩ := stepMember_cases h
  obtain ⟨hi, -⟩ := List.getElem?_eq_some_iff.mp hs
  exact ⟨List.length_set, fun j hj => List.getElem?_set_ne hj.symm, s, t, hs, hst, List.getElem?_set_self hi,
    step_cfg hst⟩

end Sys2Proof.Machine
end

section
/-! PROOFS of the encoding family (30_encoding.md): the decoder against the opcode map, illegal words, and what each
command leaves unchanged. -/

namespace Sys2Proof.Machine

/-! ### The fields of a command word (30_encoding R70) -/

theorem opcodeField_toNat (w : Word) : (opcodeField w).toNat = w.toNat % 256 := by
  simp [opcodeField, BitVec.extractLsb'_toNat]

theorem mbzField_toNat (w : Word) : (mbzField w).toNat = w.toNat / 256 := by
  have hw := w.isLt
  rw [mbzField, BitVec.extractLsb'_toNat, Nat.shiftRight_eq_div_pow]
  omega

theorem mbzField_eq_zero_iff {w : Word} : mbzField w = 0#24 ↔ w.toNat / 256 = 0 := by
  rw [← BitVec.toNat_inj, mbzField_toNat]
  rfl

theorem encode_toNat (i : Instr) : (encode i).toNat = (opcode i).toNat :=
  (BitVec.toNat_append 0#24 (opcode i)).trans (by simp)

/-- A word is a command's word exactly if its MBZ field is 0 and its opcode is the command's. -/
theorem eq_encode_iff {w : Word} {i : Instr} : w = encode i ↔ mbzField w = 0#24 ∧ opcodeField w = opcode i := by
  have hop := (opcode i).isLt
  rw [mbzField_eq_zero_iff, ← BitVec.toNat_inj, ← BitVec.toNat_inj, opcodeField_toNat, encode_toNat]
  omega

/-! ### The opcode map (30_encoding R72, R73) -/

theorem instrOfOpcode_opcode (i : Instr) : instrOfOpcode (opcode i) = some i := by
  cases i <;> rfl

/-- Only the opcodes 0x01 to 0x0B select a command. -/
theorem instrOfOpcode_eq_none_iff {op : Byte} : instrOfOpcode op = none ↔ op.toNat = 0 ∨ 0x0C ≤ op.toNat := by
  unfold instrOfOpcode
  split
  case h_12 => simp only [imp_false, true_iff] at *; omega
  all_goals simp only [reduceCtorEq, false_iff]; omega

/-- An opcode that selects a command is the command's own. -/
theorem opcode_of_instrOfOpcode {op : Byte} {i : Instr} (h : instrOfOpcode op = some i) : opcode i = op := by
  unfold instrOfOpcode at h
  split at h
  case h_12 => cases h
  all_goals
    cases h
    exact BitVec.eq_of_toNat_eq (Eq.symm ‹_›)

theorem instrOfOpcode_eq_some_iff {op : Byte} {i : Instr} : instrOfOpcode op = some i ↔ op = opcode i :=
  ⟨fun h => (opcode_of_instrOfOpcode h).symm, fun h => h ▸ instrOfOpcode_opcode i⟩

/-! ### The decoder (30_encoding R71) -/

theorem decode_of_mbz_zero {w : Word} (h : mbzField w = 0#24) : decode w = instrOfOpcode (opcodeField w) :=
  if_neg (not_not.mpr h)

theorem decode_of_mbz_ne_zero {w : Word} (h : mbzField w ≠ 0#24) : decode w = none := if_pos h

theorem decode_eq_some_iff {w : Word} {i : Instr} : decode w = some i ↔ w = encode i := by
  rw [eq_encode_iff]
  by_cases h : mbzField w = 0#24
  · simp [decode_of_mbz_zero h, h, instrOfOpcode_eq_some_iff]
  · simp [decode_of_mbz_ne_zero h, h]

/-- The three ways of 30_encoding R73 to be illegal. -/
theorem decode_eq_none_iff {w : Word} :
    decode w = none ↔ w.toNat / 256 ≠ 0 ∨ w.toNat % 256 = 0 ∨ 0x0C ≤ w.toNat % 256 := by
  by_cases h : mbzField w = 0#24
  · rw [decode_of_mbz_zero h, instrOfOpcode_eq_none_iff, opcodeField_toNat]
    simp [mbzField_eq_zero_iff.mp h]
  · simp [decode_of_mbz_ne_zero h, mt mbzField_eq_zero_iff.mpr h]

/-- Settles O2: MBZ and opcode of a word determine it, and the opcode map is one to one. -/
theorem decodeInvertsEncode : Obligations.DecodeInvertsEncode :=
  ⟨fun _ _ => decode_eq_some_iff, rfl, rfl, rfl, rfl, rfl, rfl, rfl, rfl, rfl, rfl, rfl⟩

/-- Settles O1: the legal words are those of the encoder, and the others are illegal by R73. -/
theorem commandWordsSelectCommands : Obligations.CommandWordsSelectCommands := by
  refine ⟨decode_encode .frameParse, decode_encode .frameBuild, decode_encode .unpack, decode_encode .pack,
    decode_encode .ckCompute, decode_encode .ckVerify, decode_encode .ckAppend, decode_encode .fieldDecode,
    decode_encode .fieldEncode, decode_encode .decode, decode_encode .encode, ?_, ?_, ?_, ?_, ?_⟩
  all_goals exact decode_eq_none_iff.mpr (by decide)

/-! ### Illegal words (30_encoding R73, 60_exceptions R202) -/

theorem runCommand_of_illegal {w : Word} (h : decode w = none) (s : State) :
    runCommand w s = .next (s.raise (illegalCommand w)) := by
  unfold runCommand
  rw [h]

/-- IllegalCommand in the terms of the claims. -/
theorem State.raise_illegalCommand (s : State) (w : Word) :
    s.raise (illegalCommand w) = s.recorded 7 0 0xFFFF 0 0 0 w.toNat none :=
  State.raise_eq_recorded s (illegalCommand w) (by simp [illegalCommand])

/-- Settles O3: the illegal words are those no command decodes from, and a CMD write of one raises. -/
theorem illegalWordsRaiseIllegalCommand : Obligations.IllegalWordsRaiseIllegalCommand := by
  intro w
  refine ⟨decode_eq_none_iff, fun s rest hc hp hw => ?_⟩
  refine (step_of_pending hc hp).trans ((runCommand_of_illegal (decode_eq_none_iff.mpr hw) _).trans ?_)
  rw [State.raise_illegalCommand]

/-! ### What a command writes (30_encoding R74) -/

/-- What a command may write besides STATUS.DONE, STATUS.ERR and the error record. -/
inductive Output
  | buf (x : BufName)
  | ckValue
  | ckByte
  | verifyOk
  | patch
  deriving DecidableEq

/-- The column "writes on success" of 30_encoding R74, each row in the order of `Updates`. -/
def outputs : Instr → List Output
  | .frameParse => [.buf .pkd, .ckByte]
  | .frameBuild => [.buf .frame]
  | .unpack => [.buf .unp]
  | .pack => [.buf .pkd]
  | .ckCompute => [.ckValue]
  | .ckVerify => [.ckValue, .verifyOk]
  | .ckAppend => [.ckValue, .ckByte]
  | .fieldDecode => [.patch]
  | .fieldEncode => [.buf .unp]
  | .decode => [.buf .pkd, .buf .unp, .ckValue, .ckByte, .verifyOk, .patch]
  | .encode => [.buf .frame, .buf .pkd, .buf .unp, .ckValue, .ckByte]

/-- What the updates list. -/
def Updates.outputs (u : Updates) : List Output :=
  (if u.frame.isSome then [.buf .frame] else []) ++ (if u.pkd.isSome then [.buf .pkd] else []) ++
    (if u.unp.isSome then [.buf .unp] else []) ++ (if u.ckValue.isSome then [.ckValue] else []) ++
    (if u.ckByte.isSome then [.ckByte] else []) ++ (if u.verifyOk.isSome then [.verifyOk] else []) ++
    (if u.patch.isSome then [.patch] else [])

/-- The two states agree on an output. -/
def Output.Kept (s t : State) : Output → Prop
  | .buf x => ∀ a, t.mem.memRead x a = s.mem.memRead x a
  | .ckValue => t.ckValue = s.ckValue
  | .ckByte => t.ckByte = s.ckByte
  | .verifyOk => t.verifyOk = s.verifyOk
  | .patch => t.patch = s.patch

/-- What ENCODE lists when it completes, of any configuration (44_composite R192). -/
theorem encodePatch_ok {c : Config} {m : Patch} {u : Updates} (h : encodePatch c m = .ok u) :
    ∃ U D v F, u = { unp := some U, pkd := some D, ckValue := some v, ckByte := some v, frame := some F } := by
  unfold encodePatch at h
  split at h
  · cases h
  split at h
  · cases h
  split at h
  · cases h
  split at h
  · cases h
  cases h
  exact ⟨_, _, _, _, rfl⟩

/-- A command that completes lists exactly its row of 30_encoding R74. -/
theorem bodyOf_outputs {i : Instr} {s : State} {u : Updates} (h : bodyOf i s = .ok u) : u.outputs = outputs i := by
  cases i with
  | frameParse => obtain ⟨_, -, rfl⟩ := Result.map_ok_iff.mp h; rfl
  | frameBuild => obtain ⟨_, -, rfl⟩ := Result.map_ok_iff.mp h; rfl
  | unpack => obtain ⟨_, -, rfl⟩ := Result.map_ok_iff.mp h; rfl
  | pack => obtain ⟨_, -, rfl⟩ := Result.map_ok_iff.mp h; rfl
  | ckCompute => obtain ⟨_, -, rfl⟩ := Result.map_ok_iff.mp h; rfl
  | ckVerify => obtain ⟨_, -, rfl⟩ := Result.map_ok_iff.mp h; rfl
  | ckAppend => obtain ⟨_, -, rfl⟩ := Result.map_ok_iff.mp h; rfl
  | fieldDecode => obtain ⟨_, -, rfl⟩ := Result.map_ok_iff.mp h; rfl
  | fieldEncode => obtain ⟨_, -, rfl⟩ := Result.map_ok_iff.mp h; rfl
  | decode => obtain ⟨_, _, _, _, -, -, -, -, rfl⟩ := decodeFrame_ok_iff.mp h; rfl
  | encode => obtain ⟨_, _, _, _, rfl⟩ := encodePatch_ok h; rfl

/-- Recording an error writes no output (60_exceptions R204). -/
theorem State.raise_kept (s : State) (e : ErrorRecord) (x : Output) : x.Kept s (s.raise e) := by
  cases x with
  | buf x => exact fun a => rfl
  | ckValue => rfl
  | ckByte => rfl
  | verifyOk => exact State.raise_verifyOk s e
  | patch => rfl

/-- Completing a command leaves a buffer that the updates do not list. -/
theorem State.complete_buf (s : State) {u : Updates} {x : BufName} (hx : .buf x ∉ u.outputs) :
    (s.complete u).mem.buf x = s.mem.buf x := by
  cases x with
  | frame =>
    have hnone : u.frame = none := by simpa [Updates.outputs] using hx
    simp [Memory.buf, hnone]
  | pkd =>
    have hnone : u.pkd = none := by simpa [Updates.outputs] using hx
    simp [Memory.buf, hnone]
  | unp =>
    have hnone : u.unp = none := by simpa [Updates.outputs] using hx
    simp [Memory.buf, hnone]

/-- Completing a command writes no output that the updates do not list (60_exceptions R205). -/
theorem State.complete_kept (s : State) {u : Updates} {x : Output} (hx : x ∉ u.outputs) : x.Kept s (s.complete u) := by
  cases x with
  | buf x => exact fun a => congrArg (·[a]?) (State.complete_buf s hx)
  | ckValue =>
    have hnone : u.ckValue = none := by simpa [Updates.outputs] using hx
    simp [Output.Kept, hnone]
  | ckByte =>
    have hnone : u.ckByte = none := by simpa [Updates.outputs] using hx
    simp [Output.Kept, hnone]
  | verifyOk =>
    have hnone : u.verifyOk = none := by simpa [Updates.outputs] using hx
    simp [Output.Kept, hnone]
  | patch =>
    have hnone : u.patch = none := by simpa [Updates.outputs] using hx
    simp [Output.Kept, hnone]

/-- The frame of every command: what its row of 30_encoding R74 does not list, it leaves. -/
theorem exec_kept {i : Instr} {s t : State} {x : Output} (hx : x ∉ outputs i) (h : exec i s = .next t) :
    x.Kept s t := by
  obtain ⟨e, -, rfl⟩ | ⟨u, hu, rfl⟩ := exec_cases h
  · exact State.raise_kept s e x
  · exact State.complete_kept s (bodyOf_outputs hu ▸ hx)

/-- No command writes the configuration (70_reset R232) or the host's side (logs 2 and 4). -/
theorem exec_host_side {i : Instr} {s t : State} (h : exec i s = .next t) :
    t.cfg = s.cfg ∧ t.pending = s.pending ∧ t.answer = s.answer := by
  obtain ⟨e, -, rfl⟩ | ⟨u, -, rfl⟩ := exec_cases h
  · exact ⟨rfl, rfl, rfl⟩
  · exact ⟨rfl, rfl, rfl⟩

/-! ### The frames of the units -/

/-- Settles O28: the rows of the four commands in 30_encoding R74. -/
theorem framerAndPackerFrame : Obligations.FramerAndPackerFrame := by
  intro i s t hi h
  have rows : .patch ∉ outputs i ∧ .ckValue ∉ outputs i ∧ .verifyOk ∉ outputs i ∧
      (i ≠ .frameParse → .ckByte ∉ outputs i) ∧ (i ≠ .frameBuild → .buf .frame ∉ outputs i) ∧
      (i ≠ .frameParse → i ≠ .pack → .buf .pkd ∉ outputs i) ∧ (i ≠ .unpack → .buf .unp ∉ outputs i) := by
    obtain rfl | rfl | rfl | rfl := hi <;> decide
  obtain ⟨hpatch, hckValue, hverify, hckByte, hframe, hpkd, hunp⟩ := rows
  obtain ⟨hcfg, hpending, hanswer⟩ := exec_host_side h
  exact ⟨hcfg, hpending, hanswer, exec_kept hpatch h, exec_kept hckValue h, exec_kept hverify h,
    fun hne => exec_kept (hckByte hne) h, fun hne => exec_kept (hframe hne) h,
    fun hne hne' => exec_kept (hpkd hne hne') h, fun hne => exec_kept (hunp hne) h⟩

/-- Settles O29: the rows of the three commands in 30_encoding R74 list no buffer. -/
theorem checksumFrame : Obligations.ChecksumFrame := by
  intro i s t hi h
  have rows : .patch ∉ outputs i ∧ (∀ x, .buf x ∉ outputs i) ∧ (i ≠ .ckAppend → .ckByte ∉ outputs i) ∧
      (i ≠ .ckVerify → .verifyOk ∉ outputs i) := by
    obtain rfl | rfl | rfl := hi <;> simp [outputs]
  obtain ⟨hpatch, hbuf, hckByte, hverify⟩ := rows
  obtain ⟨hcfg, hpending, hanswer⟩ := exec_host_side h
  exact ⟨hcfg, hpending, hanswer, exec_kept hpatch h, fun x => exec_kept (hbuf x) h,
    fun hne => exec_kept (hckByte hne) h, fun hne => exec_kept (hverify hne) h⟩

/-- Settles O30: the rows of the two commands in 30_encoding R74. -/
theorem mapperFrame : Obligations.MapperFrame := by
  intro i s t hi h
  have rows : .ckValue ∉ outputs i ∧ .ckByte ∉ outputs i ∧ .verifyOk ∉ outputs i ∧ .buf .frame ∉ outputs i ∧
      .buf .pkd ∉ outputs i ∧ (i = .fieldDecode → .buf .unp ∉ outputs i) ∧
      (i = .fieldEncode → .patch ∉ outputs i) := by
    obtain rfl | rfl := hi <;> decide
  obtain ⟨hckValue, hckByte, hverify, hframe, hpkd, hunp, hpatch⟩ := rows
  obtain ⟨hcfg, hpending, hanswer⟩ := exec_host_side h
  exact ⟨hcfg, hpending, hanswer, exec_kept hckValue h, exec_kept hckByte h, exec_kept hverify h, exec_kept hframe h,
    exec_kept hpkd h, fun heq => exec_kept (hunp heq) h, fun heq => exec_kept (hpatch heq) h⟩

/-- Settles O31: DECODE's row of 30_encoding R74 lacks FRAME, ENCODE's the patch and VERIFY_OK. -/
theorem wholePipelineFrame : Obligations.WholePipelineFrame := by
  intro i s t _ h
  obtain ⟨hcfg, hpending, hanswer⟩ := exec_host_side h
  refine ⟨hcfg, hpending, hanswer, ?_, ?_⟩
  · rintro rfl
    exact exec_kept (x := .buf .frame) (by decide) h
  · rintro rfl
    exact ⟨exec_kept (x := .patch) (by decide) h, exec_kept (x := .verifyOk) (by decide) h⟩

end Sys2Proof.Machine
end

section
/-! PROOFS of the framer family (40_framer.md): what FRAME_PARSE and FRAME_BUILD give on every operand. -/

namespace Sys2Proof.Machine

/-! ### A command's end in the terms of the claims -/

/-- A body that gives an error ends in the record of 60_exceptions R204. -/
theorem exec_of_error {i : Instr} {s : State} {e : ErrorRecord} (h : bodyOf i s = .error e) (hi : e.index < 65536) :
    exec i s =
      .next (s.recorded e.kind.code e.kind.sub e.index e.elem e.offset e.expected e.actual e.name) := by
  rw [exec_eq_finish, h, State.finish_error, State.raise_eq_recorded s e hi]

theorem exec_of_formatError {i : Instr} {s : State} (cause : FormatCause) {offset expected actual : Nat}
    (h : bodyOf i s = .error (formatError cause offset expected actual)) :
    exec i s = .next (s.formatRecorded cause.sub offset expected actual) := by
  rw [exec_of_error h (by simp [formatError])]
  rfl

theorem State.raise_sub (s : State) (e : ErrorRecord) : (s.raise e).sub = e.kind.sub := by
  have hcode := e.kind.code_bounds
  have hsub := e.kind.sub_le
  unfold State.sub
  rw [State.raise_errCode, errCodeWord_toNat]
  omega

theorem bodyOf_frameParse_error {s : State} {e : ErrorRecord} (h : frameParse s.cfg s.mem.frame = .error e) :
    bodyOf .frameParse s = .error e := Result.map_error_iff.mpr h

/-! ### Markers and interior of a frame (40_framer R100) -/

/-- What FRAME_PARSE's first three checks establish: the least length and the two markers. -/
structure Framed (c : Config) (F : List Byte) : Prop where
  length : c.minFrameLen ≤ F.length
  startByte : F[0]? = some c.startByte
  endByte : F[F.length - 1]? = some c.endByte

/-- The bytes between the markers. -/
def interior (F : List Byte) : List Byte := slice F 1 (F.length - 1)

theorem interior_getElem? {F : List Byte} {k : Nat} (h : 1 + k ≤ F.length - 2) (hF : 2 ≤ F.length) :
    (interior F)[k]? = F[1 + k]? := slice_getElem? _ _ _ _ (by omega)

/-- The bytes between the markers are 7-bit exactly if those at offsets 1 to n - 2 are. -/
theorem interior_sevenBit {F : List Byte}
    (h : ∀ j b, 1 ≤ j → j ≤ F.length - 2 → F[j]? = some b → b.toNat ≤ 0x7F) :
    ∀ b ∈ interior F, isHigh b = false := by
  intro b hb
  obtain ⟨k, hk, rfl⟩ := List.mem_iff_getElem.mp hb
  have hlen : (interior F).length = F.length - 1 - 1 := slice_length _ _ _ (by omega)
  exact isHigh_false.mpr (h (1 + k) _ (by omega) (by omega)
    (by rw [← interior_getElem? (by omega) (by omega), List.getElem?_eq_getElem hk]))

theorem interior_frameOf (c : Config) (D : List Byte) (C : Byte) :
    interior (frameOf c D C) = c.ident ++ D ++ [C] := by
  have hF : frameOf c D C = c.startByte :: ((c.ident ++ D ++ [C]) ++ [c.endByte]) := by simp [frameOf]
  rw [interior, slice_eq_drop_take, hF, List.drop_succ_cons, List.drop_zero]
  exact List.take_left' (by simp)

theorem framed_frameOf (c : Config) (D : List Byte) (C : Byte) : Framed c (frameOf c D C) where
  length := by rw [frameOf_length, Config.minFrameLen]; omega
  startByte := by simp [frameOf]
  endByte := by rw [← List.getLast?_eq_getElem?, frameOf, List.getLast?_concat]

/-! ### FRAME_PARSE: one equation per outcome, in the order of 40_framer R101 -/

theorem frameParse_shortFrame {c : Config} {F : List Byte} (h : F.length < c.minFrameLen) :
    frameParse c F = .error (formatError .shortFrame F.length c.minFrameLen F.length) := if_pos h

theorem frameParse_badStart {c : Config} {F : List Byte} {b : Byte} (hmin : c.minFrameLen ≤ F.length)
    (hb : F[0]? = some b) (hne : b ≠ c.startByte) :
    frameParse c F = .error (formatError .badStart 0 c.startByte.toNat b.toNat) := by
  simp [frameParse, hmin.not_gt, List.getD_eq_getElem?_getD, hb, hne]

theorem frameParse_badEnd {c : Config} {F : List Byte} {b : Byte} (hmin : c.minFrameLen ≤ F.length)
    (hstart : F[0]? = some c.startByte) (hb : F[F.length - 1]? = some b) (hne : b ≠ c.endByte) :
    frameParse c F = .error (formatError .badEnd (F.length - 1) c.endByte.toNat b.toNat) := by
  simp [frameParse, hmin.not_gt, List.getD_eq_getElem?_getD, hstart, hb, hne]

theorem frameParse_highBit {c : Config} {F : List Byte} {i : Nat} {b : Byte} (hF : Framed c F)
    (hhigh : firstWhere isHigh 1 (interior F) = some (i, b)) :
    frameParse c F = .error (formatError .highBit i 0x7F b.toNat) := by
  unfold interior at hhigh
  simp [frameParse, hF.length.not_gt, List.getD_eq_getElem?_getD, hF.startByte, hF.endByte, hhigh]

theorem frameParse_deviceMismatch {c : Config} {F : List Byte} {i : Nat} {w b : Byte} (hF : Framed c F)
    (hlow : ∀ x ∈ interior F, isHigh x = false)
    (hid : firstMismatch 1 c.ident (interior F) = some (i, w, b)) :
    frameParse c F =
      .error { kind := .deviceMismatch, offset := i, expected := w.toNat, actual := b.toNat } := by
  have hhigh : firstWhere isHigh 1 (interior F) = none := firstWhere_none.mpr hlow
  unfold interior at hhigh hid
  simp [frameParse, hF.length.not_gt, List.getD_eq_getElem?_getD, hF.startByte, hF.endByte, hhigh, hid]

/-- The lowest high byte at an offset of the frame is the first in its interior. -/
theorem firstHigh_of_offset {F : List Byte} {i : Nat} {b : Byte} (hi : 1 ≤ i) (hin : i ≤ F.length - 2)
    (hb : F[i]? = some b) (hhigh : 0x80 ≤ b.toNat)
    (hleast : ∀ j b', 1 ≤ j → j < i → F[j]? = some b' → b'.toNat ≤ 0x7F) :
    firstWhere isHigh 1 (interior F) = some (i, b) := by
  refine firstWhere_some.mpr ⟨hi, ?_, isHigh_true.mpr hhigh, fun k b' hk hb' => ?_⟩
  · rw [interior_getElem? (by omega) (by omega), Nat.add_sub_cancel' hi, hb]
  · rw [interior_getElem? (by omega) (by omega)] at hb'
    exact isHigh_false.mpr (hleast (1 + k) b' (by omega) (by omega) hb')

/-- The first identifier byte that differs at its offset of the frame is the first mismatch with the interior. -/
theorem firstMismatch_of_offset {c : Config} {F : List Byte} {i : Nat} {w b : Byte} (hmin : c.minFrameLen ≤ F.length)
    (hw : c.ident[i]? = some w) (hb : F[1 + i]? = some b) (hne : b ≠ w)
    (hleast : ∀ j, j < i → F[1 + j]? = c.ident[j]?) :
    firstMismatch 1 c.ident (interior F) = some (1 + i, w, b) := by
  obtain ⟨hi, -⟩ := List.getElem?_eq_some_iff.mp hw
  unfold Config.minFrameLen Config.idLen at hmin
  refine firstMismatch_some.mpr ⟨by omega, ?_, ?_, hne, fun k hk => ?_⟩
  · rw [Nat.add_sub_cancel_left, hw]
  · rw [Nat.add_sub_cancel_left, interior_getElem? (by omega) (by omega), hb]
  · rw [interior_getElem? (by omega) (by omega), hleast k (by omega)]

/-- A 7-bit byte is unchanged on its way through CK_BYTE[6:0] into the register. -/
theorem setWidth_ckByte {C : Byte} (h : C.toNat ≤ 0x7F) : (C.setWidth 7).setWidth 32 = BitVec.ofNat 32 C.toNat := by
  rw [setWidth_ck, BitVec.toNat_setWidth, Nat.mod_eq_of_lt (by omega)]

/-- Settles O32: FRAME_PARSE has one outcome per clause, and the command's end records it. -/
theorem frameParseFollowsItsRule : Obligations.FrameParseFollowsItsRule := by
  intro s hc
  refine ⟨fun h => ?_, fun b hmin hb hne => ?_, fun b hmin hstart hb hne => ?_,
    fun i b hmin hstart hend hi hin hb hhigh hleast => ?_,
    fun i b w hmin hstart hend hlow hw hb hne hleast => ?_, fun D C hF hD hC => ?_⟩
  · exact exec_of_formatError .shortFrame (bodyOf_frameParse_error (frameParse_shortFrame h))
  · exact exec_of_formatError .badStart (bodyOf_frameParse_error (frameParse_badStart hmin hb hne))
  · exact exec_of_formatError .badEnd (bodyOf_frameParse_error (frameParse_badEnd hmin hstart hb hne))
  · exact exec_of_formatError .highBit (bodyOf_frameParse_error
      (frameParse_highBit ⟨hmin, hstart, hend⟩ (firstHigh_of_offset hi hin hb hhigh hleast)))
  · rw [exec_of_error (bodyOf_frameParse_error (frameParse_deviceMismatch ⟨hmin, hstart, hend⟩
      (interior_sevenBit hlow) (firstMismatch_of_offset hmin hw hb hne hleast))) (by simp)]
    rfl
  · have hall : ∀ x ∈ s.cfg.ident ++ D, x.toNat ≤ 0x7F := fun x hx =>
      (List.mem_append.mp hx).elim (Config.WF.ident hc x) (hD x)
    have hparse : frameParse s.cfg s.mem.frame = .ok (D, C.setWidth 7) :=
      frameParse_ok_iff.mpr ⟨C, hF, rfl, hC, hall⟩
    have hbody : bodyOf .frameParse s = .ok { pkd := some D, ckByte := some (C.setWidth 7) } :=
      Result.map_ok_iff.mpr ⟨_, hparse, rfl⟩
    rw [exec_eq_finish, hbody, State.finish_ok, State.complete_eq_succeeded, ← setWidth_ckByte hC]
    rfl

/-- Settles O33: a completed FRAME_PARSE wrote the data part and the checksum byte of the frame it accepted. -/
theorem acceptedFramesHaveTheLayout : Obligations.AcceptedFramesHaveTheLayout := by
  intro s t h hdone
  obtain ⟨e, -, rfl⟩ | ⟨u, hu, rfl⟩ := exec_cases h
  · simp at hdone
  · obtain ⟨⟨D, ck⟩, hparse, rfl⟩ := Result.map_ok_iff.mp hu
    obtain ⟨C, hF, rfl, hC, hall⟩ := frameParse_ok_iff.mp hparse
    have hreg : ((C.setWidth 7).setWidth 32).toNat = C.toNat := by
      rw [setWidth_ckByte hC, BitVec.toNat_ofNat, Nat.mod_eq_of_lt (by omega)]
    exact ⟨C, hF, hreg, hC, hall⟩

/-! ### FRAME_BUILD (40_framer R105, R106) -/

theorem frameBuild_payloadLength {c : Config} {D : List Byte} (C : Ck) (h : D.length ≠ c.pkdLen) :
    frameBuild c D C = .error (formatError .payloadLength D.length c.pkdLen D.length) := if_pos h

/-- The checksum byte of a built frame is CK_BYTE[6:0]. -/
theorem State.ckByteField_setWidth (s : State) : s.ckByteField.setWidth 8 = BitVec.ofNat 8 (s.ckByte.toNat % 128) := by
  apply BitVec.eq_of_toNat_eq
  rw [BitVec.toNat_setWidth, State.ckByteField, BitVec.toNat_setWidth, BitVec.toNat_ofNat]

theorem bodyOf_frameBuild_ok {s : State} (h : s.mem.pkd.length = s.cfg.pkdLen) :
    bodyOf .frameBuild s =
      .ok { frame := some (frameOf s.cfg s.mem.pkd (BitVec.ofNat 8 (s.ckByte.toNat % 128))) } := by
  rw [← State.ckByteField_setWidth]
  exact Result.map_ok_iff.mpr ⟨_, frameBuild_ok_iff.mpr ⟨h, rfl⟩, rfl⟩

/-- Settles O34: the length of PKD alone decides between the error and the frame. -/
theorem frameBuildFollowsItsRule : Obligations.FrameBuildFollowsItsRule := by
  intro s
  refine ⟨fun h => ?_, fun h => ⟨?_, ?_, Config.WF.bufMax⟩⟩
  · exact exec_of_formatError .payloadLength (Result.map_error_iff.mpr (frameBuild_payloadLength s.ckByteField h))
  · rw [exec_eq_finish, bodyOf_frameBuild_ok h, State.finish_ok, State.complete_eq_succeeded]
    rfl
  · rw [frameOf_length, h, Config.frameLenFixed]

/-- FRAME_PARSE of a frame with a data byte of 0x80 or more finds a high byte (40_framer R102). -/
theorem frameParse_frameOf_highBit {c : Config} {D : List Byte} {C b : Byte} (hb : b ∈ D) (hhigh : 0x80 ≤ b.toNat) :
    ∃ i x, frameParse c (frameOf c D C) = .error (formatError .highBit i 0x7F x) := by
  have hmem : b ∈ interior (frameOf c D C) := by
    rw [interior_frameOf]
    exact List.mem_append_left _ (List.mem_append_right _ hb)
  cases hfind : firstWhere isHigh 1 (interior (frameOf c D C)) with
  | none =>
    have hlow : isHigh b = false := firstWhere_none.mp hfind b hmem
    rw [isHigh_true.mpr hhigh] at hlow
    cases hlow
  | some p => exact ⟨p.1, p.2.toNat, frameParse_highBit (framed_frameOf c D C) hfind⟩

/-- Settles O35: FRAME_BUILD does not look at the data bytes, and FRAME_PARSE meets the high one after both markers
passed. -/
theorem builtHighBytesFailParse : Obligations.BuiltHighBytesFailParse := by
  rintro s - hlen ⟨b, hb, hhigh⟩
  have hbuild := bodyOf_frameBuild_ok hlen
  generalize hC : BitVec.ofNat 8 (s.ckByte.toNat % 128) = C at hbuild
  obtain ⟨i, x, hparse⟩ := frameParse_frameOf_highBit (c := s.cfg) (C := C) hb hhigh
  let t := s.complete { frame := some (frameOf s.cfg s.mem.pkd C) }
  have hbody : bodyOf .frameParse t = .error (formatError .highBit i 0x7F x) := bodyOf_frameParse_error hparse
  refine ⟨t, t.raise (formatError .highBit i 0x7F x), ?_, State.complete_done _ _, ?_, State.raise_err _ _,
    State.raise_code _ _, State.raise_sub _ _⟩
  · rw [exec_eq_finish, hbuild, State.finish_ok]
  · rw [exec_eq_finish, hbody, State.finish_error]

end Sys2Proof.Machine
end

section
/-! PROOFS of the packer family (41_packer.md): what UNPACK and PACK give on every operand, and that each undoes the
other. -/

namespace Sys2Proof.Machine

/-! ### The two schemes (00_scope R6, 41_packer R123, R124) -/

section Schemes
variable {c : Config}

theorem Config.gp_flag7 (hs : c.packScheme = .flag7) : c.gp = 8 := congrArg PackScheme.gp hs

theorem Config.gp_nibble (hs : c.packScheme = .nibble) : c.gp = 2 := congrArg PackScheme.gp hs

theorem Config.gl_flag7 (hs : c.packScheme = .flag7) : c.gl = 7 := congrArg PackScheme.gl hs

theorem Config.gl_nibble (hs : c.packScheme = .nibble) : c.gl = 1 := congrArg PackScheme.gl hs

theorem isBadPacked_flag7 (hs : c.packScheme = .flag7) (b : Byte) : isBadPacked c b = isHigh b := by
  simp only [isBadPacked, hs]

theorem isBadPacked_nibble (hs : c.packScheme = .nibble) (b : Byte) : isBadPacked c b = decide (0x0F < b.toNat) := by
  simp only [isBadPacked, hs]

theorem badPackedError_flag7 (hs : c.packScheme = .flag7) (i : Nat) (b : Byte) :
    badPackedError c i b = formatError .highBit i 0x7F b.toNat := by
  simp only [badPackedError, hs]

theorem badPackedError_nibble (hs : c.packScheme = .nibble) (i : Nat) (b : Byte) :
    badPackedError c i b = formatError .nibbleRange i 0x0F b.toNat := by
  simp only [badPackedError, hs]

theorem PackedOk.flag7 {D : List Byte} (h : PackedOk c D) (hs : c.packScheme = .flag7) :
    ∀ b ∈ D, b.toNat ≤ 0x7F := by
  simpa only [hs] using h.2

theorem PackedOk.nibble {D : List Byte} (h : PackedOk c D) (hs : c.packScheme = .nibble) :
    ∀ b ∈ D, b.toNat ≤ 0x0F := by
  simpa only [hs] using h.2

theorem flagPos_eq_bitPos (c : Config) (k : Nat) : flagPos c.flagBitOrder k = bitPos c k := by
  unfold flagPos bitPos
  cases c.flagBitOrder <;> rfl

end Schemes

/-! ### One equation per outcome, in the order of 41_packer R124 and R125 -/

theorem unpack_groupLength {c : Config} {D : List Byte} (h : D.length % c.gp ≠ 0) :
    unpack c D = .error (formatError .groupLength D.length c.gp D.length) := if_pos h

/-- The lowest byte of whole groups that the scheme does not allow is the one reported. -/
theorem unpack_badPacked {c : Config} {D : List Byte} {i : Nat} {b : Byte} (hmod : D.length % c.gp = 0)
    (hb : D[i]? = some b) (hbad : isBadPacked c b = true)
    (hleast : ∀ j b', j < i → D[j]? = some b' → isBadPacked c b' = false) :
    unpack c D = .error (badPackedError c i b) := by
  have hfirst : firstWhere (isBadPacked c) 0 D = some (i, b) :=
    firstWhere_some.mpr ⟨Nat.zero_le i, hb, hbad, hleast⟩
  simp [unpack, hmod, hfirst]

theorem pack_streamLength {c : Config} {U : List Byte} (h : U.length % c.gl ≠ 0) :
    pack c U = .error (formatError .streamLength U.length c.gl U.length) := if_pos h

theorem pack_bufOverflow {c : Config} {U : List Byte} (hmod : U.length % c.gl = 0)
    (hmax : c.bufMax < U.length / c.gl * c.gp) :
    pack c U = .error (formatError .bufOverflow U.length c.bufMax (U.length / c.gl * c.gp)) := by
  simp [pack, hmod, hmax]

theorem exec_unpack_error {s : State} (cause : FormatCause) {offset expected actual : Nat}
    (h : unpack s.cfg s.mem.pkd = .error (formatError cause offset expected actual)) :
    exec .unpack s = .next (s.formatRecorded cause.sub offset expected actual) :=
  exec_of_formatError cause (Result.map_error_iff.mpr h)

theorem exec_pack_error {s : State} (cause : FormatCause) {offset expected actual : Nat}
    (h : pack s.cfg s.mem.unp = .error (formatError cause offset expected actual)) :
    exec .pack s = .next (s.formatRecorded cause.sub offset expected actual) :=
  exec_of_formatError cause (Result.map_error_iff.mpr h)

theorem exec_unpack_ok {s : State} (h : PackedOk s.cfg s.mem.pkd) :
    exec .unpack s = .next (s.complete { unp := some (unpackStream s.cfg s.mem.pkd) }) := by
  have hbody : bodyOf .unpack s = .ok { unp := some (unpackStream s.cfg s.mem.pkd) } :=
    Result.map_ok_iff.mpr ⟨_, unpack_ok_iff.mpr ⟨h, rfl⟩, rfl⟩
  rw [exec_eq_finish, hbody, State.finish_ok]

theorem exec_pack_ok {s : State} (hmod : s.mem.unp.length % s.cfg.gl = 0)
    (hmax : s.mem.unp.length / s.cfg.gl * s.cfg.gp ≤ s.cfg.bufMax) :
    exec .pack s = .next (s.complete { pkd := some (packStream s.cfg s.mem.unp) }) := by
  have hbody : bodyOf .pack s = .ok { pkd := some (packStream s.cfg s.mem.unp) } :=
    Result.map_ok_iff.mpr ⟨_, pack_ok_iff.mpr ⟨hmod, hmax, rfl⟩, rfl⟩
  rw [exec_eq_finish, hbody, State.finish_ok]

/-! ### Single groups (41_packer R120 to R122) -/

/-- Group g of a list of groups of `size` bytes. -/
def groupAt (size g : Nat) (l : List Byte) : List Byte := (l.drop (g * size)).take size

theorem groupAt_length {size g : Nat} {l : List Byte} (hg : g < l.length / size) :
    (groupAt size g l).length = size := by
  have hle : (g + 1) * size ≤ l.length := (Nat.mul_le_mul_right size hg).trans (Nat.div_mul_le_self _ _)
  rw [Nat.succ_mul] at hle
  rw [groupAt, List.length_take, List.length_drop]
  omega

theorem groupAt_getElem? {size g k : Nat} (l : List Byte) (hk : k < size) :
    (groupAt size g l)[k]? = l[size * g + k]? := by
  rw [groupAt, List.getElem?_take_of_lt hk, List.getElem?_drop, Nat.mul_comm]

theorem groupAt_getD {size g k : Nat} (l : List Byte) (hk : k < size) :
    (groupAt size g l).getD k 0#8 = l.getD (size * g + k) 0#8 := by
  rw [List.getD_eq_getElem?_getD, groupAt_getElem? l hk, List.getD_eq_getElem?_getD]

theorem eq_singleton_getD {l : List Byte} (h : l.length = 1) : l = [l.getD 0 0#8] := by
  obtain ⟨a, rfl⟩ := List.length_eq_one_iff.mp h
  rfl

theorem eq_pair_getD {l : List Byte} (h : l.length = 2) : l = [l.getD 0 0#8, l.getD 1 0#8] := by
  obtain ⟨a, b, rfl⟩ := List.length_eq_two.mp h
  rfl

/-- The logical byte of the NIBBLE group `[a, b]` (41_packer R122). -/
def joinNibbles (o : NibbleOrder) (a b : Byte) : Byte :=
  match o with
  | .highFirst => (a <<< 4) ||| b
  | .lowFirst => (b <<< 4) ||| a

/-- The bytes a and b of the NIBBLE group of the logical byte u (41_packer R122). -/
def splitNibbles (o : NibbleOrder) (u : Byte) : Byte × Byte :=
  match o with
  | .highFirst => (u >>> 4, u &&& 0x0F#8)
  | .lowFirst => (u &&& 0x0F#8, u >>> 4)

theorem unpackGroup_nibble {c : Config} (hs : c.packScheme = .nibble) (a b : Byte) :
    unpackGroup c [a, b] = [joinNibbles c.nibbleOrder a b] := by
  simp only [unpackGroup, hs, joinNibbles]
  cases c.nibbleOrder <;> rfl

theorem packGroup_nibble {c : Config} (hs : c.packScheme = .nibble) (u : Byte) :
    packGroup c [u] = [(splitNibbles c.nibbleOrder u).1, (splitNibbles c.nibbleOrder u).2] := by
  simp only [packGroup, hs, splitNibbles]
  cases c.nibbleOrder <;> rfl

theorem packGroup_flag7 {c : Config} (hs : c.packScheme = .flag7) (us : List Byte) :
    packGroup c us = flagByte c.flagBitOrder 0 us :: us.map (fun u => u &&& 0x7F#8) := by
  simp only [packGroup, hs]

/-- Logical byte k of a FLAG7 group: data byte k with its bit of the flag byte as bit 7 (41_packer R121). -/
theorem unpackGroup_flag7 {c : Config} (hs : c.packScheme = .flag7) {g : List Byte} {k : Nat} (hg : g.length = 8)
    (hk : k < 7) :
    (unpackGroup c g)[k]? =
      some (g.getD (1 + k) 0#8 ||| (((g.getD 0 0#8 >>> bitPos c k) &&& 1#8) <<< 7)) := by
  match g, hg with
  | f :: bs, hg =>
    have hbs : k < bs.length := by simp only [List.length_cons] at hg; omega
    have hbyte : bs.getD k 0#8 = bs[k] := by
      rw [List.getD_eq_getElem?_getD, List.getElem?_eq_getElem hbs, Option.getD_some]
    simp only [unpackGroup, hs, unflag_getElem?, List.getElem?_eq_getElem hbs, Option.map_some, Nat.zero_add,
      flagPos_eq_bitPos, Nat.add_comm 1 k, List.getD_cons_succ, List.getD_cons_zero, hbyte]

/-! ### The bytes of UNPACK's result (41_packer R124) -/

/-- Byte k of the logical group g depends on the packed group g alone (41_packer R120). -/
theorem unpackStream_getElem? {c : Config} {D : List Byte} {g k : Nat} (hmod : D.length % c.gp = 0)
    (hg : g < D.length / c.gp) (hk : k < c.gl) :
    (unpackStream c D)[c.gl * g + k]? = (unpackGroup c (groupAt c.gp g D))[k]? :=
  flatMap_groupsOf_getElem? _ (fun _ hh => unpackGroup_length (groupsOf_facts (div_mul_of_mod hmod).symm hh).1) hg hk

theorem unpackStream_flag7 {c : Config} {D : List Byte} {g k : Nat} (hs : c.packScheme = .flag7)
    (hmod : D.length % c.gp = 0) (hg : g < D.length / 8) (hk : k < 7) :
    (unpackStream c D)[7 * g + k]? =
      some (D.getD (8 * g + 1 + k) 0#8 ||| (((D.getD (8 * g) 0#8 >>> bitPos c k) &&& 1#8) <<< 7)) := by
  have hgp := Config.gp_flag7 hs
  have hgl := Config.gl_flag7 hs
  have hbyte := unpackStream_getElem? (k := k) hmod (hgp ▸ hg) (hgl ▸ hk)
  rw [hgl, hgp, unpackGroup_flag7 hs (groupAt_length hg) hk, groupAt_getD D (by omega), groupAt_getD D (by omega),
    ← Nat.add_assoc] at hbyte
  exact hbyte

theorem unpackStream_nibble {c : Config} {o : NibbleOrder} {D : List Byte} {g : Nat} (hs : c.packScheme = .nibble)
    (ho : c.nibbleOrder = o) (hmod : D.length % c.gp = 0) (hg : g < D.length / 2) :
    (unpackStream c D)[g]? = some (joinNibbles o (D.getD (2 * g) 0#8) (D.getD (2 * g + 1) 0#8)) := by
  subst ho
  have hgp := Config.gp_nibble hs
  have hgl := Config.gl_nibble hs
  have hbyte := unpackStream_getElem? (k := 0) hmod (hgp ▸ hg) (gl_pos c)
  rw [hgl, hgp, Nat.one_mul, eq_pair_getD (groupAt_length hg), unpackGroup_nibble hs, groupAt_getD D (by omega),
    groupAt_getD D (by omega)] at hbyte
  exact hbyte

/-! ### The bytes of PACK's result (41_packer R125) -/

/-- Byte k of the packed group g depends on the logical group g alone (41_packer R120). -/
theorem packStream_getElem? {c : Config} {U : List Byte} {g k : Nat} (hmod : U.length % c.gl = 0)
    (hg : g < U.length / c.gl) (hk : k < c.gp) :
    (packStream c U)[c.gp * g + k]? = (packGroup c (groupAt c.gl g U))[k]? :=
  flatMap_groupsOf_getElem? _ (fun _ hh => packGroup_length (groupsOf_facts (div_mul_of_mod hmod).symm hh).1) hg hk

/-- The FLAG7 group g: its flag byte, then the low seven bits of its logical bytes. -/
theorem packStream_flag7 {c : Config} {U : List Byte} {g k : Nat} (hs : c.packScheme = .flag7)
    (hmod : U.length % c.gl = 0) (hg : g < U.length / 7) (hk : k < 8) :
    (packStream c U)[8 * g + k]? =
      (flagByte c.flagBitOrder 0 (groupAt 7 g U) :: (groupAt 7 g U).map (fun u => u &&& 0x7F#8))[k]? := by
  have hgp := Config.gp_flag7 hs
  have hgl := Config.gl_flag7 hs
  have hbyte := packStream_getElem? (k := k) hmod (hgl ▸ hg) (hgp ▸ hk)
  rwa [hgl, hgp, packGroup_flag7 hs] at hbyte

theorem packStream_flagByte {c : Config} {U : List Byte} {g : Nat} (hs : c.packScheme = .flag7)
    (hmod : U.length % c.gl = 0) (hg : g < U.length / 7) :
    (packStream c U).getD (8 * g) 0#8 = flagByte c.flagBitOrder 0 (groupAt 7 g U) := by
  have hbyte := packStream_flag7 (k := 0) hs hmod hg (by omega)
  rw [List.getElem?_cons_zero, Nat.add_zero] at hbyte
  rw [List.getD_eq_getElem?_getD, hbyte, Option.getD_some]

theorem packStream_dataByte {c : Config} {U : List Byte} {g k : Nat} (hs : c.packScheme = .flag7)
    (hmod : U.length % c.gl = 0) (hg : g < U.length / 7) (hk : k < 7) :
    (packStream c U)[8 * g + 1 + k]? = some (U.getD (7 * g + k) 0#8 &&& 0x7F#8) := by
  have hin : k < (groupAt 7 g U).length := by rwa [groupAt_length hg]
  rw [Nat.add_assoc, Nat.add_comm 1 k, packStream_flag7 hs hmod hg (by omega), List.getElem?_cons_succ,
    List.getElem?_map, ← groupAt_getD U hk, List.getD_eq_getElem?_getD, List.getElem?_eq_getElem hin, Option.map_some,
    Option.getD_some]

theorem packStream_nibble {c : Config} {o : NibbleOrder} {U : List Byte} {g : Nat} (hs : c.packScheme = .nibble)
    (ho : c.nibbleOrder = o) (hg : g < U.length) :
    (packStream c U)[2 * g]? = some (splitNibbles o (U.getD g 0#8)).1 ∧
      (packStream c U)[2 * g + 1]? = some (splitNibbles o (U.getD g 0#8)).2 := by
  subst ho
  have hgp := Config.gp_nibble hs
  have hgl := Config.gl_nibble hs
  have hone : g < U.length / 1 := by rwa [Nat.div_one]
  have hbyte : ∀ k < 2, (packStream c U)[2 * g + k]? =
      [(splitNibbles c.nibbleOrder (U.getD g 0#8)).1, (splitNibbles c.nibbleOrder (U.getD g 0#8)).2][k]? := by
    intro k hk
    have hgroup := packStream_getElem? (U := U) (k := k) (by rw [hgl, Nat.mod_one]) (hgl ▸ hone) (hgp ▸ hk)
    rwa [hgl, hgp, eq_singleton_getD (groupAt_length hone), packGroup_nibble hs, groupAt_getD U Nat.one_pos,
      Nat.one_mul, Nat.add_zero] at hgroup
  exact ⟨hbyte 0 (by omega), hbyte 1 (by omega)⟩

/-! ### The obligations -/

/-- Settles O36: UNPACK has one outcome per clause, and each group of the stream is that of its packed group. -/
theorem unpackFollowsItsRule : Obligations.UnpackFollowsItsRule := by
  intro s
  refine ⟨fun hmod => exec_unpack_error .groupLength (unpack_groupLength hmod), fun i b hmod hs hb hhigh hleast => ?_,
    fun i b hmod hs hb hhigh hleast => ?_, fun hok => ⟨unpackStream s.cfg s.mem.pkd, ?_, unpackStream_length hok.1,
      fun hs _ _ => unpackStream_flag7 hs hok.1, fun hs ho _ => unpackStream_nibble hs ho hok.1,
      fun hs ho _ => unpackStream_nibble hs ho hok.1⟩⟩
  · refine exec_unpack_error .highBit ?_
    rw [unpack_badPacked hmod hb, badPackedError_flag7 hs]
    · rw [isBadPacked_flag7 hs, isHigh_true]
      exact hhigh
    · intro j b' hj hb'
      rw [isBadPacked_flag7 hs, isHigh_false]
      exact hleast j b' hj hb'
  · refine exec_unpack_error .nibbleRange ?_
    rw [unpack_badPacked hmod hb, badPackedError_nibble hs]
    · rw [isBadPacked_nibble hs, decide_eq_true_eq]
      exact hhigh
    · intro j b' hj hb'
      rw [isBadPacked_nibble hs, decide_eq_false_iff_not, not_lt]
      exact hleast j b' hj hb'
  · rw [exec_unpack_ok hok, State.complete_eq_succeeded]
    rfl

/-- A stream of UNP_LEN bytes is N_GROUPS groups, whose packing fits BUF_MAX (00_scope R7 condition 4). -/
theorem packable_of_unpLen {c : Config} {U : List Byte} (hc : c.WF) (h : U.length = c.unpLen) :
    U.length % c.gl = 0 ∧ U.length / c.gl * c.gp ≤ c.bufMax := by
  have hmax := Config.WF.bufMax hc
  unfold Config.frameLenFixed Config.pkdLen at hmax
  rw [h, Config.unpLen, Nat.mul_mod_left, Nat.mul_div_cancel _ (gl_pos c)]
  exact ⟨rfl, by omega⟩

/-- Settles O37: PACK has one outcome per clause, and each packed group is that of its logical bytes. -/
theorem packFollowsItsRule : Obligations.PackFollowsItsRule := by
  intro s
  refine ⟨fun hmod => exec_pack_error .streamLength (pack_streamLength hmod),
    fun hmod hmax => exec_pack_error .bufOverflow (pack_bufOverflow hmod hmax),
    fun hmod hmax => ⟨packStream s.cfg s.mem.unp, ?_, packStream_length hmod,
      fun hs g hg => ⟨?_, fun k hk => ⟨?_, packStream_dataByte hs hmod hg hk⟩⟩,
      fun hs g hg => ⟨fun ho => packStream_nibble hs ho hg, fun ho => packStream_nibble hs ho hg⟩,
      (packStream_packedOk hmod).flag7, (packStream_packedOk hmod).nibble⟩,
    packable_of_unpLen⟩
  · rw [exec_pack_ok hmod hmax, State.complete_eq_succeeded]
    rfl
  · rw [packStream_flagByte hs hmod hg]
    exact flagByte_seven_low _ _ (groupAt_length hg)
  · rw [packStream_flagByte hs hmod hg, ← flagPos_eq_bitPos, flagByte_seven_bit _ _ _ (groupAt_length hg) hk,
      groupAt_getD _ hk]

/-- The stream UNPACK gives can be packed: its packing has the length of the packed data it came from. -/
theorem packable_unpackStream {c : Config} {D : List Byte} (hmod : D.length % c.gp = 0) (hmax : D.length ≤ c.bufMax) :
    (unpackStream c D).length % c.gl = 0 ∧ (unpackStream c D).length / c.gl * c.gp ≤ c.bufMax := by
  rw [unpackStream_length hmod, Nat.mul_mod_left, Nat.mul_div_cancel _ (gl_pos c), div_mul_of_mod hmod]
  exact ⟨rfl, hmax⟩

/-- Settles O38: each command accepts what the other wrote, and the group functions are inverse. -/
theorem packAndUnpackAreInverse : Obligations.PackAndUnpackAreInverse := by
  constructor
  · intro s hok hmax
    obtain ⟨hmod', hmax'⟩ := packable_unpackStream hok.1 hmax
    exact ⟨_, _, exec_unpack_ok hok, State.complete_done _ _, exec_pack_ok hmod' hmax', State.complete_done _ _,
      packStream_unpackStream hok⟩
  · intro s hmod hmax
    exact ⟨_, _, exec_pack_ok hmod hmax, State.complete_done _ _, exec_unpack_ok (packStream_packedOk hmod),
      State.complete_done _ _, unpackStream_packStream hmod⟩

end Sys2Proof.Machine
end

section
/-! PROOFS of the checksum family (42_checksum.md): what the three checksum commands give, the check by sum, and that
DECODE meets every flipped bit of a payload whose checksum is over the packed data. -/

namespace Sys2Proof.Machine

/-! ### The checksum of a state's domain buffer (42_checksum R143) -/

/-- The value of `ck()` on a domain buffer of CK_BUF_LEN bytes. -/
def State.domainCk (s : State) : Ck := BitVec.ofNat 7 (checksumOf s.cfg s.domain)

theorem State.domainCk_toNat (s : State) : s.domainCk.toNat = checksumOf s.cfg s.domain := by
  rw [State.domainCk, BitVec.toNat_ofNat, Nat.mod_eq_of_lt (checksumOf_lt _ _)]

theorem State.domainCk_setWidth (s : State) :
    s.domainCk.setWidth 32 = BitVec.ofNat 32 (checksumOf s.cfg s.domain) := by
  rw [setWidth_ck, State.domainCk_toNat]

/-- The comparison of CK_VERIFY is one of 7-bit values (42_checksum R145). -/
theorem State.domainCk_eq_iff (s : State) :
    s.domainCk = s.ckByteField ↔ checksumOf s.cfg s.domain = s.ckByte.toNat % 128 := by
  rw [← BitVec.toNat_inj, State.domainCk_toNat, ckByteField_toNat]

theorem ck_state_ok_iff {s : State} {v : Ck} :
    ck s.cfg s.mem.pkd s.mem.unp = .ok v ↔ s.domain.length = s.cfg.ckBufLen ∧ v = s.domainCk := by
  rw [ck_ok_iff, domainBuf_state, ← State.domainCk_toNat, BitVec.toNat_inj]

section Commands
variable {i : Instr} {s : State} {f : Ck → Updates}

/-- A command that starts with `ck()` ends in its CK_LENGTH error. -/
theorem exec_ckLength (hbody : bodyOf i s = (ck s.cfg s.mem.pkd s.mem.unp).map f)
    (hlen : s.domain.length ≠ s.cfg.ckBufLen) :
    exec i s = .next (s.formatRecorded 9 s.domain.length s.cfg.ckBufLen s.domain.length) :=
  exec_of_formatError .ckLength (hbody.trans (Result.map_error_iff.mpr (ck_error_iff.mpr ⟨hlen, rfl⟩)))

/-- A command that starts with `ck()` completes with its updates of the checksum. -/
theorem exec_ck_ok (hbody : bodyOf i s = (ck s.cfg s.mem.pkd s.mem.unp).map f)
    (hlen : s.domain.length = s.cfg.ckBufLen) : exec i s = .next (s.complete (f s.domainCk)) := by
  rw [exec_eq_finish, hbody, ck_state_ok_iff.mpr ⟨hlen, rfl⟩]
  rfl

end Commands

theorem exec_ckVerify_ok {s : State} (hlen : s.domain.length = s.cfg.ckBufLen) :
    exec .ckVerify s = .next (s.complete
      { ckValue := some s.domainCk, verifyOk := some (decide (s.domainCk = s.ckByteField)) }) :=
  exec_ck_ok (f := fun v => { ckValue := some v, verifyOk := some (decide (v = s.ckByteField)) }) rfl hlen

/-- Settles O39: CK_COMPUTE writes the value of `ck()` or raises its error. -/
theorem ckComputeFollowsItsRule : Obligations.CkComputeFollowsItsRule := by
  refine fun s => ⟨exec_ckLength rfl, fun hlen => ?_⟩
  rw [exec_ck_ok rfl hlen, State.complete_eq_succeeded, ← State.domainCk_setWidth]
  rfl

/-- Settles O40: CK_VERIFY's comparison with CK_BYTE[6:0] is one of numbers below 128. -/
theorem ckVerifyFollowsItsRule : Obligations.CkVerifyFollowsItsRule := by
  refine fun s => ⟨exec_ckLength rfl, fun hlen => ?_⟩
  rw [exec_ckVerify_ok hlen, State.complete_eq_succeeded, ← State.domainCk_setWidth]
  simp only [State.domainCk_eq_iff]
  rfl

theorem ckByteField_complete {s : State} {u : Updates} {v : Ck} (h : u.ckByte = some v) :
    (s.complete u).ckByteField = v := by
  rw [State.ckByteField, State.complete_ckByte, h]
  exact BitVec.setWidth_setWidth_of_le v (by decide)

/-- Settles O41: a CK_APPEND that completed keeps the domain buffer, of which CK_BYTE[6:0] then holds the checksum. -/
theorem ckAppendFollowsItsRule : Obligations.CkAppendFollowsItsRule := by
  refine fun s => ⟨exec_ckLength rfl, fun hlen => ?_, fun t ht hdone => ?_⟩
  · rw [exec_ck_ok rfl hlen, State.complete_eq_succeeded, ← State.domainCk_setWidth]
    rfl
  · obtain ⟨e, -, rfl⟩ | ⟨u, hu, rfl⟩ := exec_cases ht
    · rw [State.raise_done] at hdone
      cases hdone
    · obtain ⟨v, hv, rfl⟩ := Result.map_ok_iff.mp hu
      obtain ⟨hlen, rfl⟩ := ck_state_ok_iff.mp hv
      refine ⟨_, exec_ckVerify_ok hlen, State.complete_done _ _, ?_⟩
      rw [State.complete_verifyOk, ckByteField_complete rfl]
      exact decide_eq_true rfl

/-- Settles O42: the negated sum equals CK_BYTE[6:0] exactly if the two sum to 0 (42_checksum R141, R148). -/
theorem verifyBySum : Obligations.VerifyBySum := by
  intro s halgo hlen
  refine ⟨_, exec_ckVerify_ok hlen, ?_⟩
  rw [State.complete_verifyOk, Option.getD_some, decide_eq_true_iff, State.domainCk_eq_iff]
  simp only [checksumOf, halgo]
  omega

/-! ### One flipped bit of a byte -/

/-- The byte with bit j flipped. -/
def flipBit (j : Nat) (b : Byte) : Byte := b ^^^ (1#8 <<< j)

theorem flipBit_toNat {j : Nat} (hj : j < 8) (b : Byte) : (flipBit j b).toNat = b.toNat ^^^ 2 ^ j := by
  have hpow : (1#8 <<< j : Byte).toNat = 2 ^ j := by
    rw [← BitVec.twoPow_eq, BitVec.toNat_twoPow_of_lt hj]
  rw [flipBit, BitVec.toNat_xor, hpow]

/-- A flip below bit n leaves a byte of n bits one of n bits. -/
theorem flipBit_lt {j n : Nat} {b : Byte} (hj : j < 8) (hjn : j < n) (hb : b.toNat < 2 ^ n) :
    (flipBit j b).toNat < 2 ^ n := by
  rw [flipBit_toNat hj]
  exact Nat.xor_lt_two_pow hb (Nat.pow_lt_pow_right (by decide) hjn)

theorem flipBit_sevenBit {j : Nat} {b : Byte} (hj : j < 7) (hb : b.toNat ≤ 0x7F) : (flipBit j b).toNat ≤ 0x7F :=
  Nat.le_of_lt_succ (flipBit_lt (n := 7) (by omega) hj (Nat.lt_succ_of_le hb))

/-- A flip of bit j sets it in a byte of at most j bits. -/
theorem flipBit_ge {j : Nat} {b : Byte} (hj : j < 8) (hb : b.toNat < 2 ^ j) : 2 ^ j ≤ (flipBit j b).toNat := by
  apply Nat.ge_two_pow_of_testBit
  rw [flipBit_toNat hj, Nat.testBit_xor, Nat.testBit_lt_two_pow hb, Nat.testBit_two_pow_self]
  rfl

/-- A flip of bit 7 makes a 7-bit byte a high one. -/
theorem flipBit_high {b : Byte} (hb : b.toNat ≤ 0x7F) : 0x80 ≤ (flipBit 7 b).toNat :=
  flipBit_ge (j := 7) (by decide) (Nat.lt_succ_of_le hb)

/-! ### One flipped bit of a frame -/

theorem modify_append_left {α : Type} {l l' : List α} {k : Nat} (f : α → α) (hk : k < l.length) :
    (l ++ l').modify k f = l.modify k f ++ l' := by
  rw [List.modify_eq_take_cons_drop (by rw [List.length_append]; omega), List.modify_eq_take_cons_drop hk,
    List.take_append_of_le_length hk.le, List.drop_append_of_le_length hk, List.getElem_append_left hk]
  simp

theorem modify_append_right {α : Type} (l l' : List α) (k : Nat) (f : α → α) :
    (l ++ l').modify (l.length + k) f = l ++ l'.modify k f := by
  induction l with
  | nil => simp
  | cons a l ih => rw [List.cons_append, List.length_cons, Nat.succ_add, List.modify_succ_cons, ih, List.cons_append]

/-- What f keeps holds of every element of a list of which f changed one. -/
theorem forall_mem_modify {α : Type} {P : α → Prop} {f : α → α} {l : List α} {k : Nat}
    (hf : ∀ x, P x → P (f x)) (hl : ∀ x ∈ l, P x) : ∀ x ∈ l.modify k f, P x := by
  intro x hx
  obtain ⟨i, hi⟩ := List.mem_iff_getElem?.mp hx
  rw [List.getElem?_modify] at hi
  obtain ⟨y, hy, rfl⟩ := Option.map_eq_some_iff.mp hi
  have hPy := hl y (List.mem_of_getElem? hy)
  split
  · exact hf y hPy
  · exact hPy

/-- A change at a data offset of a frame is one of its data part. -/
theorem frameOf_modify_data (c : Config) {D : List Byte} (b : Byte) {k : Nat} (f : Byte → Byte) (hk : k < D.length) :
    (frameOf c D b).modify (1 + c.idLen + k) f = frameOf c (D.modify k f) b := by
  have hsplit : ∀ D, frameOf c D b = ([c.startByte] ++ c.ident) ++ (D ++ ([b] ++ [c.endByte])) := by simp [frameOf]
  have hlen : 1 + c.idLen = ([c.startByte] ++ c.ident).length := by simp [Config.idLen, Nat.add_comm]
  rw [hsplit, hsplit, hlen, modify_append_right, modify_append_left f hk]

/-- A change at the checksum offset of a frame is one of its checksum byte. -/
theorem frameOf_modify_ck (c : Config) (D : List Byte) (b : Byte) (f : Byte → Byte) :
    (frameOf c D b).modify (1 + c.idLen + D.length) f = frameOf c D (f b) := by
  have hsplit : ∀ b, frameOf c D b = ([c.startByte] ++ c.ident ++ D) ++ (b :: [c.endByte]) := by simp [frameOf]
  have hlen : 1 + c.idLen + D.length = ([c.startByte] ++ c.ident ++ D).length + 0 := by
    simp only [List.length_append, List.length_singleton, Config.idLen, Nat.add_zero]
  rw [hsplit, hsplit, hlen, modify_append_right, List.modify_zero_cons]

/-! ### DECODE of a frame that may hold a flipped bit (42_checksum R147) -/

/-- The bits of a packed byte: seven under FLAG7 and four under NIBBLE (41_packer R123). -/
def packedBits (c : Config) : Nat :=
  match c.packScheme with
  | .flag7 => 7
  | .nibble => 4

theorem packedBits_flag7 {c : Config} (hs : c.packScheme = .flag7) : packedBits c = 7 := by rw [packedBits, hs]

theorem packedBits_nibble {c : Config} (hs : c.packScheme = .nibble) : packedBits c = 4 := by rw [packedBits, hs]

theorem packedBits_le (c : Config) : packedBits c ≤ 7 := by
  unfold packedBits
  cases c.packScheme <;> decide

theorem isBadPacked_eq_false_iff {c : Config} {b : Byte} : isBadPacked c b = false ↔ b.toNat < 2 ^ packedBits c := by
  rw [isBadPacked_false, packedBits]
  cases c.packScheme <;> exact Nat.lt_succ_iff.symm

theorem isBadPacked_eq_true_iff {c : Config} {b : Byte} : isBadPacked c b = true ↔ 2 ^ packedBits c ≤ b.toNat := by
  rw [← Bool.not_eq_false, isBadPacked_eq_false_iff, not_lt]

/-- The checksum is over the whole packed data part, as 42_checksum R147 takes it. -/
structure ChecksPackedData (c : Config) : Prop where
  domain : c.ckDomain = .packed
  lo : c.ckLo = 0
  hi : c.ckHi = c.pkdLen

/-- The frame of D and b passes what DECODE checks before it compares the checksums (44_composite R190). -/
structure ReachesComparison (c : Config) (D : List Byte) (b : Byte) : Prop where
  ident : ∀ x ∈ c.ident, x.toNat ≤ 0x7F
  packed : PackedOk c D
  length : D.length = c.pkdLen
  ckByte : b.toNat ≤ 0x7F

theorem PackedOk.sevenBit {c : Config} {D : List Byte} (h : PackedOk c D) : ∀ x ∈ D, x.toNat ≤ 0x7F := by
  intro x hx
  have hbits := isBadPacked_eq_false_iff.mp ((packedOk_iff.mp h).2 x hx)
  have hle := Nat.pow_le_pow_right (n := 2) (by decide) (packedBits_le c)
  omega

section Flips
variable {c : Config} {D : List Byte} {b : Byte} {j k : Nat}

/-- What DECODE accepts under a checksum over the whole packed data. -/
theorem reachesComparison_of_decode {F : List Byte} {u : Updates} (hc : ChecksPackedData c)
    (h : decodeFrame c F = .ok u) :
    ∃ D b, F = frameOf c D b ∧ ReachesComparison c D b ∧ checksumOf c D = b.toNat := by
  obtain ⟨D, C, U, m, hparse, hunpack, hck, -, -⟩ := decodeFrame_ok_iff.mp h
  obtain ⟨b, hF, rfl, hb, hlow⟩ := frameParse_ok_iff.mp hparse
  obtain ⟨hlen, hsum⟩ := ck_ok_iff.mp hck
  rw [domainBuf, hc.domain] at hlen hsum
  rw [Config.ckBufLen, hc.domain] at hlen
  rw [BitVec.toNat_setWidth, Nat.mod_eq_of_lt (by omega)] at hsum
  exact ⟨D, b, hF, ⟨fun x hx => hlow x (List.mem_append_left _ hx), (unpack_ok_iff.mp hunpack).1, hlen, hb⟩, hsum.symm⟩

theorem decodeFrame_of_parse_error {F : List Byte} {e : ErrorRecord} (h : frameParse c F = .error e) :
    decodeFrame c F = .error e := by
  simp only [decodeFrame, h]

theorem decodeFrame_of_unpack_error {F : List Byte} {C : Ck} {e : ErrorRecord} (hparse : frameParse c F = .ok (D, C))
    (h : unpack c D = .error e) : decodeFrame c F = .error e := by
  simp only [decodeFrame, hparse, h]

theorem decodeFrame_of_mismatch {F U : List Byte} {v C : Ck} (hparse : frameParse c F = .ok (D, C))
    (hunpack : unpack c D = .ok U) (hck : ck c D U = .ok v) (hne : v ≠ C) :
    decodeFrame c F =
      .error { kind := .checksum, offset := F.length - 2, expected := v.toNat, actual := C.toNat } := by
  simp only [decodeFrame, hparse, hunpack, hck]
  exact if_pos hne

/-- A byte of 0x80 or more in the payload is a HIGH_BIT error (40_framer R102). -/
theorem decodeFrame_highBit {x : Byte} (hx : x ∈ D ++ [b]) (hhigh : 0x80 ≤ x.toNat) :
    ∃ e, decodeFrame c (frameOf c D b) = .error e ∧ e.kind = .format .highBit := by
  have hmem : x ∈ interior (frameOf c D b) := by
    rw [interior_frameOf, List.append_assoc]
    exact List.mem_append_right _ hx
  cases hfind : firstWhere isHigh 1 (interior (frameOf c D b)) with
  | none =>
    have hlow := isHigh_false.mp (firstWhere_none.mp hfind x hmem)
    omega
  | some p => exact ⟨_, decodeFrame_of_parse_error (frameParse_highBit (framed_frameOf c D b) hfind), rfl⟩

/-- FRAME_PARSE also accepts the frame with other 7-bit data in place of D. -/
theorem ReachesComparison.parse {D' : List Byte} (h : ReachesComparison c D b) (hD' : ∀ x ∈ D', x.toNat ≤ 0x7F) :
    frameParse c (frameOf c D' b) = .ok (D', b.setWidth 7) :=
  frameParse_ok_iff.mpr ⟨b, rfl, rfl, h.ckByte, fun x hx => (List.mem_append.mp hx).elim (h.ident x) (hD' x)⟩

/-- A frame that reaches the comparison and fails it is a CHECKSUM error. -/
theorem ReachesComparison.decode_mismatch (h : ReachesComparison c D b) (hc : ChecksPackedData c)
    (hne : checksumOf c D ≠ b.toNat) :
    ∃ e, decodeFrame c (frameOf c D b) = .error e ∧ e.kind = .checksum := by
  have hparse := h.parse h.packed.sevenBit
  have hck : ck c D (unpackStream c D) = .ok (BitVec.ofNat 7 (checksumOf c D)) := by
    rw [ck_ok_iff, domainBuf, Config.ckBufLen, hc.domain]
    exact ⟨h.length, by rw [BitVec.toNat_ofNat, Nat.mod_eq_of_lt (checksumOf_lt c D)]⟩
  have hvC : BitVec.ofNat 7 (checksumOf c D) ≠ b.setWidth 7 := by
    have hb : b.toNat < 2 ^ 7 := Nat.lt_succ_of_le h.ckByte
    rwa [ne_eq, ← BitVec.toNat_inj, BitVec.toNat_ofNat, BitVec.toNat_setWidth, Nat.mod_eq_of_lt (checksumOf_lt c D),
      Nat.mod_eq_of_lt hb]
  exact ⟨_, decodeFrame_of_mismatch hparse (unpack_ok_iff.mpr ⟨h.packed, rfl⟩) hck hvC, rfl⟩

theorem ReachesComparison.ckFlipped (h : ReachesComparison c D b) (hj : j < 7) :
    ReachesComparison c D (flipBit j b) :=
  { h with ckByte := flipBit_sevenBit hj h.ckByte }

/-- A flip of one of the bits a packed byte may have leaves the data well formed. -/
theorem ReachesComparison.dataFlipped (h : ReachesComparison c D b) (hj : j < packedBits c) :
    ReachesComparison c (D.modify k (flipBit j)) b := by
  obtain ⟨hmod, hgood⟩ := packedOk_iff.mp h.packed
  have hj7 := packedBits_le c
  refine { h with packed := packedOk_iff.mpr ⟨by rwa [List.length_modify], forall_mem_modify (fun x hx => ?_) hgood⟩,
                  length := by rw [List.length_modify, h.length] }
  rw [isBadPacked_eq_false_iff] at hx ⊢
  exact flipBit_lt (by omega) hj hx

/-- A flip above the bits a packed byte may have, but below bit 7, is a NIBBLE_RANGE error (41_packer R124). -/
theorem ReachesComparison.decode_nibbleRange (h : ReachesComparison c D b) (hk : k < D.length) (hj : packedBits c ≤ j)
    (hj7 : j < 7) :
    ∃ e, decodeFrame c (frameOf c (D.modify k (flipBit j)) b) = .error e ∧ e.kind = .format .nibbleRange := by
  obtain ⟨hmod, hgood⟩ := packedOk_iff.mp h.packed
  have hnib : c.packScheme = .nibble := by
    cases hs : c.packScheme with
    | flag7 => rw [packedBits_flag7 hs] at hj; omega
    | nibble => rfl
  have hparse := h.parse (forall_mem_modify (k := k) (fun x hx => flipBit_sevenBit hj7 hx) h.packed.sevenBit)
  have hpow : 2 ^ packedBits c ≤ 2 ^ j := Nat.pow_le_pow_right (by decide) hj
  have hDk := isBadPacked_eq_false_iff.mp (hgood _ (List.getElem_mem hk))
  have hbad : 2 ^ packedBits c ≤ (flipBit j D[k]).toNat := hpow.trans (flipBit_ge (by omega) (hDk.trans_le hpow))
  have hat : (D.modify k (flipBit j))[k]? = some (flipBit j D[k]) := by
    rw [List.getElem?_modify_eq, List.getElem?_eq_getElem hk]
    rfl
  have hunpack := unpack_badPacked (by rwa [List.length_modify]) hat (isBadPacked_eq_true_iff.mpr hbad)
    (fun i y hi hy => hgood y (List.mem_of_getElem? ((List.getElem?_modify_ne _ _ hi.ne').symm.trans hy)))
  exact ⟨_, decodeFrame_of_unpack_error hparse hunpack, by rw [badPackedError_nibble hnib]; rfl⟩

/-- The error of a flip of bit j at offset i of a frame of n bytes (42_checksum R147). -/
def flipKind (c : Config) (n i j : Nat) : ErrorKind :=
  if j = 7 then .format .highBit
  else if packedBits c ≤ j ∧ i < n - 2 then .format .nibbleRange
  else .checksum

/-- A flip of a bit of a data byte. -/
theorem ReachesComparison.decode_dataFlip (h : ReachesComparison c D b) (hc : ChecksPackedData c)
    (hsum : checksumOf c D = b.toNat) (hk : k < D.length) (hj : j < 8) :
    ∃ e, decodeFrame c (frameOf c (D.modify k (flipBit j)) b) = .error e ∧
      e.kind = flipKind c (frameOf c D b).length (1 + c.idLen + k) j := by
  have hoff : 1 + c.idLen + k < (frameOf c D b).length - 2 := by rw [frameOf_length]; omega
  unfold flipKind
  by_cases hj7 : j = 7
  · subst hj7
    have hmem : flipBit 7 D[k] ∈ D.modify k (flipBit 7) := by
      rw [List.modify_eq_take_cons_drop hk]
      simp
    rw [if_pos rfl]
    exact decodeFrame_highBit (List.mem_append_left _ hmem)
      (flipBit_high (h.packed.sevenBit _ (List.getElem_mem hk)))
  · rw [if_neg hj7]
    by_cases hbits : packedBits c ≤ j
    · rw [if_pos ⟨hbits, hoff⟩]
      exact h.decode_nibbleRange hk hbits (by omega)
    · rw [if_neg (fun hand => hbits hand.1)]
      refine (h.dataFlipped (by omega)).decode_mismatch hc ?_
      rw [← hsum]
      exact checksumOf_flip c D hc.lo (hc.hi.trans h.length.symm) hk (by omega)

/-- A flip of a bit of the checksum byte. -/
theorem ReachesComparison.decode_ckFlip (h : ReachesComparison c D b) (hc : ChecksPackedData c)
    (hsum : checksumOf c D = b.toNat) (hj : j < 8) :
    ∃ e, decodeFrame c (frameOf c D (flipBit j b)) = .error e ∧
      e.kind = flipKind c (frameOf c D b).length (1 + c.idLen + D.length) j := by
  have hoff : ¬ 1 + c.idLen + D.length < (frameOf c D b).length - 2 := by rw [frameOf_length]; omega
  unfold flipKind
  by_cases hj7 : j = 7
  · subst hj7
    rw [if_pos rfl]
    exact decodeFrame_highBit (by simp) (flipBit_high h.ckByte)
  · rw [if_neg hj7, if_neg (fun hand => hoff hand.2)]
    refine (h.ckFlipped (by omega)).decode_mismatch hc fun heq => xor_bit_mod b (j := j) (by omega) ?_
    exact congrArg (· % 128) (heq.symm.trans hsum)

/-- Any one flipped bit of the payload of an accepted frame is an error of its kind (42_checksum R147). -/
theorem decodeFrame_flip {F : List Byte} {u : Updates} {i : Nat} (hc : ChecksPackedData c)
    (h : decodeFrame c F = .ok u) (hlo : 1 + c.idLen ≤ i) (hhi : i ≤ F.length - 2) (hj : j < 8) :
    ∃ e, decodeFrame c (F.modify i (flipBit j)) = .error e ∧ e.kind = flipKind c F.length i j := by
  obtain ⟨D, b, rfl, hreach, hsum⟩ := reachesComparison_of_decode hc h
  obtain ⟨k, rfl⟩ := Nat.exists_eq_add_of_le hlo
  rw [frameOf_length] at hhi
  obtain hk | rfl := Nat.lt_or_eq_of_le (show k ≤ D.length by omega)
  · rw [frameOf_modify_data c b _ hk]
    exact hreach.decode_dataFlip hc hsum hk hj
  · rw [frameOf_modify_ck]
    exact hreach.decode_ckFlip hc hsum hj

/-- The clauses of 42_checksum R147 name the kind of each flip. -/
theorem flipKind_clauses (n i : Nat) :
    (j = 7 → (flipKind c n i j).code = 1 ∧ (flipKind c n i j).sub = 4) ∧
      (j < 7 → c.packScheme = .nibble → 4 ≤ j → i < n - 2 →
        (flipKind c n i j).code = 1 ∧ (flipKind c n i j).sub = 6) ∧
      (j < 7 → (c.packScheme = .flag7 ∨ j < 4 ∨ i = n - 2) → (flipKind c n i j).code = 3) := by
  unfold flipKind
  refine ⟨fun hj => ?_, fun hj hs h4 hlt => ?_, fun hj hor => ?_⟩
  · rw [if_pos hj]
    exact ⟨rfl, rfl⟩
  · rw [if_neg hj.ne, if_pos ⟨by rwa [packedBits_nibble hs], hlt⟩]
    exact ⟨rfl, rfl⟩
  · rw [if_neg hj.ne, if_neg]
    · rfl
    · rintro ⟨hbits, hlt⟩
      cases hs : c.packScheme with
      | flag7 => rw [packedBits_flag7 hs] at hbits; omega
      | nibble =>
        rw [packedBits_nibble hs] at hbits
        obtain hflag | h4 | hck := hor
        · rw [hs] at hflag; cases hflag
        · omega
        · omega

end Flips

theorem exec_decode_of_error {s : State} {e : ErrorRecord} (h : decodeFrame s.cfg s.mem.frame = .error e) :
    exec .decode s = .next (s.raise e) := by
  rw [exec_eq_finish, bodyOf, h, State.finish_error]

theorem exec_decode_completes {s : State} (h : (decodeFrame s.cfg s.mem.frame).toBool = true) :
    ∃ t, exec .decode s = .next t ∧ t.done = true := by
  cases hd : decodeFrame s.cfg s.mem.frame with
  | error e => rw [hd] at h; cases h
  | ok u => exact ⟨_, by rw [exec_eq_finish, bodyOf, hd, State.finish_ok], State.complete_done _ _⟩

/-- REF with its checksum over the unpacked stream (conflict C3 of 42_checksum R147). -/
def unpackedDomainConfig : Config := { Config.ref with ckDomain := .unpacked, ckHi := 7 }

/-- An SXC of that configuration that holds the frame of a stream of zeros, whose checksum is 0. -/
def unpackedDomainState : State :=
  { State.resetWith unpackedDomainConfig with mem := ⟨frameOf unpackedDomainConfig (zeros 8) 0#8, [], []⟩ }

/-- Settles O43: every flip is met by the 7-bit check, the nibble check or the comparison; and over the unpacked stream
flag bit 0 of a FLAG7 group adds 128 to the sum, which the comparison cannot see. -/
theorem singleBitFlipsAreDetected : Obligations.SingleBitFlipsAreDetected := by
  constructor
  · intro s t i j _ hdom hlo hhi hdecode hdone hilo hihi hj
    obtain ⟨e, -, rfl⟩ | ⟨u, hu, -⟩ := exec_cases hdecode
    · rw [State.raise_done] at hdone
      cases hdone
    · obtain ⟨e, he, hkind⟩ := decodeFrame_flip ⟨hdom, hlo, hhi⟩ hu hilo hihi hj
      refine ⟨_, exec_decode_of_error he, State.raise_err _ _, ?_⟩
      rw [State.raise_code, State.raise_sub, hkind]
      exact flipKind_clauses _ _
  · obtain ⟨t, ht, htdone⟩ := exec_decode_completes (s := unpackedDomainState) (by decide)
    obtain ⟨r, hr, hrdone⟩ := exec_decode_completes (s := { unpackedDomainState with mem :=
      { unpackedDomainState.mem with frame := unpackedDomainState.mem.frame.modify 4 (flipBit 0) } }) (by decide)
    exact ⟨unpackedDomainState, t, r, 0, by decide, rfl, rfl, ht, htdone, by decide, hr, hrdone⟩

end Sys2Proof.Machine
end

section
/-! PROOFS of the field mapper family (43_field_mapper.md): what FIELD_DECODE and FIELD_ENCODE give on every operand,
and that each undoes the other. -/

namespace Sys2Proof.Machine

/-! ### Entries and their elements (43_field_mapper R160, R161) -/

/-- The entry at a position of the schema: its number fits ERR_INDEX (10_state R28, R42 condition 5). -/
theorem Config.WF.entry {c : Config} (hc : c.WF) {j : Nat} {e : Entry} (h : c.schema[j]? = some e) :
    j < 65536 ∧ e ∈ c.schema ∧ e.sizeOk = true := by
  have hlen := (schemaWellFormed_length (Config.WF.schema hc)).2
  have hj := (List.getElem?_eq_some_iff.mp h).1
  have he := List.mem_of_getElem? h
  exact ⟨by omega, he, (schemaWellFormed_entry (Config.WF.schema hc) he).1⟩

/-- An entry has at least one element (10_state R42 condition 1). -/
theorem Entry.count_pos {e : Entry} (h : e.sizeOk = true) : 1 ≤ e.count := by
  obtain ⟨-, -, harray, hone⟩ := Entry.sizeOk_iff.mp h
  by_cases hk : e.kind = .array
  · exact harray hk
  · exact (hone hk).ge

@[simp] theorem elemOff_zero (e : Entry) : elemOff e 0 = e.off := by simp [elemOff]

/-- An element read from a stream is recorded in ERR_ACTUAL as it is: it has at most 32 bits. -/
theorem modWord_elemVal {e : Entry} (h : e.sizeOk = true) (S : List Byte) (k : Nat) :
    modWord (elemVal S e k) = elemVal S e k := by
  have hlt : elemVal S e k < 2 ^ 32 :=
    (elemVal_lt S e k).trans_le (Nat.pow_le_pow_right (by decide) (Entry.width_bounds h).2)
  unfold modWord
  omega

/-! ### The record of a value that fails its constraint (43_field_mapper R161) -/

section ValueErrors
variable {i : Instr} {s : State} {j k : Nat} {e : Entry} {v : Int}

theorem valueError_code : (valueError j e k v).kind.code = 4 := by
  unfold valueError
  cases e.cons <;> rfl

theorem valueError_index : (valueError j e k v).index = j := by
  unfold valueError
  cases e.cons <;> rfl

theorem valueError_elem : (valueError j e k v).elem = k := by
  unfold valueError
  cases e.cons <;> rfl

theorem exec_valueError_range (h : bodyOf i s = .error (valueError j e k v)) (hj : j < 65536) {lo hi : Nat}
    (hcons : e.cons = .range lo hi) :
    exec i s = .next (s.recorded 4 1 j k (e.off + k * e.width) (if (hi : Int) < v then hi else lo) (modWord v)
      e.name) := by
  rw [exec_of_error h (by rwa [valueError_index])]
  simp only [valueError, hcons]
  rfl

theorem exec_valueError_enum (h : bodyOf i s = .error (valueError j e k v)) (hj : j < 65536) {ms : List Nat}
    (hcons : e.cons = .enum ms) :
    exec i s = .next (s.recorded 4 2 j k (e.off + k * e.width) 0 (modWord v) e.name) := by
  rw [exec_of_error h (by rwa [valueError_index])]
  simp only [valueError, hcons]
  rfl

end ValueErrors

/-! ### FIELD_DECODE: one equation per outcome (43_field_mapper R166) -/

section Decode
variable {c : Config} {S : List Byte} {j k : Nat} {e : Entry}

theorem decodeEntry_reserved_error (hk : e.kind = .reserved) (hp : c.reservedPolicy = .check)
    (hne : elemVal S e 0 ≠ 0) (m : Patch) : decodeEntry c S j e m = .error (reservedError S j e) := by
  simp only [decodeEntry, hk]
  exact if_pos ⟨hp, hne⟩

/-- The first element that fails the constraint is the one reported. -/
theorem decodeEntry_value_error (hs : e.sizeOk = true) (hk : e.kind ≠ .reserved) (hkc : k < e.count)
    (hb : ∀ k', k' < k → Constraint.Holds e.cons (elemVal S e k')) (hf : ¬ Constraint.Holds e.cons (elemVal S e k))
    (m : Patch) : decodeEntry c S j e m = .error (valueError j e k (elemVal S e k)) := by
  cases hkind : e.kind with
  | reserved => exact absurd hkind hk
  | scalar =>
    have hcount := Entry.count_one hs (by simp [hkind])
    obtain rfl : k = 0 := by omega
    simp only [decodeEntry, hkind, checkValue_error_iff.mpr ⟨hf, rfl⟩]
    rfl
  | array =>
    have helems := decodeElems_error (j := j) (Nat.zero_le k) (by omega : k < 0 + e.count) (fun k' _ => hb k') hf
    simp only [decodeEntry, hkind, helems]
    rfl

/-- A stream of UNP_LEN bytes ends FIELD_DECODE in the error of its first failing entry. -/
theorem fieldDecode_entry_error {err : ErrorRecord} (hlen : S.length = c.unpLen) (hj : c.schema[j]? = some e)
    (hb : ∀ i e', i < j → c.schema[i]? = some e' → EntryDecodes c S e')
    (he : ∀ m, decodeEntry c S j e m = .error err) : fieldDecode c S = .error err := by
  unfold fieldDecode
  rw [if_neg (not_not.mpr hlen)]
  exact decodeEntries_error hj hb (fun m => by rw [Nat.zero_add]; exact he m)

end Decode

/-- A command that completed did so with its body's updates. -/
theorem exec_done {i : Instr} {s t : State} (h : exec i s = .next t) (hdone : t.done = true) :
    ∃ u, bodyOf i s = .ok u ∧ t = s.complete u := by
  obtain ⟨e, -, rfl⟩ | hok := exec_cases h
  · rw [State.raise_done] at hdone
    cases hdone
  · exact hok

theorem bodyOf_fieldDecode_error {s : State} {err : ErrorRecord} (h : fieldDecode s.cfg s.mem.unp = .error err) :
    bodyOf .fieldDecode s = .error err := Result.map_error_iff.mpr h

theorem exec_fieldDecode_ok {s : State} (hc : s.cfg.WF) (h : StreamOk s.cfg s.mem.unp) :
    exec .fieldDecode s = .next (s.complete { patch := some (decodedPatch s.cfg s.mem.unp) }) := by
  have hbody : bodyOf .fieldDecode s = .ok { patch := some (decodedPatch s.cfg s.mem.unp) } :=
    Result.map_ok_iff.mpr ⟨_, (fieldDecode_ok_iff (Config.WF.schema hc)).mpr ⟨h, rfl⟩, rfl⟩
  rw [exec_eq_finish, hbody, State.finish_ok]

/-- What a completed FIELD_DECODE says of its stream, and all it wrote. -/
theorem exec_fieldDecode_done {s t : State} (hc : s.cfg.WF) (h : exec .fieldDecode s = .next t)
    (hdone : t.done = true) :
    StreamOk s.cfg s.mem.unp ∧ t = s.complete { patch := some (decodedPatch s.cfg s.mem.unp) } := by
  obtain ⟨u, hu, rfl⟩ := exec_done h hdone
  obtain ⟨m, hm, rfl⟩ := Result.map_ok_iff.mp hu
  obtain ⟨hS, rfl⟩ := (fieldDecode_ok_iff (Config.WF.schema hc)).mp hm
  exact ⟨hS, rfl⟩

/-- Settles O45: FIELD_DECODE has one outcome per clause, and its end records it. -/
theorem fieldDecodeFollowsItsRule : Obligations.FieldDecodeFollowsItsRule := by
  refine fun s hc => ⟨fun hlen => ?_, fun j e hlen hj hb => ?_, fun hS => ?_⟩
  · exact exec_of_formatError .streamLength (bodyOf_fieldDecode_error (if_pos hlen))
  · obtain ⟨hj16, -, hs⟩ := Config.WF.entry hc hj
    refine ⟨fun hk hp hne => ?_, fun k hk hkc hbefore hfail => ?_⟩
    · rw [exec_of_error (bodyOf_fieldDecode_error
        (fieldDecode_entry_error hlen hj hb (decodeEntry_reserved_error hk hp hne))) hj16]
      rfl
    · have hbody := bodyOf_fieldDecode_error
        (fieldDecode_entry_error hlen hj hb (decodeEntry_value_error hs hk hkc hbefore hfail))
      refine ⟨fun lo hi hcons => ?_, fun ms hcons => ?_⟩
      · rw [exec_valueError_range hbody hj16 hcons, modWord_elemVal hs]
        simp only [Nat.cast_lt]
      · rw [exec_valueError_enum hbody hj16 hcons, modWord_elemVal hs]
  · rw [exec_fieldDecode_ok hc hS, State.complete_eq_succeeded]
    rfl

/-- Settles O46: the decoded patch is a map with the schema's names as its keys. -/
theorem decodedPatchHasOneKeyPerEntry : Obligations.DecodedPatchHasOneKeyPerEntry := by
  intro s t hc h hdone
  obtain ⟨-, rfl⟩ := exec_fieldDecode_done hc h hdone
  rw [State.complete_patch, Option.getD_some]
  refine ⟨fun e k he hk hname => ?_, fun e k he hk hname => ?_, fun k hk => ?_,
    Patch.keys_nodup (wf_decodedPatch _ _)⟩
  · rw [find_decodedPatch (Config.WF.schema hc) he hname, entryValue, hk, elemVal, elemOff_zero]
  · refine ⟨_, by rw [find_decodedPatch (Config.WF.schema hc) he hname, entryValue, hk], by simp, fun i hi => ?_⟩
    rw [List.getElem?_map, List.getElem?_range hi, Option.map_some, elemVal, elemOff]
  · exact (mem_keys_decodedPatch (Config.WF.schema hc)).mp (Patch.find_isSome_iff.mp (Option.isSome_iff_ne_none.mpr hk))

/-! ### FIELD_ENCODE: one equation per outcome (43_field_mapper R167 to R170) -/

section Encode
variable {m : Patch} {j n : Nat} {e : Entry} {k : Name} {pv : PValue}

theorem checkEntry_missing (hk : e.kind ≠ .reserved) (hname : e.name = some k) (hfind : Patch.find m k = none) :
    checkEntry m j e = .error (missingError j e) := by
  unfold checkEntry
  cases hkind : e.kind with
  | reserved => exact absurd hkind hk
  | scalar => simp only [findNamed, hname, hfind]
  | array => simp only [findNamed, hname, hfind]

theorem checkEntry_shape (hk : e.kind ≠ .reserved) (hname : e.name = some k) (hfind : Patch.find m k = some pv)
    (hshape : ¬ ShapeFits e pv) : checkEntry m j e = .error (shapeError j e pv) := by
  unfold checkEntry
  unfold ShapeFits at hshape
  cases hkind : e.kind with
  | reserved => exact absurd hkind hk
  | scalar =>
    cases pv with
    | scalar v => simp [hkind] at hshape
    | array vs => simp only [findNamed, hname, hfind]
  | array =>
    cases pv with
    | scalar v => simp only [findNamed, hname, hfind]
    | array vs =>
      simp only [hkind] at hshape
      simp only [findNamed, hname, hfind]
      exact if_pos hshape

/-- The first value that fails the constraint is the one reported. -/
theorem checkEntry_value {v : Int} (hname : e.name = some k) (hfind : Patch.find m k = some pv)
    (hshape : ShapeFits e pv) (hv : pv.ints[n]? = some v)
    (hb : ∀ n' v', n' < n → pv.ints[n']? = some v' → Constraint.Holds e.cons v') (hf : ¬ Constraint.Holds e.cons v) :
    checkEntry m j e = .error (valueError j e n v) := by
  unfold checkEntry
  unfold ShapeFits at hshape
  cases hkind : e.kind with
  | reserved => simp [hkind] at hshape
  | scalar =>
    cases pv with
    | array vs => simp [hkind] at hshape
    | scalar w =>
      obtain ⟨rfl, rfl⟩ : n = 0 ∧ w = v := by simpa [PValue.ints, List.getElem?_singleton] using hv
      simp only [findNamed, hname, hfind]
      exact checkValue_error_iff.mpr ⟨hf, rfl⟩
  | array =>
    cases pv with
    | scalar w => simp [hkind] at hshape
    | array vs =>
      simp only [hkind] at hshape
      simp only [findNamed, hname, hfind]
      rw [if_neg (not_not.mpr hshape), checkElems_error (vs := vs) hv hb hf, Nat.zero_add]

end Encode

theorem bodyOf_fieldEncode_error {s : State} {err : ErrorRecord} (h : fieldEncode s.cfg s.patch = .error err) :
    bodyOf .fieldEncode s = .error err := Result.map_error_iff.mpr h

theorem exec_fieldEncode_ok {s : State} (h : PatchOk s.cfg s.patch) :
    exec .fieldEncode s = .next (s.complete { unp := some (writeEntries s.cfg s.patch) }) := by
  have hbody : bodyOf .fieldEncode s = .ok { unp := some (writeEntries s.cfg s.patch) } :=
    Result.map_ok_iff.mpr ⟨_, fieldEncode_ok_iff.mpr ⟨h, rfl⟩, rfl⟩
  rw [exec_eq_finish, hbody, State.finish_ok]

/-- What a completed FIELD_ENCODE says of its patch, and all it wrote. -/
theorem exec_fieldEncode_done {s t : State} (h : exec .fieldEncode s = .next t) (hdone : t.done = true) :
    PatchOk s.cfg s.patch ∧ t = s.complete { unp := some (writeEntries s.cfg s.patch) } := by
  obtain ⟨u, hu, rfl⟩ := exec_done h hdone
  obtain ⟨S, hS, rfl⟩ := Result.map_ok_iff.mp hu
  obtain ⟨hm, rfl⟩ := fieldEncode_ok_iff.mp hS
  exact ⟨hm, rfl⟩

/-- Settles O47: pass 1 ends in the error of the first failing entry, pass 2 in that of the least unknown key, and the
stream holds the patch. -/
theorem fieldEncodeFollowsItsRule : Obligations.FieldEncodeFollowsItsRule := by
  refine fun s hc => ⟨fun j e k hj hk hname hb => ?_, fun k hpass hmem hunknown hleast => ?_, fun hm => ?_⟩
  · obtain ⟨hj16, -, -⟩ := Config.WF.entry hc hj
    have hbody : ∀ {err}, checkEntry s.patch j e = .error err → bodyOf .fieldEncode s = .error err :=
      fun herr => bodyOf_fieldEncode_error (fieldEncode_entry_error hj hb herr)
    have hshape : ∀ {pv}, Patch.find s.patch k = some pv → ¬ ShapeFits e pv →
        exec .fieldEncode s = .next (s.recorded 4 4 j 0 e.off (shapeError j e pv).expected (shapeError j e pv).actual
          (some k)) := fun hfind hmis => by
      rw [exec_of_error (hbody (checkEntry_shape hk hname hfind hmis)) hj16, ← hname]
      rfl
    refine ⟨fun hfind => ?_, fun v hfind hkind => ?_, fun vs hfind hkind => ?_, fun vs hfind hkind hne => ?_,
      fun pv n v hfind hfit hv hbefore hfail => ?_⟩
    · rw [exec_of_error (hbody (checkEntry_missing hk hname hfind)) hj16, ← hname]
      rfl
    · rw [hshape hfind (by simp [ShapeFits, hkind])]
      simp only [shapeError, hkind]
    · rw [hshape hfind (by simp [ShapeFits, hkind])]
      simp only [shapeError, hkind]
    · rw [hshape hfind (by simpa [ShapeFits, hkind] using hne)]
      simp only [shapeError, hkind]
    · have herr := hbody (checkEntry_value hname hfind hfit hv hbefore hfail)
      rw [← hname]
      exact ⟨fun lo hi => exec_valueError_range herr hj16, fun ms => exec_valueError_enum herr hj16⟩
  · rw [exec_of_error (bodyOf_fieldEncode_error (fieldEncode_unknown hpass hmem hunknown hleast)) (by simp)]
    rfl
  · refine ⟨_, ?_, writeEntries_holds (Config.WF.schema hc) hm⟩
    rw [exec_fieldEncode_ok hm, State.complete_eq_succeeded]
    rfl

/-! ### Round trips (43_field_mapper R165, R171, R172) -/

/-- FIELD_ENCODE completes after a FIELD_DECODE that did, on the patch it gave. -/
theorem exec_fieldEncode_decoded {s t : State} (hc : s.cfg.WF) (h : exec .fieldDecode s = .next t)
    (hdone : t.done = true) :
    exec .fieldEncode t =
      .next (t.complete { unp := some (writeEntries s.cfg (decodedPatch s.cfg s.mem.unp)) }) := by
  obtain ⟨hS, rfl⟩ := exec_fieldDecode_done hc h hdone
  exact exec_fieldEncode_ok (s := s.complete _) (decodedPatch_ok (Config.WF.schema hc) hS)

/-- The values of an entry in the patch of its stream satisfy its constraint (43_field_mapper R165). -/
theorem holds_of_decodedPatch {c : Config} (hc : c.WF) {S : List Byte} (hS : StreamOk c S) {e : Entry} {k : Name}
    {pv : PValue} (he : e ∈ c.schema) (hname : e.name = some k) (hfind : Patch.find (decodedPatch c S) k = some pv) :
    e.kind ≠ .reserved ∧ ∀ v ∈ pv.ints, Constraint.Holds e.cons v := by
  obtain ⟨-, hnameOk, -⟩ := schemaWellFormed_entry (Config.WF.schema hc) he
  have hk : e.kind ≠ .reserved := (Entry.nameOk_iff.mp hnameOk).mp (by rw [hname, Option.isSome_some])
  obtain ⟨k', pv', hname', hfind', -, hholds⟩ := (decodedPatch_ok (Config.WF.schema hc) hS).1 e he hk
  obtain rfl : k = k' := Option.some.inj (hname.symm.trans hname')
  obtain rfl : pv = pv' := Option.some.inj (hfind.symm.trans hfind')
  exact ⟨hk, hholds⟩

/-- Settles O48: FIELD_DECODE checked each value, and a value its entry's constraint admits fits the width. -/
theorem decodedPatchEncodes : Obligations.DecodedPatchEncodes := by
  intro s t hc h hdone
  refine ⟨fun e k pv v he hname hfind hv => ?_, _, exec_fieldEncode_decoded hc h hdone, State.complete_done _ _⟩
  obtain ⟨hS, rfl⟩ := exec_fieldDecode_done hc h hdone
  obtain ⟨hk, hholds⟩ := holds_of_decodedPatch hc hS he hname hfind
  obtain ⟨hnonneg, hlt⟩ := Entry.holds_fits (schemaWellFormed_entry (Config.WF.schema hc) he).2.2 hk (hholds v hv)
  exact ⟨hholds v hv, hnonneg, (Int.toNat_lt hnonneg).mp hlt |>.trans_eq (by push_cast; rfl)⟩

/-- The stream written from a decoded patch is the one decoded exactly if that one has no reserved bits set. -/
theorem writeEntries_decodedPatch_iff {c : Config} (hc : c.WF) {S : List Byte} (hS : StreamOk c S) :
    writeEntries c (decodedPatch c S) = S ↔ ReservedZero c S := by
  have hm := decodedPatch_ok (Config.WF.schema hc) hS
  have hwritten := writeEntries_holds (Config.WF.schema hc) hm
  constructor
  · intro heq e he hk
    have hheld := (streamHolds_iff.mp hwritten).2 e he
    simpa only [EntryHolds, hk, heq] using hheld
  · intro hz
    exact StreamHolds_unique (Config.WF.schema hc) hm hwritten (StreamHolds_decodedPatch (Config.WF.schema hc) hS hz)

theorem StreamOk.reservedZero {c : Config} {S : List Byte} (hS : StreamOk c S) (hp : c.reservedPolicy = .check) :
    ReservedZero c S := by
  intro e he hk
  have hdec := hS.2 e he
  simp only [EntryDecodes, hk] at hdec
  exact hdec hp

/-- Settles O49: one stream holds a patch, and one canonical patch is held by a stream. -/
theorem mapperRoundTrips : Obligations.MapperRoundTrips := by
  constructor
  · intro s t hc h hdone
    obtain ⟨hS, -⟩ := exec_fieldDecode_done hc h hdone
    have hiff := writeEntries_decodedPatch_iff hc hS
    exact ⟨_, exec_fieldEncode_decoded hc h hdone, State.complete_done _ _, fun hp => hiff.mpr (hS.reservedZero hp),
      hiff⟩
  · intro s t hc hwf h hdone
    obtain ⟨hm, rfl⟩ := exec_fieldEncode_done h hdone
    have hheld := writeEntries_holds (Config.WF.schema hc) hm
    exact ⟨_, exec_fieldDecode_ok (s := s.complete _) hc (StreamOk_of_holds hm hheld), State.complete_done _ _,
      decodedPatch_of_holds (Config.WF.schema hc) hwf hm hheld⟩

theorem elemVal_zeros (n : Nat) (e : Entry) (k : Nat) : elemVal (zeros n) e k = 0 := getBits_zeros _ _ _

/-- An entry whose constraint admits 0 passes on the all-zero stream. -/
theorem EntryDecodes_zeros {c : Config} {n : Nat} {e : Entry} (h : Constraint.Holds e.cons 0) :
    EntryDecodes c (zeros n) e := by
  unfold EntryDecodes
  simp only [elemVal_zeros]
  cases e.kind with
  | reserved => exact fun _ => trivial
  | scalar => exact h
  | array => exact fun _ _ => h

/-- Settles O50: every element of the all-zero stream is 0, so the first entry to fail is the first whose
constraint 0 fails, at its element 0. -/
theorem allZeroStream : Obligations.AllZeroStream := by
  intro s hc hunp
  change s.mem.unp = zeros s.cfg.unpLen at hunp
  have hlen : s.mem.unp.length = s.cfg.unpLen := by rw [hunp, zeros_length]
  have hdecodes : ∀ {e}, Constraint.Holds e.cons 0 → EntryDecodes s.cfg s.mem.unp e :=
    fun h => hunp ▸ EntryDecodes_zeros h
  have hzero : ∀ e k, elemVal s.mem.unp e k = 0 := fun e k => hunp ▸ elemVal_zeros _ e k
  refine ⟨fun hholds0 => ?_, fun j e hj hfail hb => ?_⟩
  · have hS : StreamOk s.cfg s.mem.unp := ⟨hlen, fun e he => hdecodes (hholds0 e he)⟩
    have hdecode := exec_fieldDecode_ok hc hS
    refine ⟨_, _, hdecode, State.complete_done _ _, fun e k he hk hname => ?_, fun e k he hk hname => ?_,
      exec_fieldEncode_decoded hc hdecode (State.complete_done _ _), State.complete_done _ _, ?_⟩
    · rw [State.complete_patch, Option.getD_some, find_decodedPatch (Config.WF.schema hc) he hname, entryValue, hk]
      simp only [hzero, Nat.cast_zero]
    · rw [State.complete_patch, Option.getD_some, find_decodedPatch (Config.WF.schema hc) he hname, entryValue, hk]
      simp [hzero, List.map_const']
    · exact ((writeEntries_decodedPatch_iff hc hS).mpr fun e _ _ => hzero e 0).trans hunp
  · obtain ⟨hj16, he, hs⟩ := Config.WF.entry hc hj
    have hk : e.kind ≠ .reserved := fun hr => by
      rw [(Entry.kind_reserved_iff (schemaWellFormed_entry (Config.WF.schema hc) he).2.2).mp hr] at hfail
      exact hfail trivial
    have hentry := decodeEntry_value_error (c := s.cfg) (S := s.mem.unp) (j := j) (k := 0) hs hk (Entry.count_pos hs)
      (fun k' hk' => absurd hk' (Nat.not_lt_zero k')) (by rwa [hzero])
    have hbody := bodyOf_fieldDecode_error
      (fieldDecode_entry_error hlen hj (fun i e' hi he' => hdecodes (hb i e' hi he')) hentry)
    refine ⟨_, by rw [exec_eq_finish, hbody, State.finish_error], State.raise_err _ _, ?_, ?_⟩
    · rw [State.raise_code, valueError_code]
    · rw [State.raise_errIndex, valueError_index, valueError_elem, errIndexWord, Nat.zero_shiftLeft, Nat.zero_or]

end Sys2Proof.Machine
end

section
/-! PROOFS of the composite family (44_composite.md): the frames DECODE accepts and the patches ENCODE accepts, what
each gives, that each is the sequence of its units, and that each undoes the other. -/

namespace Sys2Proof.Machine

/-! ### One command after another -/

theorem exec_of_body_error {i : Instr} {s : State} {e : ErrorRecord} (h : bodyOf i s = .error e) :
    exec i s = .next (s.raise e) := by
  rw [exec_eq_finish, h, State.finish_error]

theorem exec_of_body_ok {i : Instr} {s : State} {u : Updates} (h : bodyOf i s = .ok u) :
    exec i s = .next (s.complete u) := by
  rw [exec_eq_finish, h, State.finish_ok]

/-- A command that raised did so with its body's error. -/
theorem exec_raised {i : Instr} {s t : State} (h : exec i s = .next t) (herr : t.err = true) :
    ∃ e, bodyOf i s = .error e ∧ t = s.raise e := by
  obtain hraised | ⟨u, -, rfl⟩ := exec_cases h
  · exact hraised
  · rw [State.complete_err] at herr
    cases herr

theorem sameErrorRecord_raise (s t : State) (e : ErrorRecord) : SameErrorRecord (s.raise e) (t.raise e) :=
  ⟨rfl, rfl, rfl, rfl, rfl, rfl⟩

theorem sameResults_raise (s : State) (e : ErrorRecord) : SameResults s (s.raise e) :=
  ⟨rfl, rfl, rfl, rfl, (State.raise_verifyOk s e).symm⟩

/-- The updates of two commands, the second of which completes after the first. -/
def Updates.andThen (u u' : Updates) : Updates where
  frame := u'.frame.or u.frame
  pkd := u'.pkd.or u.pkd
  unp := u'.unp.or u.unp
  ckValue := u'.ckValue.or u.ckValue
  ckByte := u'.ckByte.or u.ckByte
  verifyOk := u'.verifyOk.or u.verifyOk
  patch := u'.patch.or u.patch

theorem statusCompleted_statusCompleted (w : Word) (v v' : Option Bool) :
    statusCompleted (statusCompleted w v) v' = statusCompleted w (v'.or v) := by
  have hkept : statusVerifyOk (statusCompleted w v) = v.getD (statusVerifyOk w) := statusWord_verifyOk _ _ _
  cases v' with
  | none => exact congrArg (statusWord true false) hkept
  | some b => rfl

/-- Two commands that complete leave the success record once and the updates of both. -/
theorem State.complete_complete (s : State) (u u' : Updates) :
    (s.complete u).complete u' = s.complete (u.andThen u') := by
  have hckValue : ((u'.ckValue.map (BitVec.setWidth 32)).getD ((u.ckValue.map (BitVec.setWidth 32)).getD s.ckValue)) =
      ((u'.ckValue.or u.ckValue).map (BitVec.setWidth 32)).getD s.ckValue := by
    cases u'.ckValue <;> rfl
  have hckByte : ((u'.ckByte.map (BitVec.setWidth 32)).getD ((u.ckByte.map (BitVec.setWidth 32)).getD s.ckByte)) =
      ((u'.ckByte.or u.ckByte).map (BitVec.setWidth 32)).getD s.ckByte := by
    cases u'.ckByte <;> rfl
  simp only [State.complete, Updates.andThen, statusCompleted_statusCompleted, hckValue, hckByte, Option.getD_or]

/-! ### The frames DECODE accepts (44_composite R190) -/

/-- The checksum of the packed data part D (42_checksum R140, R141). -/
def dataChecksum (c : Config) (D : List Byte) : Nat := checksumOf c (domainOf c D (unpackStream c D))

/-- The frame of D and b passes every check of DECODE. -/
structure ValidFrame (c : Config) (D : List Byte) (b : Byte) : Prop extends ReachesComparison c D b where
  checksum : b.toNat = dataChecksum c D
  stream : StreamOk c (unpackStream c D)

/-- What DECODE of the frame of D and b writes when it completes. -/
def decodedUpdates (c : Config) (D : List Byte) (b : Byte) : Updates :=
  { pkd := some D, ckByte := some (b.setWidth 7), unp := some (unpackStream c D), ckValue := some (b.setWidth 7),
    verifyOk := some true, patch := some (decodedPatch c (unpackStream c D)) }

theorem toNat_setWidth_seven {b : Byte} (h : b.toNat ≤ 0x7F) : (b.setWidth 7).toNat = b.toNat := by
  rw [BitVec.toNat_setWidth, Nat.mod_eq_of_lt (by omega)]

section Frames
variable {c : Config} {D : List Byte} {b : Byte}

/-- Packed data unpacks to UNP_LEN bytes exactly if it has PKD_LEN (00_scope R6, 41_packer R127). -/
theorem unpackStream_length_eq_unpLen_iff (hD : PackedOk c D) :
    (unpackStream c D).length = c.unpLen ↔ D.length = c.pkdLen := by
  obtain ⟨hmod, -⟩ := hD
  rw [unpackStream_length hmod, Config.unpLen, Config.pkdLen, ← div_mul_of_mod hmod]
  rw [Nat.mul_div_cancel _ (gp_pos c), Nat.mul_left_inj (gl_pos c).ne', Nat.mul_left_inj (gp_pos c).ne']

theorem domainOf_length {U : List Byte} (hD : D.length = c.pkdLen) (hU : U.length = c.unpLen) :
    (domainOf c D U).length = c.ckBufLen := by
  unfold domainOf Config.ckBufLen
  cases c.ckDomain
  · exact hD
  · exact hU

theorem ReachesComparison.unpack_ok (h : ReachesComparison c D b) : unpack c D = .ok (unpackStream c D) :=
  unpack_ok_iff.mpr ⟨h.packed, rfl⟩

theorem ReachesComparison.ck_ok (h : ReachesComparison c D b) :
    ck c D (unpackStream c D) = .ok (BitVec.ofNat 7 (dataChecksum c D)) := by
  refine ck_ok_iff.mpr ⟨domainOf_length h.length ((unpackStream_length_eq_unpLen_iff h.packed).mpr h.length), ?_⟩
  rw [BitVec.toNat_ofNat]
  exact Nat.mod_eq_of_lt (checksumOf_lt _ _)

/-- Only 7-bit bytes stand between the markers of a frame that reaches the comparison (40_framer R100). -/
theorem ReachesComparison.frameOf_sevenBit (h : ReachesComparison c D b) {i : Nat} {x : Byte} (hi : 1 ≤ i)
    (hlt : i < (frameOf c D b).length - 1) (hx : (frameOf c D b)[i]? = some x) : x.toNat ≤ 0x7F := by
  obtain ⟨k, rfl⟩ := Nat.exists_eq_add_of_le hi
  rw [← interior_getElem? (by omega) (by omega), interior_frameOf] at hx
  obtain hmem | hmem := List.mem_append.mp (List.mem_of_getElem? hx)
  · exact (List.mem_append.mp hmem).elim (h.ident x) (h.packed.sevenBit x)
  · rw [List.mem_singleton.mp hmem]
    exact h.ckByte

/-- DECODE completes exactly on the valid frames. -/
theorem decodeFrame_ok_iff_validFrame (hc : c.WF) {F : List Byte} {u : Updates} :
    decodeFrame c F = .ok u ↔ ∃ D b, F = frameOf c D b ∧ ValidFrame c D b ∧ u = decodedUpdates c D b := by
  rw [decodeFrame_ok_iff]
  constructor
  · rintro ⟨D, C, U, m, hparse, hunpack, hck, hdecode, rfl⟩
    obtain ⟨b, rfl, rfl, hb, hlow⟩ := frameParse_ok_iff.mp hparse
    obtain ⟨hD, rfl⟩ := unpack_ok_iff.mp hunpack
    obtain ⟨-, hsum⟩ := ck_ok_iff.mp hck
    obtain ⟨hS, rfl⟩ := (fieldDecode_ok_iff (Config.WF.schema hc)).mp hdecode
    refine ⟨D, b, rfl, { ident := Config.WF.ident hc, packed := hD, ckByte := hb, stream := hS,
                         length := (unpackStream_length_eq_unpLen_iff hD).mp hS.1, checksum := ?_ }, rfl⟩
    rw [← toNat_setWidth_seven hb]
    exact hsum
  · rintro ⟨D, b, rfl, h, rfl⟩
    have hck : BitVec.ofNat 7 (dataChecksum c D) = b.setWidth 7 := by
      rw [← h.checksum, ← toNat_setWidth_seven h.ckByte, BitVec.ofNat_toNat, BitVec.setWidth_eq]
    exact ⟨D, b.setWidth 7, _, _, h.parse h.packed.sevenBit, h.unpack_ok, hck ▸ h.ck_ok,
      (fieldDecode_ok_iff (Config.WF.schema hc)).mpr ⟨h.stream, rfl⟩, rfl⟩

end Frames

theorem exec_decode_ok {s : State} {D : List Byte} {b : Byte} (hc : s.cfg.WF) (hF : s.mem.frame = frameOf s.cfg D b)
    (h : ValidFrame s.cfg D b) : exec .decode s = .next (s.complete (decodedUpdates s.cfg D b)) :=
  exec_of_body_ok (i := .decode) ((decodeFrame_ok_iff_validFrame hc).mpr ⟨D, b, hF, h, rfl⟩)

/-- The frame a completed DECODE read, and all it wrote. -/
theorem exec_decode_done {s t : State} (hc : s.cfg.WF) (h : exec .decode s = .next t) (hdone : t.done = true) :
    ∃ D b, s.mem.frame = frameOf s.cfg D b ∧ ValidFrame s.cfg D b ∧ t = s.complete (decodedUpdates s.cfg D b) := by
  obtain ⟨u, hu, rfl⟩ := exec_done h hdone
  obtain ⟨D, b, hF, hvalid, rfl⟩ := (decodeFrame_ok_iff_validFrame hc).mp hu
  exact ⟨D, b, hF, hvalid, rfl⟩

/-- Settles O51: such a frame is valid, and what DECODE then writes is its data, its stream, its checksum and its
patch. -/
theorem decodeCompletesOnValidFrames : Obligations.DecodeCompletesOnValidFrames := by
  rintro s D _ C hc hF hD hlen rfl hS hsum
  have hC : C.toNat ≤ 0x7F := by
    have hlt := checksumOf_lt s.cfg (domainOf s.cfg D (unpackStream s.cfg D))
    omega
  rw [exec_decode_ok hc hF { ident := Config.WF.ident hc, packed := hD, length := hlen, ckByte := hC, checksum := hsum,
                             stream := hS }, State.complete_eq_succeeded, ← setWidth_ckByte hC]
  rfl

/-- Settles O52: the frame reaches the comparison, where the two 7-bit numbers differ. -/
theorem decodeReportsChecksumMismatch : Obligations.DecodeReportsChecksumMismatch := by
  intro s D C hc hF hD hlen hC hne
  have hreach : ReachesComparison s.cfg D C := ⟨Config.WF.ident hc, hD, hlen, hC⟩
  have hv : (BitVec.ofNat 7 (dataChecksum s.cfg D)).toNat = dataChecksum s.cfg D := by
    rw [BitVec.toNat_ofNat]
    exact Nat.mod_eq_of_lt (checksumOf_lt _ _)
  have hvC : BitVec.ofNat 7 (dataChecksum s.cfg D) ≠ C.setWidth 7 := by
    rw [ne_eq, ← BitVec.toNat_inj, hv, toNat_setWidth_seven hC]
    exact hne.symm
  have hbody := decodeFrame_of_mismatch (hF ▸ hreach.parse hD.sevenBit) hreach.unpack_ok hreach.ck_ok hvC
  rw [exec_of_error (i := .decode) hbody (by simp), hv, toNat_setWidth_seven hC]
  rfl

/-! ### DECODE and its units (44_composite R191) -/

/-- After a FRAME_PARSE that gave the data part D and the checksum byte C. -/
def State.parsed (s : State) (D : List Byte) (C : Ck) : State := s.complete { pkd := some D, ckByte := some C }

/-- After an UNPACK of that data that gave the stream U. -/
def State.unpacked (s : State) (D : List Byte) (C : Ck) (U : List Byte) : State :=
  (s.parsed D C).complete { unp := some U }

/-- After a CK_VERIFY of that stream that computed the checksum v. -/
def State.verified (s : State) (D : List Byte) (C : Ck) (U : List Byte) (v : Ck) : State :=
  (s.unpacked D C U).complete { ckValue := some v, verifyOk := some (decide (v = C)) }

section Units
variable {s : State} {D U : List Byte} {C v : Ck} {e : ErrorRecord}

theorem exec_frameParse_ok (h : frameParse s.cfg s.mem.frame = .ok (D, C)) :
    exec .frameParse s = .next (s.parsed D C) :=
  exec_of_body_ok (i := .frameParse) (Result.map_ok_iff.mpr ⟨_, h, rfl⟩)

theorem exec_unpack_parsed (h : unpack s.cfg D = .ok U) : exec .unpack (s.parsed D C) = .next (s.unpacked D C U) :=
  exec_of_body_ok (i := .unpack) (Result.map_ok_iff.mpr ⟨_, h, rfl⟩)

/-- CK_VERIFY compares with the checksum byte FRAME_PARSE left in CK_BYTE. -/
theorem exec_ckVerify_unpacked (h : ck s.cfg D U = .ok v) :
    exec .ckVerify (s.unpacked D C U) = .next (s.verified D C U v) := by
  have hparsed : (s.parsed D C).ckByteField = C := ckByteField_complete rfl
  have hfield : (s.unpacked D C U).ckByteField = C := hparsed
  refine exec_of_body_ok (i := .ckVerify) (Result.map_ok_iff.mpr ⟨v, h, ?_⟩)
  rw [hfield]

theorem verified_verifyOk : (s.verified D C U v).verifyOk = decide (v = C) := State.complete_verifyOk _ _

/-- The four units that complete with equal checksums end where DECODE does. -/
theorem exec_fieldDecode_verified {m : Patch} (h : fieldDecode s.cfg U = .ok m) :
    exec .fieldDecode (s.verified D C U C) = .next (s.complete
      { pkd := some D, ckByte := some C, unp := some U, ckValue := some C, verifyOk := some true,
        patch := some m }) := by
  have hbody : bodyOf .fieldDecode (s.verified D C U C) = .ok { patch := some m } :=
    Result.map_ok_iff.mpr ⟨m, h, rfl⟩
  rw [exec_of_body_ok hbody]
  simp only [State.verified, State.unpacked, State.parsed, State.complete_complete, decide_true]
  rfl

end Units

/-- Settles O53: each unit of the sequence runs the body DECODE runs on the values of the units before it. -/
theorem decodeIsItsUnitSequence : Obligations.DecodeIsItsUnitSequence := by
  refine fun s t h => ⟨fun hdone => ?_, fun herr => ?_⟩
  · obtain ⟨u, hu, rfl⟩ := exec_done h hdone
    obtain ⟨D, C, U, m, hparse, hunpack, hck, hdecode, rfl⟩ := decodeFrame_ok_iff.mp hu
    exact ⟨_, _, _, exec_frameParse_ok hparse, State.complete_done _ _, exec_unpack_parsed hunpack,
      State.complete_done _ _, exec_ckVerify_unpacked hck, State.complete_done _ _,
      verified_verifyOk.trans (decide_eq_true rfl), exec_fieldDecode_verified hdecode⟩
  · obtain ⟨e, he, rfl⟩ := exec_raised h herr
    refine ⟨sameResults_raise s e, ?_⟩
    obtain hparse | ⟨D, C, hparse, hrest⟩ := decodeFrame_error he
    · exact ⟨_, exec_of_body_error (bodyOf_frameParse_error hparse),
        .inl ⟨State.raise_err _ _, sameErrorRecord_raise _ _ _⟩⟩
    refine ⟨_, exec_frameParse_ok hparse, .inr ⟨State.complete_done _ _, ?_⟩⟩
    obtain hunpack | ⟨U, hunpack, hrest⟩ := hrest
    · exact ⟨_, exec_of_body_error (i := .unpack) (Result.map_error_iff.mpr hunpack),
        .inl ⟨State.raise_err _ _, sameErrorRecord_raise _ _ _, sameResults_raise _ _⟩⟩
    refine ⟨_, exec_unpack_parsed hunpack, .inr ⟨State.complete_done _ _, ?_⟩⟩
    obtain hck | ⟨v, hck, hrest⟩ := hrest
    · exact ⟨_, exec_of_body_error (i := .ckVerify) (Result.map_error_iff.mpr hck), rfl, rfl,
        .inl ⟨State.raise_err _ _, sameErrorRecord_raise _ _ _⟩⟩
    refine ⟨_, exec_ckVerify_unpacked hck, rfl, rfl, .inr ?_⟩
    obtain ⟨hne, rfl⟩ | ⟨rfl, hdecode⟩ := hrest
    · exact .inl ⟨State.complete_done _ _, verified_verifyOk.trans (decide_eq_false hne), State.raise_code _ _⟩
    · exact .inr ⟨State.complete_done _ _, verified_verifyOk.trans (decide_eq_true rfl), _,
        exec_of_body_error (bodyOf_fieldDecode_error hdecode), State.raise_err _ _, sameErrorRecord_raise _ _ _,
        sameResults_raise _ _⟩

/-! ### The frame ENCODE writes (44_composite R192) -/

/-- The packed data part of the patch m. -/
def encodedData (c : Config) (m : Patch) : List Byte := packStream c (writeEntries c m)

/-- The checksum of the patch m. -/
def encodedCk (c : Config) (m : Patch) : Ck :=
  BitVec.ofNat 7 (checksumOf c (domainOf c (encodedData c m) (writeEntries c m)))

/-- The frame of the patch m. -/
def encodedFrame (c : Config) (m : Patch) : List Byte := frameOf c (encodedData c m) ((encodedCk c m).setWidth 8)

/-- What ENCODE of the patch m writes when it completes. -/
def encodedUpdates (c : Config) (m : Patch) : Updates :=
  { unp := some (writeEntries c m), pkd := some (encodedData c m), ckValue := some (encodedCk c m),
    ckByte := some (encodedCk c m), frame := some (encodedFrame c m) }

section Patches
variable {c : Config} {m : Patch}

theorem encodedCk_toNat (c : Config) (m : Patch) :
    (encodedCk c m).toNat = checksumOf c (domainOf c (encodedData c m) (writeEntries c m)) := by
  rw [encodedCk, BitVec.toNat_ofNat]
  exact Nat.mod_eq_of_lt (checksumOf_lt _ _)

theorem encodedCk_setWidth_toNat (c : Config) (m : Patch) :
    ((encodedCk c m).setWidth 8).toNat = (encodedCk c m).toNat := by
  rw [BitVec.toNat_setWidth]
  exact Nat.mod_eq_of_lt (by omega)

/-- The stream of a patch that passes the checks is N_GROUPS groups. -/
theorem writeEntries_length (hm : PatchOk c m) : (writeEntries c m).length = c.unpLen :=
  fieldEncode_length (fieldEncode_ok_iff.mpr ⟨hm, rfl⟩)

theorem writeEntries_groups (hm : PatchOk c m) : (writeEntries c m).length % c.gl = 0 := by
  rw [writeEntries_length hm]
  exact Nat.mul_mod_left _ _

theorem unpackStream_encodedData (hm : PatchOk c m) : unpackStream c (encodedData c m) = writeEntries c m :=
  unpackStream_packStream (writeEntries_groups hm)

theorem encodedData_length (hm : PatchOk c m) : (encodedData c m).length = c.pkdLen := by
  refine (unpackStream_length_eq_unpLen_iff (packStream_packedOk (writeEntries_groups hm))).mp ?_
  rw [← encodedData, unpackStream_encodedData hm, writeEntries_length hm]

/-- DECODE accepts the frame of a patch that passes the checks. -/
theorem validFrame_encoded (hc : c.WF) (hm : PatchOk c m) :
    ValidFrame c (encodedData c m) ((encodedCk c m).setWidth 8) where
  ident := Config.WF.ident hc
  packed := packStream_packedOk (writeEntries_groups hm)
  length := encodedData_length hm
  ckByte := by rw [encodedCk_setWidth_toNat]; omega
  checksum := by rw [encodedCk_setWidth_toNat, encodedCk_toNat, dataChecksum, unpackStream_encodedData hm]
  stream := by
    rw [unpackStream_encodedData hm]
    exact StreamOk_of_holds hm (writeEntries_holds (Config.WF.schema hc) hm)

/-- ENCODE completes exactly on the patches that pass the mapper's checks. -/
theorem encodePatch_ok_iff_patchOk (hc : c.WF) {u : Updates} :
    encodePatch c m = .ok u ↔ PatchOk c m ∧ u = encodedUpdates c m := by
  rw [encodePatch_ok_iff hc]
  constructor
  · rintro ⟨U, v, hencode, hck, rfl⟩
    obtain ⟨hm, rfl⟩ := fieldEncode_ok_iff.mp hencode
    obtain ⟨-, hv⟩ := ck_ok_iff.mp hck
    obtain rfl : v = encodedCk c m := BitVec.eq_of_toNat_eq (hv.trans (encodedCk_toNat c m).symm)
    exact ⟨hm, rfl⟩
  · rintro ⟨hm, rfl⟩
    exact ⟨_, encodedCk c m, fieldEncode_ok_iff.mpr ⟨hm, rfl⟩, ck_ok_iff.mpr
      ⟨domainOf_length (encodedData_length hm) (writeEntries_length hm), encodedCk_toNat c m⟩, rfl⟩

end Patches

theorem exec_encode_ok {s : State} (hc : s.cfg.WF) (hm : PatchOk s.cfg s.patch) :
    exec .encode s = .next (s.complete (encodedUpdates s.cfg s.patch)) :=
  exec_of_body_ok (i := .encode) ((encodePatch_ok_iff_patchOk hc).mpr ⟨hm, rfl⟩)

/-- What a completed ENCODE says of its patch, and all it wrote. -/
theorem exec_encode_done {s t : State} (hc : s.cfg.WF) (h : exec .encode s = .next t) (hdone : t.done = true) :
    PatchOk s.cfg s.patch ∧ t = s.complete (encodedUpdates s.cfg s.patch) := by
  obtain ⟨u, hu, rfl⟩ := exec_done h hdone
  obtain ⟨hm, rfl⟩ := (encodePatch_ok_iff_patchOk hc).mp hu
  exact ⟨hm, rfl⟩

/-- Settles O55: the patch's frame is one DECODE accepts, so it has the fixed length and a 7-bit interior. -/
theorem encodeCompletesOnValidPatches : Obligations.EncodeCompletesOnValidPatches := by
  intro s hc hm
  have hvalid := validFrame_encoded hc hm
  have hlen : (encodedFrame s.cfg s.patch).length = s.cfg.frameLenFixed := by
    rw [encodedFrame, frameOf_length, encodedData_length hm, Config.frameLenFixed]
  have hck : (encodedCk s.cfg s.patch).setWidth 32 =
      BitVec.ofNat 32 (checksumOf s.cfg (domainOf s.cfg (encodedData s.cfg s.patch) (writeEntries s.cfg s.patch))) := by
    rw [setWidth_ck, encodedCk_toNat]
  have hbyte : (encodedCk s.cfg s.patch).setWidth 8 =
      BitVec.ofNat 8 ((encodedCk s.cfg s.patch).setWidth 32).toNat := by
    rw [BitVec.ofNat_toNat, BitVec.setWidth_setWidth_of_le _ (by decide)]
  refine ⟨_, exec_encode_ok hc hm, State.complete_done _ _, writeEntries_holds (Config.WF.schema hc) hm,
    encodedData_length hm, hck, rfl, congrArg (frameOf s.cfg _) hbyte, hlen, fun i b hi hlt hb => ?_⟩
  rw [← hlen] at hlt
  exact hvalid.frameOf_sevenBit hi hlt hb

/-! ### ENCODE and its units (44_composite R192, R193) -/

/-- After a FIELD_ENCODE of the patch of `s`. -/
def State.encoded (s : State) : State := s.complete { unp := some (writeEntries s.cfg s.patch) }

/-- After a PACK of its stream. -/
def State.packed (s : State) : State := s.encoded.complete { pkd := some (encodedData s.cfg s.patch) }

/-- After a CK_APPEND of its checksum. -/
def State.appended (s : State) : State :=
  s.packed.complete { ckValue := some (encodedCk s.cfg s.patch), ckByte := some (encodedCk s.cfg s.patch) }

section Units
variable {s : State}

theorem exec_pack_encoded (hc : s.cfg.WF) (hm : PatchOk s.cfg s.patch) : exec .pack s.encoded = .next s.packed := by
  obtain ⟨hmod, hmax⟩ := packable_of_unpLen hc (writeEntries_length hm)
  exact exec_pack_ok (s := s.encoded) hmod hmax

theorem exec_ckAppend_packed (hm : PatchOk s.cfg s.patch) : exec .ckAppend s.packed = .next s.appended :=
  exec_ck_ok (s := s.packed) (f := fun v => { ckValue := some v, ckByte := some v }) rfl
    (domainOf_length (encodedData_length hm) (writeEntries_length hm))

/-- The four units that complete end where ENCODE does. -/
theorem exec_frameBuild_appended (hm : PatchOk s.cfg s.patch) :
    exec .frameBuild s.appended = .next (s.complete (encodedUpdates s.cfg s.patch)) := by
  have hfield : s.appended.ckByteField = encodedCk s.cfg s.patch := ckByteField_complete rfl
  have hbody : bodyOf .frameBuild s.appended = .ok { frame := some (encodedFrame s.cfg s.patch) } :=
    Result.map_ok_iff.mpr ⟨_, frameBuild_ok_iff.mpr ⟨encodedData_length hm, hfield ▸ rfl⟩, rfl⟩
  rw [exec_of_body_ok hbody]
  simp only [State.appended, State.packed, State.encoded, State.complete_complete]
  rfl

end Units

/-- Settles O54: PACK, CK_APPEND and FRAME_BUILD complete on what a completed FIELD_ENCODE wrote, and their updates
together are ENCODE's. -/
theorem encodeIsItsUnitSequence : Obligations.EncodeIsItsUnitSequence := by
  refine fun s a hc h => ⟨fun herr => ?_, fun hdone => ?_⟩
  · obtain ⟨e, he, rfl⟩ := exec_raised h herr
    exact exec_of_body_error (i := .encode) ((encodePatch_error_iff hc).mpr (Result.map_error_iff.mp he))
  · obtain ⟨hm, rfl⟩ := exec_fieldEncode_done h hdone
    exact ⟨writeEntries_length hm, s.packed, s.appended, _, exec_pack_encoded hc hm, State.complete_done _ _,
      encodedData_length hm, exec_ckAppend_packed hm, State.complete_done _ _, exec_frameBuild_appended hm,
      State.complete_done _ _, exec_encode_ok hc hm⟩

/-! ### Round trips (44_composite R194, R195) -/

theorem frameOf_inj {c : Config} {D D' : List Byte} {b b' : Byte} (h : frameOf c D b = frameOf c D' b') :
    D = D' ∧ b = b' := by
  have hpayload : D ++ [b] = D' ++ [b'] := by
    have hinterior := congrArg interior h
    rw [interior_frameOf, interior_frameOf, List.append_assoc, List.append_assoc] at hinterior
    exact List.append_cancel_left hinterior
  simpa using List.append_inj' hpayload rfl

/-- The frame of the patch of a valid frame is that frame exactly if the stream has no reserved bits set. -/
theorem encodedFrame_decodedPatch_iff {c : Config} (hc : c.WF) {D : List Byte} {b : Byte} (h : ValidFrame c D b) :
    encodedFrame c (decodedPatch c (unpackStream c D)) = frameOf c D b ↔ ReservedZero c (unpackStream c D) := by
  rw [← writeEntries_decodedPatch_iff hc h.stream]
  have hm := decodedPatch_ok (Config.WF.schema hc) h.stream
  constructor
  · intro hframe
    obtain ⟨hD, -⟩ := frameOf_inj hframe
    rw [← unpackStream_encodedData hm, hD]
  · intro hstream
    have hD : encodedData c (decodedPatch c (unpackStream c D)) = D := by
      rw [encodedData, hstream, packStream_unpackStream h.packed]
    have hb : (encodedCk c (decodedPatch c (unpackStream c D))).setWidth 8 = b := by
      apply BitVec.eq_of_toNat_eq
      rw [encodedCk_setWidth_toNat, encodedCk_toNat, hD, hstream, h.checksum, dataChecksum]
    rw [encodedFrame, hD, hb]

/-- Settles O56: the data part, and with it the frame, comes back exactly if the stream does. -/
theorem frameRoundTripIsByteExact : Obligations.FrameRoundTripIsByteExact := by
  intro s t hc h hdone
  obtain ⟨D, b, hF, hvalid, rfl⟩ := exec_decode_done hc h hdone
  have hm := decodedPatch_ok (Config.WF.schema hc) hvalid.stream
  have hiff : encodedFrame s.cfg (decodedPatch s.cfg (unpackStream s.cfg D)) = s.mem.frame ↔
      ReservedZero s.cfg (unpackStream s.cfg D) := hF ▸ encodedFrame_decodedPatch_iff hc hvalid
  exact ⟨_, exec_encode_ok (s := s.complete _) hc hm, State.complete_done _ _,
    fun hp => hiff.mpr (hvalid.stream.reservedZero hp), hiff⟩

/-- Settles O57: the frame ENCODE wrote is valid, and its stream holds the patch. -/
theorem patchRoundTrip : Obligations.PatchRoundTrip := by
  intro s t hc hwf h hdone
  obtain ⟨hm, rfl⟩ := exec_encode_done hc h hdone
  have hpatch : decodedPatch s.cfg (unpackStream s.cfg (encodedData s.cfg s.patch)) = s.patch := by
    rw [unpackStream_encodedData hm]
    exact decodedPatch_of_holds (Config.WF.schema hc) hwf hm (writeEntries_holds (Config.WF.schema hc) hm)
  exact ⟨_, exec_decode_ok (s := s.complete _) hc rfl (validFrame_encoded hc hm), State.complete_done _ _, hpatch⟩

end Sys2Proof.Machine
end

section
/-! PROOFS of the exceptions family (60_exceptions.md): what recording an error and completing a command write, the
CODEs of each command, what changes STATUS, and a command tried again after its error. -/

namespace Sys2Proof.Machine

/-! ### What an error writes (60_exceptions R204) -/

/-- ELEM stands in bits 31:16 of ERR_INDEX and INDEX in bits 15:0 (10_state R28, 60_exceptions R204). -/
theorem errIndexWord_toNat {elem index : Nat} (he : elem ≤ 0xFFFF) (hi : index ≤ 0xFFFF) :
    (errIndexWord elem index).toNat = elem * 2 ^ 16 + index := by
  unfold errIndexWord
  rw [← Nat.shiftLeft_add_eq_or_of_lt (by omega), Nat.shiftLeft_eq, BitVec.toNat_ofNat]
  omega

/-- Settles O18: each error register holds its number, and every other field is the old one. -/
theorem errorRecordingWritesItsRecord : Obligations.ErrorRecordingWritesItsRecord := by
  intro s e hindex helem hoffset hexpected hactual
  have hcode : (errCodeWord e.kind).toNat = e.kind.sub * 2 ^ 8 + e.kind.code := by
    rw [errCodeWord_toNat, Nat.mul_comm]
  have hword : ∀ {n : Nat}, n < 2 ^ 32 → (BitVec.ofNat 32 n).toNat = n :=
    fun hn => (BitVec.toNat_ofNat _ _).trans (Nat.mod_eq_of_lt hn)
  exact ⟨State.finish_error s e, State.raise_done s e, State.raise_err s e, State.raise_verifyOk s e, hcode,
    errIndexWord_toNat helem hindex, hword hoffset, hword hexpected, hword hactual, rfl, fun _ _ => rfl, rfl, rfl, rfl,
    rfl, rfl, rfl⟩

/-! ### What completion writes (60_exceptions R205) -/

/-- CK_VALUE or CK_BYTE after a command that lists a seven-bit value for it holds that value. -/
theorem updated_ck_toNat {o : Option Ck} {w : Word} {v : Ck} (h : o = some v) :
    ((o.map (BitVec.setWidth 32)).getD w).toNat = v.toNat := by
  subst h
  exact BitVec.toNat_setWidth_of_le (by decide)

/-- CK_VALUE or CK_BYTE after a command that does not list it is the old one. -/
theorem updated_ck_of_none {o : Option Ck} {w : Word} (h : o = none) :
    (o.map (BitVec.setWidth 32)).getD w = w := by
  subst h
  rfl

/-- Settles O19: a raise keeps the results, and each field of a completion is its listed update or the old one. -/
theorem completionWritesItsRecord : Obligations.CompletionWritesItsRecord := by
  refine ⟨fun s e t h => ?_, fun s u => ?_⟩
  · cases h
    exact sameResults_raise s e
  · exact ⟨State.finish_ok s u, State.complete_done s u, State.complete_err s u, State.complete_verifyOk s u,
      ⟨rfl, rfl, rfl, rfl, rfl, rfl⟩, fun _ => rfl, fun _ => rfl, fun _ => rfl, rfl, fun _ => updated_ck_toNat,
      updated_ck_of_none, fun _ => updated_ck_toNat, updated_ck_of_none, rfl, rfl, rfl⟩

/-! ### The CODEs of each command (60_exceptions R200) -/

/-- The CODE of a command that raised is one of its row. -/
theorem exec_raised_code {i : Instr} {s t : State} (hc : s.cfg.WF) (h : exec i s = .next t) (herr : t.err = true) :
    t.code ∈ errorCodes i := by
  obtain ⟨e, he, rfl⟩ := exec_raised h herr
  rw [State.raise_code]
  exact (bodyOf_error_hasCode hc he).1

/-- Settles O21: the rows the statement writes out are the lists of `errorCodes`. -/
theorem errorKindsOfEachCommand : Obligations.ErrorKindsOfEachCommand := by
  intro i s t hc h herr
  have hcode := exec_raised_code hc h herr
  cases i <;> simpa [errorCodes] using hcode

/-! ### What changes STATUS (60_exceptions R208) -/

/-- Settles O23: an idle step changes nothing, and of the host's actions only a CMD write and Reset change the record. -/
theorem onlyCommandsAndResetChangeStatus : Obligations.OnlyCommandsAndResetChangeStatus := by
  intro s t h hne
  obtain ⟨-, ⟨-, rfl⟩ | ⟨a, rest, hp, ha⟩⟩ := step_cases h
  · exact absurd ⟨rfl, rfl, rfl, rfl, rfl, rfl, rfl⟩ hne
  refine ⟨rest, ?_⟩
  obtain hsame | rfl | ⟨w, rfl⟩ := hostAct_status ha
  · exact absurd hsame hne
  · exact .inl hp
  · exact .inr ⟨w, hp⟩

/-- Settles O13: with no action left the step is the state itself. -/
theorem idleStepHoldsState : Obligations.IdleStepHoldsState := by
  intro s hc hp
  show stepBody s = _
  unfold stepBody
  rw [if_pos hc, hp]

/-! ### A command tried again (60_exceptions R207) -/

theorem statusRaised_statusRaised (w : Word) : statusRaised (statusRaised w) = statusRaised w :=
  congrArg (statusWord false true) (statusWord_verifyOk _ _ _)

/-- Recording the same error a second time changes nothing. -/
theorem State.raise_raise (s : State) (e : ErrorRecord) : (s.raise e).raise e = s.raise e := by
  simp only [State.raise, statusRaised_statusRaised]

/-- Settles O25: an error leaves every operand of the command, so its body gives the same error again. -/
theorem retryAfterErrorGivesSameError : Obligations.RetryAfterErrorGivesSameError := by
  intro i s t h herr
  obtain ⟨e, he, rfl⟩ := exec_raised h herr
  have hbody : bodyOf i (s.raise e) = .error e := (bodyOf_congr i rfl rfl rfl rfl).trans he
  rw [exec_of_body_error hbody, State.raise_raise]

end Sys2Proof.Machine
end

section
/-! PROOFS of the reset family (70_reset_and_hazards.md): the reset state, what every step keeps of the run and the
configuration, that a run of actions not refused ends, and what each command does right after reset. -/

namespace Sys2Proof.Machine

/-! ### The reset state (70_reset R230) -/

theorem State.resetWith_hasResetValues (c : Config) : (State.resetWith c).HasResetValues :=
  ⟨rfl, rfl, fun x => by cases x <;> rfl, rfl⟩

/-- The values of 70_reset R230 do not depend on the host's actions still to come (log 14). -/
theorem resetAction_hasResetValues (s : State) : (resetAction s).HasResetValues :=
  State.resetWith_hasResetValues s.cfg

/-- Settles O9: the Reset action and power-on both give the values of `State.resetWith`. -/
theorem resetGivesResetState : Obligations.ResetGivesResetState :=
  ⟨fun _ _ hc hp => ⟨_, step_of_pending hc hp, resetAction_hasResetValues _, rfl, rfl⟩,
    fun c => ⟨State.resetWith_hasResetValues c, rfl⟩⟩

/-- Settles O14: the reset state of every configuration has the invariant, that of REF among them. -/
theorem resetStateHasInvariant : Obligations.ResetStateHasInvariant :=
  ⟨State.resetWith_inv Config.ref, State.resetWith_inv⟩

/-! ### What every step keeps (70_reset R232) -/

theorem step_pending {s t : State} (h : step s = .next t) : t.pending = s.pending.tail := by
  obtain ⟨-, ⟨hp, rfl⟩ | ⟨a, rest, hp, ha⟩⟩ := step_cases h
  · simp [hp]
  · simp [hp, (hostAct_cfg_pending ha).2]

/-- Settles O16: an idle step keeps the state, and a host action leaves the configuration and the rest of the run. -/
theorem stepKeepsConfiguration : Obligations.StepKeepsConfiguration :=
  fun _ _ h => ⟨step_cfg h, step_pending h⟩

/-! ### Runs end (70_reset R241) -/

/-- An action that 20_memory R55 does not refuse, under a configuration. -/
def HostAction.Admissible (c : Config) (a : HostAction) : Prop :=
  (∀ x l, a = .writeBuf x l → l.length ≤ c.bufMax ∧ ∀ v ∈ l, 0 ≤ v ∧ v ≤ 255) ∧
    (∀ n, a = .regRead n → n < 16) ∧ (∀ n v, a = .regWrite n v → n < 16)

theorem bytesOf_isSome {l : List Int} (h : ∀ v ∈ l, 0 ≤ v ∧ v ≤ 255) : ∃ bs, bytesOf l = some bs := by
  refine Option.ne_none_iff_exists'.mp fun hnone => ?_
  obtain ⟨v, hv, hout⟩ := bytesOf_none.mp hnone
  have := h v hv
  omega

/-- A CMD write always ends in a next state: an illegal word and a command's error are recorded (60_exceptions R204). -/
theorem runCommand_next (w : Word) (s : State) : ∃ t, runCommand w s = .next t := by
  cases hw : decode w with
  | none => exact ⟨_, runCommand_of_illegal hw s⟩
  | some i =>
    rw [runCommand_of_decode hw, exec_eq_finish]
    exact State.finish_next _ _

theorem regWrite_next {n : Nat} (hn : n < 16) (v : Word) (s : State) : ∃ t, regWrite n v s = .next t := by
  unfold regWrite
  rw [if_neg (by omega)]
  split
  · exact runCommand_next v s
  · exact ⟨_, rfl⟩

/-- An admissible action has a next state, whatever the state it is applied to. -/
theorem hostAct_next {a : HostAction} {s : State} (h : a.Admissible s.cfg) : ∃ t, hostAct a s = .next t := by
  obtain ⟨hbuf, hread, hwrite⟩ := h
  cases a with
  | writeBuf x l =>
    obtain ⟨hlen, hbytes⟩ := hbuf x l rfl
    obtain ⟨bs, hbs⟩ := bytesOf_isSome hbytes
    exact ⟨_, writeBuf_of_bytes hlen hbs⟩
  | readBuf x => exact ⟨_, rfl⟩
  | writePatch m => exact ⟨_, rfl⟩
  | readPatch => exact ⟨_, rfl⟩
  | readErrName => exact ⟨_, rfl⟩
  | regRead n => exact ⟨_, regRead_of_lt (hread n rfl) s⟩
  | regWrite n v => exact regWrite_next (hwrite n v rfl) v s
  | reset => exact ⟨_, rfl⟩

theorem run_succ_of_next {M : Host.Core} {k : Nat} {s t : M.State} (h : M.step s = .next t) :
    M.run (k + 1) s = M.run k t := by
  rw [Host.Core.run, h]

/-- The host's run of as many steps as there are actions ends, by induction on the actions. -/
theorem run_pending_next {as : List HostAction} {s : State} (hc : s.cfg.WF) (hp : s.pending = as)
    (h : ∀ a ∈ as, a.Admissible s.cfg) : ∃ t, Host.Core.run Sys2Proof.core as.length s = .next t := by
  induction as generalizing s with
  | nil => exact ⟨s, rfl⟩
  | cons a as ih =>
    obtain ⟨ha, has⟩ := List.forall_mem_cons.mp h
    obtain ⟨t, ht⟩ := hostAct_next (s := { s with pending := as, answer := .nothing }) ha
    have hstep : step s = .next t := (step_of_pending hc hp).trans ht
    have hcfg : t.cfg = s.cfg := step_cfg hstep
    obtain ⟨u, hu⟩ := ih (hcfg ▸ hc) (by rw [step_pending hstep, hp, List.tail_cons]) (hcfg ▸ has)
    exact ⟨u, (run_succ_of_next (M := Sys2Proof.core) hstep).trans hu⟩

/-- Settles O17: every admissible action has a next state of the same configuration, so the run goes on to its end. -/
theorem runEndsUnlessAnActionIsRefused : Obligations.RunEndsUnlessAnActionIsRefused := by
  intro s as hc h
  obtain ⟨t, ht⟩ := run_pending_next (s := { s with pending := as }) hc rfl h
  unfold SafeRun runActions
  rw [ht]
  rfl

/-! ### Every command from the reset state (70_reset R233) -/

/-- A well-formed configuration has a group, so its buffers' lengths are not 0 (00_scope R6, R7 condition 2). -/
theorem Config.WF.lengths_pos {c : Config} (hc : c.WF) : 0 < c.pkdLen ∧ 0 < c.unpLen ∧ 0 < c.ckBufLen := by
  obtain ⟨-, -, hgroups, -⟩ := Config.wf_iff.mp hc
  have hpkd : 0 < c.pkdLen := Nat.mul_pos hgroups (gp_pos c)
  have hunp : 0 < c.unpLen := Nat.mul_pos hgroups (gl_pos c)
  refine ⟨hpkd, hunp, ?_⟩
  unfold Config.ckBufLen
  cases c.ckDomain with
  | packed => exact hpkd
  | unpacked => exact hunp

theorem State.resetWith_domain (c : Config) : (State.resetWith c).domain = [] := by
  unfold State.domain domainOf
  cases (State.resetWith c).cfg.ckDomain <;> rfl

theorem State.resetWith_verifyOk (c : Config) : (State.resetWith c).verifyOk = false := BitVec.getLsbD_zero

theorem unpackStream_nil (c : Config) : unpackStream c [] = [] := by simp [unpackStream, groupsOf]

theorem packStream_nil (c : Config) : packStream c [] = [] := by simp [packStream, groupsOf]

theorem packedOk_nil (c : Config) : PackedOk c [] := by
  refine ⟨Nat.zero_mod _, ?_⟩
  cases c.packScheme <;> simp

section FromReset
variable {c : Config}

theorem frameParse_nil : frameParse c [] = .error (formatError .shortFrame 0 c.minFrameLen 0) :=
  frameParse_shortFrame (Nat.succ_pos _)

theorem exec_unpack_reset : exec .unpack (State.resetWith c) = .next ((State.resetWith c).succeeded false) := by
  rw [exec_unpack_ok (packedOk_nil c), State.complete_eq_succeeded, State.resetWith_mem, unpackStream_nil,
    ← State.resetWith_verifyOk c]
  rfl

theorem exec_pack_reset : exec .pack (State.resetWith c) = .next ((State.resetWith c).succeeded false) := by
  rw [exec_pack_ok (by simp) (by simp), State.complete_eq_succeeded, State.resetWith_mem, packStream_nil,
    ← State.resetWith_verifyOk c]
  rfl

/-- A command that starts with `ck()` finds its domain buffer empty (42_checksum R143). -/
theorem exec_ck_reset {i : Instr} {f : Ck → Updates} (hbody : bodyOf i (State.resetWith c) = (ck c [] []).map f)
    (hlen : 0 < c.ckBufLen) :
    exec i (State.resetWith c) = .next ((State.resetWith c).formatRecorded 9 0 c.ckBufLen 0) := by
  have hdomain := State.resetWith_domain c
  rw [exec_ckLength hbody (by simpa [hdomain] using hlen.ne), hdomain]
  rfl

/-- On the empty patch FIELD_ENCODE misses the first entry that has a name (43_field_mapper R170, log 18). -/
theorem fieldEncode_nil {j : Nat} {e : Entry} {k : Name} (hj : c.schema[j]? = some e) (hk : e.kind ≠ .reserved)
    (hname : e.name = some k) (hb : ∀ i e', i < j → c.schema[i]? = some e' → e'.kind = .reserved) :
    fieldEncode c [] = .error (missingError j e) :=
  fieldEncode_entry_error hj (fun i e' hi he' hne => absurd (hb i e' hi he') hne) (checkEntry_missing hk hname rfl)

/-- A command whose body misses an entry of a well-formed schema records MissingField at it (60_exceptions R203). -/
theorem exec_missing {i : Instr} {s : State} {j : Nat} {e : Entry} (h : bodyOf i s = .error (missingError j e))
    (hj : j < 65536) : exec i s = .next (s.recorded 5 0 j 0 e.off 0 0 e.name) := by
  rw [exec_of_error h hj]
  rfl

end FromReset

/-- Settles O27: the empty buffers have none of the lengths the units ask for, no bytes are no groups, and the empty patch
has no value for the first entry that wants one. -/
theorem commandsRunFromReset : Obligations.CommandsRunFromReset := by
  rintro c s hc rfl
  obtain ⟨hpkd, hunp, hck⟩ := Config.WF.lengths_pos hc
  refine ⟨exec_of_formatError .shortFrame (bodyOf_frameParse_error frameParse_nil),
    exec_of_formatError .payloadLength (Result.map_error_iff.mpr (frameBuild_payloadLength _ hpkd.ne)),
    exec_unpack_reset, exec_pack_reset, exec_ck_reset rfl hck, exec_ck_reset rfl hck,
    exec_ck_reset rfl hck,
    exec_of_formatError .streamLength (bodyOf_fieldDecode_error (if_pos hunp.ne)),
    exec_of_formatError .shortFrame (decodeFrame_of_parse_error frameParse_nil), fun j e k hj hk hname hb => ?_⟩
  obtain ⟨hj16, -, -⟩ := Config.WF.entry hc hj
  have hmissing := fieldEncode_nil hj hk hname hb
  rw [← hname]
  exact ⟨exec_missing (bodyOf_fieldEncode_error hmissing) hj16,
    exec_missing ((encodePatch_error_iff hc).mpr hmissing) hj16⟩

end Sys2Proof.Machine
end
